-- ==== Sys2Proof/Word.lean ====
section
/-! DEFINITION. The word types of the block: each is exactly as wide as the spec says (R6, R27, R32, R39, R66). -/

namespace Sys2Proof

/-- A raw data byte or one symbol code (R6 `BYTE_BITS`, `SYM_BITS`). -/
abbrev Byte := BitVec 8

/-- A host-visible register or the data of a bus transaction (R6 `REG_BITS`). -/
abbrev Word := BitVec 32

/-- A host byte address (R6 `HOST_ADDR_BITS`, R39, R44). -/
abbrev Addr := BitVec 18

/-- A length, a group count or a position: `IN_LEN.LEN`, `OUT_LEN.LEN`, `ERR_POS.POS`, `NL`, `NG`, `GIDX` (R27 to R32). -/
abbrev Len := BitVec 17

/-- One segment of the accumulator (R6 `SEG_BITS`). -/
abbrev Seg := BitVec 6

/-- The accumulator `ACC` (R6 `ACC_BITS`, R33). -/
abbrev Accum := BitVec 24

end Sys2Proof
end

