-- ==== Sys2Proof/Config.lean ====
section
/-! DEFINITION. What an implementation of the block fixes (R6, R17) and the values the spec leaves open (R15, R22). -/

namespace Sys2Proof

/-- The parameters of one block (R6, R17): `IN_CAP`, which the spec leaves OPEN, and `ALPHABET`.  Every other parameter
of R6 is fixed.  Every operation of the machine takes these as an argument. -/
structure Config where
  /-- `IN_CAP`: the capacity of `IN_BUF` in bytes, 1 to 65536 (R6, D5). -/
  inCap : Nat
  /-- `ALPHABET`: entry `v` is the code of the symbol for segment value `v` (R8, R21). -/
  alphabet : List Byte
  deriving DecidableEq, Repr

/-- `PAD`, the pad symbol's code 0x3D (R6, R11). -/
def padCode : Byte := 0x3D#8

/-- This hardware's `IN_CAP` less one.  The spec leaves `IN_CAP` OPEN in 1..65536 (R6, D5), which is one more than each
16-bit value; nothing in Lean can evaluate this constant, so a claim holds for every capacity (log 1). -/
opaque Config.inCapLessOne : BitVec 16

/-- The draw `ANY` (R15): the byte a host read returns where the spec leaves it open (R42, R43), one for each value of
the counter `State.draws`.  Free value (log 2). -/
opaque Config.freeByte : Nat → Byte

/-- `value(REV[c])` for an `INVALID` entry, which the spec calls undefined (R22).  Free value (log 3); the
padding-validator keeps every `INVALID` code from reaching its only use (R91, R93). -/
opaque Config.freeSegment : Byte → Seg

end Sys2Proof
end

