-- ==== Sys2Proof/Machine/Access.lean ====
section
/-! DEFINITION. The host's bus transactions (R70, R72), the accesses they stand for (R45, R46), and the events of an
execution (R53, R139). -/

namespace Sys2Proof

/-- The direction of a bus transaction (R70). -/
inductive Dir where
  | read
  | write
  deriving DecidableEq, Repr

/-- A bus transaction `(dir, width, address, data)` (R70, R72).  `width` is in bytes.  A host program is encoded as a
list of these.  The `data` of a read is the value the block returns, so it is no input: the decoder ignores it (log 8). -/
structure Transaction where
  dir   : Dir
  width : Nat
  addr  : Addr
  data  : Word
  deriving DecidableEq, Repr

/-- The host accesses the block admits: aligned 32-bit accesses of the register region (R45) and 8-bit accesses of the
buffer windows (R46). -/
inductive Access where
  /-- `RD32`. -/
  | rd32 (addr : Addr)
  /-- `WR32`. -/
  | wr32 (addr : Addr) (data : Word)
  /-- `RD8`. -/
  | rd8 (addr : Addr)
  /-- `WR8`. -/
  | wr8 (addr : Addr) (data : Byte)
  deriving DecidableEq, Repr

/-- Why a bus transaction is no admitted access (R47, R72). -/
inductive AccessError where
  /-- A register access of a width other than 32 bits. -/
  | registerWidth
  /-- A register access at an address that is not a multiple of 4. -/
  | registerMisaligned
  /-- A buffer access of a width other than 8 bits. -/
  | bufferWidth
  /-- An 8-bit write whose data does not fit 8 bits, which is no row of R70. -/
  | byteDataWide
  deriving DecidableEq, Repr

/-- What can happen next in an execution: R53 makes it one interleaving of host accesses and engine steps, and R139
lets the platform reset the block between any two of them. -/
inductive Event where
  /-- The host's next bus transaction. -/
  | access (t : Transaction)
  /-- The engine takes its step, if it has one (R109). -/
  | engine
  /-- The platform resets the block (R139). -/
  | reset
  deriving DecidableEq, Repr

/-- An address in the register region 0x00000..0x0FFFF (R40). -/
def Addr.inRegisters (a : Addr) : Bool := a.toNat < 0x10000

/-- An address that is a multiple of 4 (R45). -/
def Addr.aligned (a : Addr) : Bool := a.toNat % 4 = 0

end Sys2Proof
end

