-- ==== Sys2Proof/Syntax.lean ====
section
/-! DEFINITION. The command words of the block: one constructor per row of the opcode map (R64, opcode_table.json). -/

namespace Sys2Proof

/-- A command word written to `CTRL` (R62 to R64).  Only `SETOP` has a field the effect depends on; bits [31:3] are
ignored in every row (R67), so no constructor carries them. -/
inductive Instr where
  /-- `SETOP`: `START = 0`, store `OP` (R104). -/
  | setop (op : BitVec 2)
  /-- `ENCODE`: `START = 1`, `OP = 0` (R106). -/
  | encode
  /-- `DECODE`: `START = 1`, `OP = 1` (R107). -/
  | decode
  /-- `RSVD2`: `START = 1`, `OP = 2`, reserved (R68, R108). -/
  | rsvd2
  /-- `RSVD3`: `START = 1`, `OP = 3`, reserved (R68, R108). -/
  | rsvd3
  deriving DecidableEq, Repr

end Sys2Proof
end

