-- ==== Sys2Proof/WellFormed.lean ====
section
/-! DEFINITION. The well-formedness checks: of an instruction, of a host access (R45, R46) and of a configuration (R6, R9, R11). -/

namespace Sys2Proof

/-- Every term of `Instr` is well-formed: `SETOP`'s one field is exactly as wide as `CTRL.OP` (R63) and no other row has
a field. -/
def Instr.wellFormed : Instr → Bool
  | .setop _ => true
  | .encode => true
  | .decode => true
  | .rsvd2 => true
  | .rsvd3 => true

/-- An access in the form the block admits: registers by aligned 32-bit words (R45), buffers by bytes (R46). -/
def Access.wellFormed : Access → Bool
  | .rd32 a => a.inRegisters && a.aligned
  | .wr32 a _ => a.inRegisters && a.aligned
  | .rd8 a => !a.inRegisters
  | .wr8 a _ => !a.inRegisters

/-- R6: 1 <= `IN_CAP` <= 65536. -/
def Config.capacityLegal (c : Config) : Bool := 1 ≤ c.inCap && c.inCap ≤ 65536

/-- R9 (a): exactly 64 entries. -/
def Config.alphabetLength (c : Config) : Bool := c.alphabet.length = 64

/-- R9 (b): the entries are pairwise distinct. -/
def Config.alphabetDistinct (c : Config) : Bool := decide c.alphabet.Nodup

/-- R9 (c): no entry equals `PAD`. -/
def Config.alphabetWithoutPad (c : Config) : Bool := c.alphabet.all (· != padCode)

/-- R9 (d): every entry is a printable code, 0x21..0x7E. -/
def Config.alphabetPrintable (c : Config) : Bool :=
  c.alphabet.all fun y => 0x21 ≤ y.toNat && y.toNat ≤ 0x7E

/-- R11: the six entries the source's examples fix. -/
def Config.alphabetPinned (c : Config) : Bool :=
  [(4, 0x45#8), (5, 0x46#8), (16, 0x51#8), (19, 0x54#8), (22, 0x57#8), (46, 0x75#8)].all
    fun p => c.alphabet[p.1]? == some p.2

/-- A legal alphabet table (R9). -/
def Config.alphabetLegal (c : Config) : Bool :=
  c.alphabetLength && c.alphabetDistinct && c.alphabetWithoutPad && c.alphabetPrintable

/-- A legal configuration (R6, R9, R11). -/
def Config.legal (c : Config) : Bool := c.capacityLegal && c.alphabetLegal && c.alphabetPinned

end Sys2Proof
end

