-- ==== Sys2Proof/Decode.lean ====
section
/-! DEFINITION. The decoder of a command word (R62 to R68) and of a bus transaction (R47, R72), and the encoders. -/

namespace Sys2Proof

/-- `w[0]`, the `START` field of a command word (R63). -/
def startField (w : Word) : BitVec 1 := w.extractLsb' 0 1

/-- `w[2:1]`, the `OP` field of a command word (R63). -/
def opField (w : Word) : BitVec 2 := w.extractLsb' 1 2

/-- The instruction a command word stands for: decoded from `w[0]` and `w[2:1]` alone (R64), so bits [31:3] are ignored
(R67).  The five rows cover every word: no word is illegal (R68), so nothing is rejected. -/
def decodeCtrl (w : Word) : Instr :=
  if startField w = 0#1 then .setop (opField w)
  else if opField w = 0#2 then .encode
  else if opField w = 1#2 then .decode
  else if opField w = 2#2 then .rsvd2
  else .rsvd3

/-- The command word with the given fields and reserved bits clear (R63). -/
def ctrlWord (start : BitVec 1) (op : BitVec 2) : Word := 0#29 ++ op ++ start

/-- The canonical command word of an instruction: its row of R64 with the ignored bits clear. -/
def encode : Instr → Word
  | .setop op => ctrlWord 0#1 op
  | .encode => ctrlWord 1#1 0#2
  | .decode => ctrlWord 1#1 1#2
  | .rsvd2 => ctrlWord 1#1 2#2
  | .rsvd3 => ctrlWord 1#1 3#2

/-- The instruction this decoder reads from the low `nbits` bits of `w`, the bits above them being 0.  The block has
one instruction length, 32 bits (R62): a longer word is no command word. -/
def decodeTableWord (nbits w : Nat) : Option Instr :=
  if nbits ≤ 32 then some (decodeCtrl (BitVec.ofNat 32 (w % 2 ^ nbits))) else none

/-- The access a bus transaction stands for, or why it stands for none (R45 to R47, R72). -/
def decodeAccess (t : Transaction) : Except AccessError Access :=
  if t.addr.inRegisters then
    if t.width ≠ 4 then .error .registerWidth
    else if t.addr.aligned = false then .error .registerMisaligned
    else match t.dir with
      | .read => .ok (.rd32 t.addr)
      | .write => .ok (.wr32 t.addr t.data)
  else if t.width ≠ 1 then .error .bufferWidth
  else match t.dir with
    | .read => .ok (.rd8 t.addr)
    | .write =>
      if t.data.toNat < 256 then .ok (.wr8 t.addr (t.data.setWidth 8)) else .error .byteDataWide

/-- The bus transaction of an access (R70).  A read's data, which the block supplies, is written 0. -/
def encodeAccess : Access → Transaction
  | .rd32 a => ⟨.read, 4, a, 0#32⟩
  | .wr32 a w => ⟨.write, 4, a, w⟩
  | .rd8 a => ⟨.read, 1, a, 0#32⟩
  | .wr8 a b => ⟨.write, 1, a, b.setWidth 32⟩

/-- A host program's encoding: the list of its bus transactions in program order (R72). -/
def encodeProgram (p : List Access) : List Transaction := p.map encodeAccess

/-- The host program a list of bus transactions encodes (R72): refused at the first transaction that is no row of R70. -/
def decodeProgram : List Transaction → Except AccessError (List Access)
  | [] => .ok []
  | t :: ts =>
    match decodeAccess t with
    | .error e => .error e
    | .ok a =>
      match decodeProgram ts with
      | .error e => .error e
      | .ok as => .ok (a :: as)

/-- One row of the opcode map (R64): a word `w` is the row's when `w & mask = pattern`. -/
structure OpcodeRow where
  mnemonic : String
  pattern  : Word
  mask     : Word
  deriving DecidableEq, Repr

/-- The opcode map (R64, opcode_table.json). -/
def opcodeMap : List OpcodeRow :=
  [⟨"SETOP", 0x0#32, 0x1#32⟩, ⟨"ENCODE", 0x1#32, 0x7#32⟩, ⟨"DECODE", 0x3#32, 0x7#32⟩,
   ⟨"RSVD2", 0x5#32, 0x7#32⟩, ⟨"RSVD3", 0x7#32, 0x7#32⟩]

/-- A word belongs to a row (R64 "match (w & mask)"). -/
def OpcodeRow.covers (r : OpcodeRow) (w : Word) : Bool := w &&& r.mask == r.pattern

/-- An instruction's mnemonic in the opcode map. -/
def mnemonic : Instr → String
  | .setop _ => "SETOP"
  | .encode => "ENCODE"
  | .decode => "DECODE"
  | .rsvd2 => "RSVD2"
  | .rsvd3 => "RSVD3"

end Sys2Proof
end

