-- ==== Sys2Proof/Machine/State.lean ====
section
/-! DEFINITION. The state of the block (R17), of the execution around it (R53), the reasons a step can stop, and reset (R38). -/

namespace Sys2Proof.Machine

/-- The engine's phase (R32, R103). -/
inductive Phase where
  | idle
  | check
  | run
  | locked
  deriving DecidableEq, Repr

/-- The error classes of `STATUS.ERR` (R121, R122). -/
inductive ErrClass where
  | none
  | invalidParameter
  | invalidInternalState
  | notImplemented
  deriving DecidableEq, Repr

/-- The causes of `STATUS.CAUSE` (R123).  The reserved codes 6..15 are never produced, so they have no constructor. -/
inductive Cause where
  | none
  | lengthNotMultipleOf4
  | symbolNotInAlphabet
  | padOutsideFinalGroup
  | padMisplacedInFinalGroup
  | inputExceedsCapacity
  deriving DecidableEq, Repr

/-- The fields of `STATUS` (R20, R26).  Software never writes this register; its 32-bit view is `Status.word`
(log 17). -/
structure Status where
  /-- `STATUS.BUSY`, bit 0. -/
  busy  : Bool
  /-- `STATUS.DONE`, bit 1. -/
  done  : Bool
  /-- `STATUS.ERR`, bits 3:2. -/
  err   : ErrClass
  /-- `STATUS.CAUSE`, bits 7:4. -/
  cause : Cause
  /-- `STATUS.PADS`, bits 9:8. -/
  pads  : BitVec 2
  deriving DecidableEq, Repr

/-- What the engine raises (R14, R127): an error of a command. -/
inductive EngineError where
  | invalidParameter (cause : Cause) (pos : Nat)
  | invalidInternalState
  | notImplemented
  deriving DecidableEq, Repr

/-- A buffer's bytes: (index, byte) pairs.  The canonical form is strictly rising indices (`Memory.wf`); an unlisted
index is a cell no one has written and holds no value (R34, R35, log 13), so every listed entry differs from it. -/
abbrev Memory := List Host.Cell

/-- Why the machine stops with a fault. -/
inductive Fault where
  /-- `FAULT(UNINIT_INPUT)`: a CHECK or RUN step read an `IN_BUF` cell that nothing has written since reset (R15, R115).
  Raised by the engine's steps only.  Safe: the hardware's result is unspecified and the model proves nothing of it. -/
  | uninitInput
  deriving DecidableEq, Repr

/-- Why the machine has no meaning for what it was given. -/
inductive Refusal where
  /-- An instruction of the opcode table without a meaning, by name.  Raised by a refused arm of `exec`; no arm is one.
  Safe. -/
  | notModelled (mnemonic : String)
  /-- `REFUSED(HOST_ACCESS)`: a bus transaction in a form the block does not admit (R15, R47).  Raised by a step whose
  next event is such a transaction.  Safe: the spec gives the form no meaning. -/
  | hostAccess (why : AccessError)
  deriving DecidableEq, Repr

/-- The state: the block's registers and buffers (R17), then what the model holds of the execution around the block. -/
structure State where
  /-- `CTRL.OP` (R25).  `START` reads 0 and the other bits are RAZ/WI, so this is all of `CTRL`. -/
  ctrlOp : BitVec 2
  /-- `STATUS` (R26). -/
  status : Status
  /-- `IN_LEN.LEN` (R27). -/
  inLen : Len
  /-- `OUT_LEN.LEN` (R28). -/
  outLen : Len
  /-- `ERR_POS.POS` (R29). -/
  errPos : Len
  /-- `PHASE`, hidden (R32). -/
  phase : Phase
  /-- `OPL`, hidden: `CTRL.OP` latched at the accepted START (R32). -/
  opl : BitVec 2
  /-- `NL`, hidden: `IN_LEN.LEN` latched at the accepted START (R32). -/
  nl : Len
  /-- `NG`, hidden: the number of groups of the command (R32). -/
  ng : Len
  /-- `PADS_I`, hidden: the command's pad count (R32). -/
  padsI : BitVec 2
  /-- `GIDX`, hidden: the index of the next group (R19, R32). -/
  gidx : Len
  /-- `ACC`, hidden: the 24-bit accumulator (R33). -/
  acc : Accum
  /-- `IN_BUF` (R34): an unlisted cell is unwritten. -/
  inBuf : Memory
  /-- `OUT_BUF` (R35): an unlisted cell is one the engine has not written since reset. -/
  outBuf : Memory
  /-- The model's own: the events still to come, in order, which is the interleaving of R53 (log 4). -/
  pending : List Event
  /-- The model's own: the values the host's reads returned, oldest first (R155) (log 5). -/
  readLog : List Word
  /-- The model's own: how many `ANY` draws have been made (R15) (log 2). -/
  draws : Nat
  deriving DecidableEq, Repr

/-- The machine right after reset (R38, R140), with nothing pending.  The hidden registers, which the spec leaves
unspecified and unobservable, hold 0 (log 6). -/
def State.reset : State where
  ctrlOp  := 0#2
  status  := ⟨false, false, .none, .none, 0#2⟩
  inLen   := 0#17
  outLen  := 0#17
  errPos  := 0#17
  phase   := .idle
  opl     := 0#2
  nl      := 0#17
  ng      := 0#17
  padsI   := 0#2
  gidx    := 0#17
  acc     := 0#24
  inBuf   := []
  outBuf  := []
  pending := []
  readLog := []
  draws   := 0

end Sys2Proof.Machine
end

