-- ==== Sys2Proof/Machine/Flags.lean ====
section
/-! DEFINITION. The block's flags, the fields of `STATUS`: their codes and every value they are set to (R20, R26, R122, R123). -/

namespace Sys2Proof.Machine

/-- The `STATUS.ERR` code of an error class (R122). -/
def ErrClass.code : ErrClass → BitVec 2
  | .none => 0#2
  | .invalidParameter => 1#2
  | .invalidInternalState => 2#2
  | .notImplemented => 3#2

/-- The `STATUS.CAUSE` code of a cause (R123). -/
def Cause.code : Cause → BitVec 4
  | .none => 0#4
  | .lengthNotMultipleOf4 => 1#4
  | .symbolNotInAlphabet => 2#4
  | .padOutsideFinalGroup => 3#4
  | .padMisplacedInFinalGroup => 4#4
  | .inputExceedsCapacity => 5#4

/-- Causes 2, 3 and 4, for which `ERR_POS` records the index of the symbol at fault (R29, R123). -/
def Cause.hasPosition : Cause → Bool
  | .symbolNotInAlphabet | .padOutsideFinalGroup | .padMisplacedInFinalGroup => true
  | .none | .lengthNotMultipleOf4 | .inputExceedsCapacity => false

/-- The 32-bit value of `STATUS`: each field at its bits, the reserved bits 0 (R26). -/
def Status.word (st : Status) : Word :=
  0#22 ++ st.pads ++ st.cause.code ++ st.err.code ++ BitVec.ofBool st.done ++ BitVec.ofBool st.busy

/-- `STATUS <- 0x00000001`, at an accepted START (R105). -/
def Status.inProgress : Status := ⟨true, false, .none, .none, 0#2⟩

/-- `STATUS <- (PADS_I << 8) | 0x2`, at a successful completion (R112). -/
def Status.success (pads : BitVec 2) : Status := ⟨false, true, .none, .none, pads⟩

/-- The class an error reports in `STATUS.ERR` (R122, R127). -/
def EngineError.errClass : EngineError → ErrClass
  | .invalidParameter _ _ => .invalidParameter
  | .invalidInternalState => .invalidInternalState
  | .notImplemented => .notImplemented

/-- The cause an error reports in `STATUS.CAUSE`: its own for INVALID_PARAMETER, else 0 (R123, R127). -/
def EngineError.cause : EngineError → Cause
  | .invalidParameter cause _ => cause
  | .invalidInternalState => .none
  | .notImplemented => .none

/-- The position an error records in `ERR_POS`: for INVALID_PARAMETER causes 2 to 4, else 0 (R123, R127). -/
def EngineError.position : EngineError → Len
  | .invalidParameter cause pos => if cause.hasPosition then BitVec.ofNat 17 pos else 0#17
  | .invalidInternalState => 0#17
  | .notImplemented => 0#17

/-- The phase an error leaves the engine in: LOCKED after INVALID_INTERNAL_STATE, else IDLE (R127). -/
def EngineError.phaseAfter : EngineError → Phase
  | .invalidParameter _ _ => .idle
  | .invalidInternalState => .locked
  | .notImplemented => .idle

/-- The flags an error leaves: `BUSY` 0, `DONE` 1, its class and cause, `PADS` 0 (R127). -/
def Status.failed (e : EngineError) : Status := ⟨false, true, e.errClass, e.cause, 0#2⟩

end Sys2Proof.Machine
end

