-- ==== Sys2Proof/Machine/Ops.lean ====
section
/-! DEFINITION. The named operations over the buffers and registers: reading and writing a buffer (R14, R34, R35),
accepting a START (R105), completing a command (R112), the error entry (R127), and reset (R139). -/

namespace Sys2Proof.Machine

/-- The canonical form of a buffer: indices strictly rising. -/
abbrev Memory.wf (m : Memory) : Prop := m.Pairwise fun x y => x.1 < y.1

/-- A buffer read of one cell: `none` where nothing has been written. -/
def Memory.read : Memory → Nat → Option Byte
  | [], _ => none
  | (a, b) :: m, i => if a = i then some b else Memory.read m i

/-- A buffer write of one cell, which keeps the indices rising. -/
def Memory.write : Memory → Nat → Byte → Memory
  | [], i, v => [(i, v)]
  | (a, b) :: m, i, v =>
    if i < a then (i, v) :: (a, b) :: m
    else if i = a then (i, v) :: m
    else (a, b) :: Memory.write m i v

/-- Bytes written to consecutive cells, in order, the first at index `i`. -/
def Memory.writeFrom (m : Memory) (i : Nat) : List Byte → Memory
  | [] => m
  | b :: bs => Memory.writeFrom (m.write i b) (i + 1) bs

/-- `InRead(i)`: the engine's read of `IN_BUF[i]`; `none` where the cell is unwritten (R14, R34, R61). -/
def State.inRead (s : State) (i : Nat) : Option Byte := s.inBuf.read i

/-- `OutWrite(i + k, bs[k])` for each `k` in order: the engine's writes of `OUT_BUF` (R14, R35, R61, log 16). -/
def State.outWrite (s : State) (i : Nat) (bs : List Byte) : State :=
  { s with outBuf := s.outBuf.writeFrom i bs }

/-- The block takes host writes: `PHASE` is IDLE.  In CHECK, RUN and LOCKED every host write to `CTRL`, `IN_LEN` and
`IN_BUF` is ignored (R113, log 9). -/
def State.takesWrites (s : State) : Bool := s.phase == .idle

/-- A host write to `CTRL` with `START = 1` and this `OP`: a command starts (R105), unless the write is ignored (R113). -/
def State.start (s : State) (op : BitVec 2) : State :=
  if s.takesWrites then
    { s with
      ctrlOp := op
      opl    := op
      nl     := s.inLen
      status := Status.inProgress
      outLen := 0#17
      errPos := 0#17
      phase  := .check }
  else s

/-- A host write to `CTRL` with `START = 0` (R104), unless it is ignored (R113). -/
def State.setOp (s : State) (op : BitVec 2) : State :=
  if s.takesWrites then { s with ctrlOp := op } else s

/-- A host write to `IN_LEN`: bits [16:0] are stored (R27), unless it is ignored (R113). -/
def State.writeInLen (s : State) (w : Word) : State :=
  if s.takesWrites then { s with inLen := w.extractLsb' 0 17 } else s

/-- A host write to `IN_BUF[i]` (R42), ignored in the unmapped part of the window (R42) and by R113. -/
def State.writeInBuf (s : State) (cap i : Nat) (b : Byte) : State :=
  if s.takesWrites && decide (i < cap) then { s with inBuf := s.inBuf.write i b } else s

/-- The error entry: the one way a command ends with an error (R127).  Nothing is saved, and there is no return: the
next accepted START clears the error (R130). -/
def State.raise (s : State) (e : EngineError) : State :=
  { s with
    status := Status.failed e
    errPos := e.position
    outLen := 0#17
    phase  := e.phaseAfter }

/-- The output length of the command in progress (R112): R82 for ENCODE, R98 for DECODE. -/
def State.outputLength (s : State) : Nat :=
  if s.opl = 0#2 then 4 * s.ng.toNat else 3 * s.ng.toNat - s.padsI.toNat

/-- `complete()`: a command ends successfully (R112). -/
def State.complete (s : State) : State :=
  { s with
    outLen := BitVec.ofNat 17 s.outputLength
    status := Status.success s.padsI
    errPos := 0#17
    phase  := .idle }

/-- Reset: the block goes to the reset state in one transition (R139 to R141); the execution around it goes on. -/
def State.resetBlock (s : State) : State :=
  { State.reset with pending := s.pending, readLog := s.readLog, draws := s.draws }

/-- What the host's read of a determined value returns, recorded (R155). -/
def State.observe (s : State) (w : Word) : State := { s with readLog := s.readLog ++ [w] }

/-- A byte read by the host: the byte, or a fresh draw where the spec leaves it open (R15). -/
def State.observeByte (s : State) : Option Byte → State
  | some b => s.observe (b.setWidth 32)
  | none => { s.observe ((Config.freeByte s.draws).setWidth 32) with draws := s.draws + 1 }

/-- The events still to come. -/
def State.setPending (s : State) (es : List Event) : State := { s with pending := es }

end Sys2Proof.Machine
end

