-- ==== Sys2Proof/Machine/Command.lean ====
section
/-! DEFINITION. The meaning of each command word (R104 to R108, R113): what the host's write to `CTRL` does.  A command
goes on in the engine's own steps (Machine/Engine.lean), each an atomic step of the machine (R48, R110, R111). -/

namespace Sys2Proof.Machine

/-- `SETOP` (R104). -/
def execSetop (op : BitVec 2) (s : State) : Host.Outcome State Fault Refusal := .next (s.setOp op)

/-- `ENCODE` (R106): an accepted START with `OP = 0`. -/
def execEncode (s : State) : Host.Outcome State Fault Refusal := .next (s.start 0#2)

/-- `DECODE` (R107): an accepted START with `OP = 1`. -/
def execDecode (s : State) : Host.Outcome State Fault Refusal := .next (s.start 1#2)

/-- `RSVD2` (R108): an accepted START with `OP = 2`, which the CHECK step ends with NOT_IMPLEMENTED. -/
def execRsvd2 (s : State) : Host.Outcome State Fault Refusal := .next (s.start 2#2)

/-- `RSVD3` (R108): an accepted START with `OP = 3`, which the CHECK step ends with NOT_IMPLEMENTED. -/
def execRsvd3 (s : State) : Host.Outcome State Fault Refusal := .next (s.start 3#2)

end Sys2Proof.Machine
end

