-- ==== Sys2Proof/Machine/Dispatch.lean ====
section
/-! DEFINITION. One arm per command word: the meaning each calls (R64). -/

namespace Sys2Proof.Machine

def exec (i : Instr) (s : State) : Host.Outcome State Fault Refusal :=
  match i with
  | .setop op => Sys2Proof.Machine.execSetop op s
  | .encode => Sys2Proof.Machine.execEncode s
  | .decode => Sys2Proof.Machine.execDecode s
  | .rsvd2 => Sys2Proof.Machine.execRsvd2 s
  | .rsvd3 => Sys2Proof.Machine.execRsvd3 s

end Sys2Proof.Machine
end

