-- ==== Sys2Proof/Machine/Operands.lean ====
section
/-! DEFINITION. The block's only operand assembly: how the accumulator is built and split (R12, R51, R66). -/

namespace Sys2Proof.Machine

/-- Bit-packer: `(b0 << 16) | (b1 << 8) | b2` (R66, R77). -/
def packBytes (b0 b1 b2 : Byte) : Accum :=
  (b0.setWidth 24 <<< 16) ||| (b1.setWidth 24 <<< 8) ||| b2.setWidth 24

/-- Segment `k` of the accumulator, `(ACC >> (18 - 6k)) & 0x3F` (R66, R78). -/
def accSegment (acc : Accum) (k : Nat) : Seg := ((acc >>> (18 - 6 * k)) &&& 0x3F#24).setWidth 6

/-- One assembly step of DECODE: `(ACC << 6) + v` (R66, R94). -/
def shiftIn (acc : Accum) (v : Seg) : Accum := (acc <<< 6) + v.setWidth 24

/-- The accumulator of a decode group: the values enter in order, from 0 (R66, R94). -/
def packSegments (vs : List Seg) : Accum := vs.foldl shiftIn 0#24

/-- Byte `j` of the accumulator, `ACC[23 - 8j : 16 - 8j]` (R66, R95). -/
def accByte (acc : Accum) (j : Nat) : Byte := acc.extractLsb' (16 - 8 * j) 8

end Sys2Proof.Machine
end

