-- ==== Sys2Proof/Machine/Tables.lean ====
section
/-! DEFINITION. The constant tables: the alphabet ROM (R21, R24), the reverse-lookup ROM derived from it (R22), and this
hardware's configuration (R6, R10). -/

namespace Sys2Proof

/-- `OUT_CAP = 4 * ceil(IN_CAP / 3)`, with `ceil(a / b) = (a + b - 1) div b` (R6, R12). -/
def Config.outCap (c : Config) : Nat := 4 * ((c.inCap + 2) / 3)

/-- `ALPHABET[v]` (R8, R21). -/
def Config.symbol (c : Config) (v : Seg) : Byte := c.alphabet.getD v.toNat 0#8

/-- The kinds of entry of the reverse-lookup ROM (R22). -/
inductive RevEntry where
  /-- The code is the alphabet symbol for this segment value. -/
  | data (v : Seg)
  /-- The code is `PAD`. -/
  | padSym
  /-- The code is neither. -/
  | invalid
  deriving DecidableEq, Repr

/-- `REV[code]`, derived mechanically from `ALPHABET` and `PAD` (R22). -/
def Config.rev (c : Config) (code : Byte) : RevEntry :=
  if code = padCode then .padSym
  else match c.alphabet.findIdx? (· == code) with
    | some v => .data (BitVec.ofNat 6 v)
    | none => .invalid

/-- `value(REV[code])` (R22): the segment value of a symbol, 0 for `PAD`, and a free value where it is undefined. -/
def Config.revValue (c : Config) (code : Byte) : Seg :=
  match c.rev code with
  | .data v => v
  | .padSym => 0#6
  | .invalid => Config.freeSegment code

/-- The standard alphabet, entry by entry (R24, log 15). -/
def standardAlphabet : List Byte :=
  [0x41#8, 0x42#8, 0x43#8, 0x44#8, 0x45#8, 0x46#8, 0x47#8, 0x48#8,
   0x49#8, 0x4A#8, 0x4B#8, 0x4C#8, 0x4D#8, 0x4E#8, 0x4F#8, 0x50#8] ++
  [0x51#8, 0x52#8, 0x53#8, 0x54#8, 0x55#8, 0x56#8, 0x57#8, 0x58#8,
   0x59#8, 0x5A#8, 0x61#8, 0x62#8, 0x63#8, 0x64#8, 0x65#8, 0x66#8] ++
  [0x67#8, 0x68#8, 0x69#8, 0x6A#8, 0x6B#8, 0x6C#8, 0x6D#8, 0x6E#8,
   0x6F#8, 0x70#8, 0x71#8, 0x72#8, 0x73#8, 0x74#8, 0x75#8, 0x76#8] ++
  [0x77#8, 0x78#8, 0x79#8, 0x7A#8, 0x30#8, 0x31#8, 0x32#8, 0x33#8,
   0x34#8, 0x35#8, 0x36#8, 0x37#8, 0x38#8, 0x39#8, 0x2B#8, 0x2F#8]

/-- The configuration with this hardware's alphabet (R6, R10) and a given capacity. -/
def Config.ofCap (cap : Nat) : Config := ⟨cap, standardAlphabet⟩

/-- This hardware: its alphabet is the standard one (R6, R10, R24) and its capacity any legal one (R6, log 1). -/
def Config.device : Config := Config.ofCap (Config.inCapLessOne.toNat + 1)

end Sys2Proof
end

