-- ==== Sys2Proof/Machine/Decoder.lean ====
section
/-! DEFINITION. The decoder's parts: padding-validator, pad count, symbol-unpacker and byte-reconstructor (R89 to R97). -/

namespace Sys2Proof.Machine

/-- Classification of the symbol at index `i` (R90): the cause it is at fault for, in the rule's order.  `cur` is its
`REV` entry, `prev` that of index `i - 1` where there is one, and `final` is `F`, the final group (R89). -/
def faultAt (final i : Nat) (prev : Option RevEntry) (cur : RevEntry) : Option Cause :=
  if cur = .invalid then some .symbolNotInAlphabet
  else if cur = .padSym ∧ i / 4 ≠ final then some .padOutsideFinalGroup
  else if cur = .padSym ∧ i % 4 ≤ 1 then some .padMisplacedInFinalGroup
  else if cur ≠ .padSym ∧ i / 4 = final ∧ i % 4 = 3 ∧ prev = some .padSym then
    some .padMisplacedInFinalGroup
  else none

/-- The outcome of the padding-validator's scan (R91, R115). -/
inductive ScanResult where
  /-- No position is at fault. -/
  | pass
  /-- The first position at fault and its cause. -/
  | bad (cause : Cause) (pos : Nat)
  /-- The scan reached a cell nothing has written. -/
  | unwritten
  deriving DecidableEq, Repr

/-- The padding-validator's scan of `count` positions from `i` up, stopping at the first at fault (R91).  An error at a
lower index comes before the read of an unwritten cell (R129). -/
def scanFrom (c : Config) (read : Nat → Option Byte) (final : Nat) : (count i : Nat) → ScanResult
  | 0, _ => .pass
  | count + 1, i =>
    match read i with
    | none => .unwritten
    | some code =>
      match faultAt final i ((read (i - 1)).map c.rev) (c.rev code) with
      | some cause => .bad cause i
      | none => scanFrom c read final count (i + 1)

/-- The cell holds the pad symbol. -/
def isPad (c : Config) (read : Nat → Option Byte) (i : Nat) : Bool :=
  (read i).map c.rev == some .padSym

/-- The pad count of DECODE, in the 2-bit `PADS_I`: the pad symbols of the final group (R92). -/
def decodePads (c : Config) (read : Nat → Option Byte) (final : Nat) : BitVec 2 :=
  BitVec.ofNat 2 (((List.range 4).filter fun k => isPad c read (4 * final + k)).length)

/-- The accumulator of decode group `g` (R93, R94); `none` where a symbol is unwritten. -/
def decodeAcc (c : Config) (read : Nat → Option Byte) (g : Nat) : Option Accum :=
  match read (4 * g), read (4 * g + 1), read (4 * g + 2), read (4 * g + 3) with
  | some c0, some c1, some c2, some c3 =>
    some (packSegments [c.revValue c0, c.revValue c1, c.revValue c2, c.revValue c3])
  | _, _, _, _ => none

/-- The kept bytes of a decode group, in order: all three, or `3 - pads` in the final group (R95 to R97). -/
def decodeGroup (acc : Accum) (last : Bool) (pads : BitVec 2) : List Byte :=
  [accByte acc 0, accByte acc 1, accByte acc 2].take (if last then 3 - pads.toNat else 3)

end Sys2Proof.Machine
end

