-- ==== Sys2Proof/Machine/Encoder.lean ====
section
/-! DEFINITION. The encoder's parts: pad count, group count, virtual extension, symbol-mapper and padding-appender (R74 to R80). -/

namespace Sys2Proof.Machine

/-- The pad count of ENCODE, in the 2-bit `PADS_I` (R74). -/
def encodePads (n : Nat) : BitVec 2 :=
  if n % 3 = 0 then 0#2 else BitVec.ofNat 2 (3 - n % 3)

/-- `PADS_I not in {0, 1, 2}`: the defensive check of the pad count (R74, R92, R126). -/
def padsOutOfRange (pads : BitVec 2) : Bool := pads == 3#2

/-- The group count of ENCODE: `(N + pads) div 3` (R75). -/
def encodeGroupCount (n : Nat) (pads : BitVec 2) : Nat := (n + pads.toNat) / 3

/-- The virtually extended input: `ext(i) = (i < N) ? InRead(i) : 0x00` (R76). -/
def extended (read : Nat → Option Byte) (n i : Nat) : Option Byte :=
  if i < n then read i else some 0x00#8

/-- The accumulator of encode group `g` (R76, R77); `none` where an input byte is unwritten. -/
def encodeAcc (read : Nat → Option Byte) (n g : Nat) : Option Accum :=
  match extended read n (3 * g), extended read n (3 * g + 1), extended read n (3 * g + 2) with
  | some b0, some b1, some b2 => some (packBytes b0 b1 b2)
  | _, _, _ => none

/-- Symbol `k` of a group: the symbol-mapper (R78, R79), and the padding-appender in the last group (R80). -/
def encodeSymbol (c : Config) (acc : Accum) (last : Bool) (pads : BitVec 2) (k : Nat) : Byte :=
  if last && pads != 0#2 && decide (4 - pads.toNat ≤ k) then padCode else c.symbol (accSegment acc k)

/-- The four symbols of an encode group, in order (R78 to R81). -/
def encodeGroup (c : Config) (acc : Accum) (last : Bool) (pads : BitVec 2) : List Byte :=
  [encodeSymbol c acc last pads 0, encodeSymbol c acc last pads 1,
   encodeSymbol c acc last pads 2, encodeSymbol c acc last pads 3]

end Sys2Proof.Machine
end

