-- ==== Sys2Proof/Machine/Engine.lean ====
section
/-! DEFINITION. The engine's steps: CHECK (R110) and RUN (R111). -/

namespace Sys2Proof.Machine

/-- The end of a CHECK step that raised nothing: `GIDX <- 0`, then the command completes where it has no group, else
RUN begins (R110). -/
def State.beginRun (s : State) (pads : BitVec 2) (groups : Nat) : State :=
  let t := { s with padsI := pads, ng := BitVec.ofNat 17 groups, gidx := 0#17 }
  if t.ng = 0#17 then t.complete else { t with phase := .run }

/-- The ENCODE part of the CHECK step (R74, R75, R110). -/
def checkEncode (s : State) : Host.Outcome State Fault Refusal :=
  let pads := encodePads s.nl.toNat
  if padsOutOfRange pads then .next (s.raise .invalidInternalState)
  else .next (s.beginRun pads (encodeGroupCount s.nl.toNat pads))

/-- The DECODE part of the CHECK step (R87 to R92, R110).  One that ends in an error leaves `NG` and `PADS_I` as they
were (R128, log 10). -/
def checkDecode (c : Config) (s : State) : Host.Outcome State Fault Refusal :=
  if s.nl.toNat % 4 ≠ 0 then .next (s.raise (.invalidParameter .lengthNotMultipleOf4 0))
  else
    let groups := s.nl.toNat / 4
    if groups = 0 then .next (s.beginRun 0#2 0)
    else
      match scanFrom c s.inRead (groups - 1) s.nl.toNat 0 with
      | .unwritten => .fault .uninitInput
      | .bad cause pos => .next (s.raise (.invalidParameter cause pos))
      | .pass =>
        let pads := decodePads c s.inRead (groups - 1)
        if padsOutOfRange pads then .next (s.raise .invalidInternalState)
        else .next (s.beginRun pads groups)

/-- The CHECK step (R110), its checks in the order of R129. -/
def checkStep (c : Config) (s : State) : Host.Outcome State Fault Refusal :=
  if s.opl = 2#2 ∨ s.opl = 3#2 then .next (s.raise .notImplemented)
  else if c.inCap < s.nl.toNat then .next (s.raise (.invalidParameter .inputExceedsCapacity 0))
  else if s.opl = 0#2 then checkEncode s
  else checkDecode c s

/-- The group a RUN step processes is the command's last: `g = NG - 1` (R80, R96). -/
def State.lastGroup (s : State) : Bool := s.gidx.toNat + 1 == s.ng.toNat

/-- The end of a RUN step: `GIDX <- g + 1`, and the command completes after its last group (R111). -/
def State.finishGroup (s : State) : State :=
  let t := { s with gidx := s.gidx + 1#17 }
  if t.gidx = t.ng then t.complete else t

/-- The ENCODE part of the RUN step (R76 to R81, R111). -/
def runEncode (c : Config) (s : State) : Host.Outcome State Fault Refusal :=
  match encodeAcc s.inRead s.nl.toNat s.gidx.toNat with
  | none => .fault .uninitInput
  | some acc =>
    let ys := encodeGroup c acc s.lastGroup s.padsI
    .next (({ s with acc := acc }.outWrite (4 * s.gidx.toNat) ys).finishGroup)

/-- The DECODE part of the RUN step (R93 to R97, R111). -/
def runDecode (c : Config) (s : State) : Host.Outcome State Fault Refusal :=
  match decodeAcc c s.inRead s.gidx.toNat with
  | none => .fault .uninitInput
  | some acc =>
    let bs := decodeGroup acc s.lastGroup s.padsI
    .next (({ s with acc := acc }.outWrite (3 * s.gidx.toNat) bs).finishGroup)

/-- The RUN step: one group (R111). -/
def runStep (c : Config) (s : State) : Host.Outcome State Fault Refusal :=
  if s.opl = 0#2 then runEncode c s else runDecode c s

/-- The engine's step: CHECK or RUN; in IDLE and LOCKED it has none, and nothing changes (R103, R109). -/
def engineStep (c : Config) (s : State) : Host.Outcome State Fault Refusal :=
  match s.phase with
  | .idle => .next s
  | .check => checkStep c s
  | .run => runStep c s
  | .locked => .next s

end Sys2Proof.Machine
end

