-- ==== Sys2Proof/Machine/Bus.lean ====
section
/-! DEFINITION. What the host's accesses do (R39 to R49, R113, R114) and what one event of an execution does (R53). -/

namespace Sys2Proof.Machine

/-- The first address of the `IN_BUF` window, `IN_BUF_BASE` (R40). -/
def inBufBase : Nat := 0x10000

/-- The first address of the `OUT_BUF` window, `OUT_BUF_BASE` (R40). -/
def outBufBase : Nat := 0x20000

/-- The offset of `CTRL` (R25). -/
def ctrlAddr : Addr := 0x00000#18

/-- The offset of `IN_LEN` (R27). -/
def inLenAddr : Addr := 0x00008#18

/-- A 32-bit read of the register region (R25 to R31, R41): each register's value, its reserved bits 0, and 0 for a word
that is no register. -/
def readRegister (c : Config) (s : State) (addr : Addr) : Word :=
  if addr = ctrlAddr then 0#29 ++ s.ctrlOp ++ 0#1
  else if addr = 0x00004#18 then s.status.word
  else if addr = inLenAddr then s.inLen.setWidth 32
  else if addr = 0x0000C#18 then s.outLen.setWidth 32
  else if addr = 0x00010#18 then s.errPos.setWidth 32
  else if addr = 0x00014#18 then (BitVec.ofNat 17 c.inCap).setWidth 32
  else if addr = 0x00018#18 then padCode.setWidth 32
  else if 0x100 ≤ addr.toNat ∧ addr.toNat ≤ 0x1FC then
    (c.symbol (BitVec.ofNat 6 ((addr.toNat - 0x100) / 4))).setWidth 32
  else 0#32

/-- A 32-bit write of the register region: a command word to `CTRL` (R62), a length to `IN_LEN` (R27), and nothing for
a read-only register or a word that is no register (R26, R28 to R31, R41). -/
def writeRegister (s : State) (addr : Addr) (w : Word) : Host.Outcome State Fault Refusal :=
  if addr = ctrlAddr then exec (decodeCtrl w) s
  else if addr = inLenAddr then .next (s.writeInLen w)
  else .next s

/-- An 8-bit read of `IN_BUF` at index `i` (R42): `none` is `ANY`. -/
def readInBuf (c : Config) (s : State) (i : Nat) : Option Byte :=
  if i < c.inCap then s.inBuf.read i else some 0x00#8

/-- An 8-bit read of `OUT_BUF` at index `i` (R43): `none` is `ANY`. -/
def readOutBuf (c : Config) (s : State) (i : Nat) : Option Byte :=
  if c.outCap ≤ i then some 0x00#8
  else if s.status.busy = false ∧ i < s.outLen.toNat then s.outBuf.read i
  else none

/-- An 8-bit read of a buffer window (R40, R46). -/
def readBuffer (c : Config) (s : State) (addr : Addr) : Option Byte :=
  if addr.toNat < outBufBase then readInBuf c s (addr.toNat - inBufBase)
  else readOutBuf c s (addr.toNat - outBufBase)

/-- An 8-bit write of a buffer window: `IN_BUF` takes it (R42), `OUT_BUF` is read-only (R43, log 12). -/
def writeBuffer (c : Config) (s : State) (addr : Addr) (b : Byte) : State :=
  if addr.toNat < outBufBase then s.writeInBuf c.inCap (addr.toNat - inBufBase) b else s

/-- One admitted host access, in one atomic step (R48). -/
def performAccess (c : Config) (s : State) : Access → Host.Outcome State Fault Refusal
  | .rd32 addr => .next (s.observe (readRegister c s addr))
  | .wr32 addr w => writeRegister s addr w
  | .rd8 addr => .next (s.observeByte (readBuffer c s addr))
  | .wr8 addr b => .next (writeBuffer c s addr b)

/-- One bus transaction: its access, or a refusal where it is no admitted form (R47). -/
def performTransaction (c : Config) (s : State) (t : Transaction) : Host.Outcome State Fault Refusal :=
  match decodeAccess t with
  | .ok a => performAccess c s a
  | .error why => .refused (.hostAccess why)

/-- One event of an execution (R53, R139). -/
def performEvent (c : Config) (s : State) : Event → Host.Outcome State Fault Refusal
  | .access t => performTransaction c s t
  | .engine => engineStep c s
  | .reset => .next s.resetBlock

/-- One step: the next pending event; with none pending, the engine's step, for a run whose program has ended while
`BUSY = 1` goes on to the command's completion (R155), and an idle block stays as it is (R137, R142). -/
def stepWith (c : Config) (s : State) : Host.Outcome State Fault Refusal :=
  match s.pending with
  | [] => engineStep c s
  | e :: es => performEvent c (s.setPending es) e

/-- The bus transaction of a command word: one aligned 32-bit write to `CTRL` (R62). -/
def commandTransaction (w : Word) : Transaction := ⟨.write, 4, ctrlAddr, w⟩

/-- The state in which the host's next bus transaction writes the low `nbits` bits of `w` to `CTRL` (log 7). -/
def State.withCommand (s : State) (nbits w : Nat) : State :=
  s.setPending (.access (commandTransaction (BitVec.ofNat 32 (w % 2 ^ nbits))) :: s.pending)

end Sys2Proof.Machine
end

