-- ==== Sys2Proof/Machine/Step.lean ====
section
/-! DEFINITION. One step of this hardware, and the state in which the next step runs a given command word. -/

namespace Sys2Proof.Machine

/-- One step of this hardware (R53): `stepWith` at its configuration (R6). -/
def step (s : State) : Host.Outcome State Fault Refusal := stepWith Config.device s

/-- `s` with a command word as the host's next bus transaction, so that the next step runs it (R62, log 7). -/
def State.withFetchWord (s : State) (nbits w : Nat) : State := s.withCommand nbits w

end Sys2Proof.Machine
end

