-- ==== Sys2Proof/Machine/Codec.lean ====
section
/-! DEFINITION. The functional form of the two transforms: `Encode` (R73) and `Decode` (R86).  The engine's steps are
the machine; these are what R116 says their combined effect is. -/

namespace Sys2Proof.Machine

/-- Element `i` of a sequence, as a read. -/
def listRead (bs : List Byte) (i : Nat) : Option Byte := bs[i]?

/-- The output of `Encode` for a given pad count: the groups' symbols in input order (R73, R81). -/
def encodeOutput (c : Config) (bs : List Byte) (pads : BitVec 2) : List Byte :=
  let groups := encodeGroupCount bs.length pads
  (List.range groups).flatMap fun g =>
    match encodeAcc (listRead bs) bs.length g with
    | some acc => encodeGroup c acc (g + 1 == groups) pads
    | none => []

/-- `Encode(in)` (R73): the output and the pad count, or the error it raises. -/
def encodeBytes (c : Config) (bs : List Byte) : Except EngineError (List Byte × BitVec 2) :=
  let pads := encodePads bs.length
  if padsOutOfRange pads then .error .invalidInternalState
  else .ok (encodeOutput c bs pads, pads)

/-- The output of `Decode` for a given pad count: the groups' kept bytes in input order (R86, R97). -/
def decodeOutput (c : Config) (codes : List Byte) (pads : BitVec 2) : List Byte :=
  let groups := codes.length / 4
  (List.range groups).flatMap fun g =>
    match decodeAcc c (listRead codes) g with
    | some acc => decodeGroup acc (g + 1 == groups) pads
    | none => []

/-- `Decode(c)` (R86): the output and the pad count, or the error it raises. -/
def decodeSymbols (c : Config) (codes : List Byte) : Except EngineError (List Byte × BitVec 2) :=
  if codes.length % 4 ≠ 0 then .error (.invalidParameter .lengthNotMultipleOf4 0)
  else if codes.length = 0 then .ok ([], 0#2)
  else
    let final := codes.length / 4 - 1
    match scanFrom c (listRead codes) final codes.length 0 with
    | .bad cause pos => .error (.invalidParameter cause pos)
    | .unwritten => .error .invalidInternalState
    | .pass =>
      let pads := decodePads c (listRead codes) final
      if padsOutOfRange pads then .error .invalidInternalState
      else .ok (decodeOutput c codes pads, pads)

end Sys2Proof.Machine
end

