-- ==== Sys2Proof/Machine/Program.lean ====
section
/-! DEFINITION. The host's notation: its registers, its accesses and the expansions of its pseudo-instructions (R70, R71). -/

namespace Sys2Proof.Machine

/-- The registers a host program names (R70). -/
inductive Reg where
  | ctrl
  | status
  | inLen
  | outLen
  | errPos
  | caps
  | padSym
  | alpha (v : Seg)
  deriving DecidableEq, Repr

/-- A register's address (R70). -/
def Reg.addr : Reg → Addr
  | .ctrl => 0x00000#18
  | .status => 0x00004#18
  | .inLen => 0x00008#18
  | .outLen => 0x0000C#18
  | .errPos => 0x00010#18
  | .caps => 0x00014#18
  | .padSym => 0x00018#18
  | .alpha v => 0x00100#18 + (v.setWidth 18 <<< 2)

/-- `WR32 <reg>, <imm32>` (R70). -/
def wr32 (r : Reg) (w : Word) : Access := .wr32 r.addr w

/-- `RD32 <reg>` (R70). -/
def rd32 (r : Reg) : Access := .rd32 r.addr

/-- The address of `IN_BUF[i]`: 0x10000 + i (R40, R70). -/
def inAddr (i : BitVec 16) : Addr := 0x10000#18 + i.setWidth 18

/-- The address of `OUT_BUF[i]`: 0x20000 + i (R40, R70). -/
def outAddr (i : Len) : Addr := 0x20000#18 + i.setWidth 18

/-- `WR8 IN[<i>], <imm8>` (R70). -/
def wr8In (i : BitVec 16) (b : Byte) : Access := .wr8 (inAddr i) b

/-- `RD8 IN[<i>]` (R70). -/
def rd8In (i : BitVec 16) : Access := .rd8 (inAddr i)

/-- `RD8 OUT[<i>]` (R70). -/
def rd8Out (i : Len) : Access := .rd8 (outAddr i)

/-- 8-bit writes to consecutive addresses.  Past the last 18-bit address the list goes on at address 0 (log 20). -/
def writesFrom (addr : Addr) : List Byte → List Access
  | [] => []
  | b :: bs => .wr8 addr b :: writesFrom (addr + 1#18) bs

/-- `LOADIN <i>, b0, ..., bk` (R71): element `k` goes to the address of `IN[i+k]`, also where the index `i+k` is past the
`IN_BUF` window (log 19, log 20). -/
def loadIn (i : BitVec 16) (bytes : List Byte) : List Access := writesFrom (inAddr i) bytes

/-- `LOADSTR <i>, "text"`: the 8-bit codes of the characters of text (R13, R71).  R13 gives the
codes of printable ASCII characters only; for every other character the low 8 bits of its Unicode code point stand for it
(log 20). -/
def loadStr (i : BitVec 16) (text : List Char) : List Access :=
  loadIn i (text.map fun ch => BitVec.ofNat 8 ch.toNat)

/-- `ENCODE <n>` (R71). -/
def encodeCommand (n : Word) : List Access := [wr32 .inLen n, wr32 .ctrl 0x00000001#32]

/-- `DECODE <n>` (R71). -/
def decodeCommand (n : Word) : List Access := [wr32 .inLen n, wr32 .ctrl 0x00000003#32]

/-- `SETOP <op>`: `WR32 CTRL, op << 1` (R71). -/
def setopCommand (op : BitVec 2) : List Access := [wr32 .ctrl (op.setWidth 32 <<< 1)]

/-- `WAIT` in a schedule where `extra` reads return `BUSY = 1`: at least one `RD32 STATUS` (R71, log 18). -/
def wait (extra : Nat) : List Access := List.replicate (extra + 1) (rd32 .status)

/-- `READOUT` where `OUT_LEN` reads `m`: `RD32 OUT_LEN`, then `RD8 OUT[0]` to `RD8 OUT[m-1]` (R71). -/
def readOut (m : Nat) : List Access :=
  rd32 .outLen :: (List.range m).map fun i => rd8Out (BitVec.ofNat 17 i)

/-- The events of a host program run with no engine step between its accesses (R53, R72). -/
def programEvents (p : List Access) : List Event := (encodeProgram p).map .access

/-- What the spec asks of the `status` of `IdleWith`: `BUSY = 0` and `ERR != 2` (R154). -/
def Status.launchable (st : Status) : Bool := !st.busy && st.err != .invalidInternalState

/-- The start state `IdleWith(inbuf, inlen, op, status, outlen, errpos, outbuf)` (R154), for a `status` that is
`Status.launchable`.  The rule lists no hidden register but `PHASE`; the others hold 0 here, as after reset (log 6). -/
def State.idleWith (inBuf : Memory) (inLen : Len) (op : BitVec 2) (status : Status) (outLen errPos : Len)
    (outBuf : Memory) : State :=
  { State.reset with
    inBuf := inBuf, inLen := inLen, ctrlOp := op, status := status
    outLen := outLen, errPos := errPos, outBuf := outBuf }

/-- The start state `AfterReset` with a host program to run (R154). -/
def State.afterReset (events : List Event) : State := State.reset.setPending events

end Sys2Proof.Machine
end

