-- ==== Sys2Proof/Safety.lean ====
section
/-! DEFINITION. What claims are stated in: the end of a run and its observation (R155), and the invariants of the block. -/

namespace Sys2Proof.Machine

/-- A run has ended: the events to come are over and the engine has no step (R155).  A reset still to come counts as part
of the run (log 21). -/
def State.ended (s : State) : Bool := s.pending.isEmpty && (s.phase == .idle || s.phase == .locked)

/-- The observation of a run that has ended (R155). -/
structure Observation where
  status : Word
  outLen : Word
  errPos : Word
  ctrl   : Word
  inLen  : Word
  /-- `OUT_BUF[0..OUT_LEN-1]` when `STATUS.DONE = 1` and `STATUS.ERR = 0`. -/
  output : Option (List Byte)
  /-- The values the program's reads returned. -/
  reads  : List Word
  deriving DecidableEq, Repr

/-- `OUT_BUF[0..OUT_LEN-1]`, where every one of those cells holds a byte. -/
def State.output (s : State) : Option (List Byte) :=
  (List.range s.outLen.toNat).mapM fun i => s.outBuf.read i

/-- The observation of a state whose run has ended; a faulted or refused run has none, and no state (R138, R155). -/
def State.observation (c : Config) (s : State) : Option Observation :=
  if s.ended then
    some {
      status := readRegister c s 0x00004#18
      outLen := readRegister c s 0x0000C#18
      errPos := readRegister c s 0x00010#18
      ctrl := readRegister c s ctrlAddr
      inLen := readRegister c s inLenAddr
      output := if s.status.done = true ∧ s.status.err = .none then s.output else none
      reads := s.readLog }
  else none

/-- Both buffers are in canonical form. -/
def State.BuffersCanonical (s : State) : Prop := s.inBuf.wf ∧ s.outBuf.wf

/-- Every cell a buffer lists is one of its `n` cells. -/
def Memory.Within (m : Memory) (n : Nat) : Prop := ∀ p ∈ m, p.1 < n

/-- The engine works: `PHASE` is CHECK or RUN (R103). -/
def State.Working (s : State) : Prop := s.phase = .check ∨ s.phase = .run

/-- What `STATUS`, `OUT_LEN`, `ERR_POS` and `PHASE` promise together (R26, R28, R29, R103, R122, R123, R126). -/
structure State.StatusConsistent (s : State) : Prop where
  /-- R26: `BUSY = 1` exactly when `PHASE` is CHECK or RUN. -/
  busy_iff : s.status.busy = true ↔ s.Working
  /-- R26, R114: while busy, `STATUS` reads 1, and `OUT_LEN` and `ERR_POS` read 0. -/
  while_busy : s.Working → s.status = Status.inProgress ∧ s.outLen = 0#17 ∧ s.errPos = 0#17
  /-- R122, R126: INVALID_INTERNAL_STATE is reported exactly in LOCKED. -/
  locked_iff : s.status.err = .invalidInternalState ↔ s.phase = .locked
  /-- R123: a cause is reported exactly with INVALID_PARAMETER. -/
  cause_iff : s.status.cause ≠ .none ↔ s.status.err = .invalidParameter
  /-- R26, R28, R127: an error is reported of a completed command, with no output and no pad count. -/
  on_error : s.status.err ≠ .none → s.status.done = true ∧ s.outLen = 0#17 ∧ s.status.pads = 0#2
  /-- R29, R123: `ERR_POS` is nonzero only for causes 2, 3 and 4. -/
  position : s.errPos ≠ 0#17 → s.status.cause.hasPosition = true
  /-- R20, R26, R38: `DONE` is clear in a block at rest only where no command has completed since reset, and then
  `STATUS`, `OUT_LEN` and `ERR_POS` still hold their reset values. -/
  before_first : ¬s.Working → s.status.done = false →
    s.status = State.reset.status ∧ s.outLen = 0#17 ∧ s.errPos = 0#17

/-- The command the engine works on is the one the host can see: its operands are the host's registers, which are frozen
(R105, R113, R114). -/
def State.Latched (s : State) : Prop := s.Working → s.opl = s.ctrlOp ∧ s.nl = s.inLen

/-- How many output bytes the groups before `g` give (R81, R97). -/
def outputBefore (opl : BitVec 2) (g : Nat) : Nat := if opl = 0#2 then 4 * g else 3 * g

/-- What the CHECK step has established while the engine is in RUN (R110, R111). -/
structure State.RunReady (c : Config) (s : State) : Prop where
  /-- R64: the command is ENCODE or DECODE. -/
  direction : s.opl = 0#2 ∨ s.opl = 1#2
  /-- R110: the input fits the buffer. -/
  fits : s.nl.toNat ≤ c.inCap
  /-- R19: a group is left. -/
  group_left : s.gidx.toNat < s.ng.toNat
  /-- R74, R75: the counts of ENCODE. -/
  encode_counts : s.opl = 0#2 →
    s.padsI = encodePads s.nl.toNat ∧ s.ng.toNat = encodeGroupCount s.nl.toNat s.padsI
  /-- R87, R89, R91, R92: the checks and counts of DECODE. -/
  decode_checks : s.opl = 1#2 →
    s.nl.toNat % 4 = 0 ∧ s.ng.toNat = s.nl.toNat / 4 ∧
    scanFrom c s.inRead (s.nl.toNat / 4 - 1) s.nl.toNat 0 = .pass ∧
    s.padsI = decodePads c s.inRead (s.nl.toNat / 4 - 1)
  /-- R81, R97: the output of the groups before `GIDX` stands in `OUT_BUF`. -/
  written : ∀ k, k < outputBefore s.opl s.gidx.toNat → s.outBuf.read k ≠ none

/-- The invariant of the block with configuration `c`. -/
structure State.Inv (c : Config) (s : State) : Prop where
  canonical : s.BuffersCanonical
  /-- R34: `IN_BUF` has `IN_CAP` cells. -/
  in_bounds : s.inBuf.Within c.inCap
  /-- R35: `OUT_BUF` has `OUT_CAP` cells, and every write of the engine falls into them (R81, R97). -/
  out_bounds : s.outBuf.Within c.outCap
  status : s.StatusConsistent
  latched : s.Latched
  /-- R83: the pad count reported is 0, 1 or 2. -/
  pads_bound : s.status.pads ≠ 3#2
  /-- R126: INVALID_INTERNAL_STATE is unreachable, so the block is never LOCKED. -/
  not_locked : s.phase ≠ .locked
  /-- R28: the output fits `OUT_BUF`. -/
  out_len_bound : s.outLen.toNat ≤ c.outCap
  /-- R35, R55: every byte of the output the host is offered has been written. -/
  output_written : ∀ k, k < s.outLen.toNat → s.outBuf.read k ≠ none
  run_ready : s.phase = .run → s.RunReady c

/-- Every input byte of the command in progress has been written (R144). -/
def State.InputWritten (s : State) : Prop := ∀ i, i < s.nl.toNat → s.inBuf.read i ≠ none

/-- Two states agree on everything of the block: they differ at most in the events to come, the values the host has
read and the draws made. -/
def State.SameBlock (s t : State) : Prop :=
  { t with pending := s.pending, readLog := s.readLog, draws := s.draws } = s

/-- The machine of a configuration, behind the host's interface: `Sys2Proof.core` is that of `Config.device`. -/
def machineOf (c : Config) : Host.Core :=
  { State := State, Fault := Fault, Refusal := Refusal, step := stepWith c, reset := State.reset }

/-- The host's registers and `IN_BUF` hold the operands `bs` of the next command (R65, R144). -/
def State.InputIs (s : State) (bs : List Byte) : Prop :=
  s.inLen.toNat = bs.length ∧ ∀ i, i < bs.length → s.inBuf.read i = bs[i]?

/-- The block is idle with the operands `bs`, and nothing is to happen but what the engine does. -/
def State.ReadyWith (s : State) (bs : List Byte) : Prop :=
  s.phase = .idle ∧ s.pending = [] ∧ s.InputIs bs

/-- `OUT_BUF[0..OUT_LEN-1]` is `out` (R35, R55). -/
def State.OutputIs (s : State) (out : List Byte) : Prop :=
  s.outLen.toNat = out.length ∧ ∀ k, k < out.length → s.outBuf.read k = out[k]?

/-- What no command changes: the host's registers and buffer, and the execution around the block; nor any cell of
`OUT_BUF` past the command's `n` output bytes (R61, R128). -/
def State.CommandFrame (s t : State) (n : Nat) : Prop :=
  t.inLen = s.inLen ∧ (∀ i, t.inBuf.read i = s.inBuf.read i) ∧
  (∀ k, n ≤ k → t.outBuf.read k = s.outBuf.read k) ∧
  t.pending = s.pending ∧ t.readLog = s.readLog ∧ t.draws = s.draws

end Sys2Proof.Machine
end

