-- ==== Sys2Proof/Certificates/Slice0/Obligations.lean ====
section
/-! DEFINITION. The statements for the provers, from the numbered rules of spec/.  A statement about `stepWith c` or
`engineStep c` holds for every configuration it admits; `DeviceIsALegalMachine` says that the hardware's `step` is one. -/

open Sys2Proof Sys2Proof.Machine

/-! ## The machine and its configuration -/

/-- R6, R9, R10, R11: the configuration of this hardware is legal, whatever its capacity, its alphabet is the standard
one in closed form, and `Sys2Proof.core` is the machine of that configuration. -/
def Obligations.DeviceIsALegalMachine : Prop :=
  Sys2Proof.core = machineOf Config.device ∧ Config.device.legal = true ∧
  ∀ v : Seg, Config.device.symbol v =
    if v.toNat ≤ 25 then BitVec.ofNat 8 (0x41 + v.toNat)
    else if v.toNat ≤ 51 then BitVec.ofNat 8 (0x61 + (v.toNat - 26))
    else if v.toNat ≤ 61 then BitVec.ofNat 8 (0x30 + (v.toNat - 52))
    else if v.toNat = 62 then 0x2B#8 else 0x2F#8

/-- R22, R23: the tables of every legal alphabet are consistent, and of the 256 codes exactly 64 are `DATA`, exactly one,
`PAD`, is `PADSYM`, and all the others are `INVALID`: 191 of them, where R23 says 192 (log 11). -/
def Obligations.TablesAreConsistent : Prop :=
  ∀ c : Config, c.alphabetLegal = true →
    (∀ v : Seg, c.rev (c.symbol v) = .data v) ∧
    (∀ (code : Byte) (v : Seg), c.rev code = .data v → c.symbol v = code) ∧
    ((List.range 256).filter fun n => (c.rev (BitVec.ofNat 8 n) != .invalid) && (c.rev (BitVec.ofNat 8 n) != .padSym)).length = 64 ∧
    ((List.range 256).filter fun n => c.rev (BitVec.ofNat 8 n) == .padSym) = [padCode.toNat] ∧
    ((List.range 256).filter fun n => c.rev (BitVec.ofNat 8 n) == .invalid).length = 191

/-! ## Reset -/

/-- R140: what reset leaves, for the values the spec gives: the registers read 0, the constant registers their constants,
the engine is idle and every cell of `IN_BUF` is unwritten. -/
def Obligations.ResetStateReadsAsSpecified : Prop :=
  State.reset.phase = .idle ∧ (∀ i, State.reset.inBuf.read i = none) ∧
  ∀ c : Config, c.capacityLegal = true →
    readRegister c State.reset Reg.ctrl.addr = 0#32 ∧ readRegister c State.reset Reg.status.addr = 0#32 ∧
    readRegister c State.reset Reg.inLen.addr = 0#32 ∧ readRegister c State.reset Reg.outLen.addr = 0#32 ∧
    readRegister c State.reset Reg.errPos.addr = 0#32 ∧
    (readRegister c State.reset Reg.caps.addr).toNat = c.inCap ∧
    readRegister c State.reset Reg.padSym.addr = 0x3D#32 ∧
    ∀ v : Seg, readRegister c State.reset (Reg.alpha v).addr = (c.symbol v).setWidth 32

/-- R139, R141: a reset event takes the block from any state, working or LOCKED too, to the reset state in one step.  That
the hidden registers are then 0 and the buffers list nothing is the model's choice (log 6, log 13). -/
def Obligations.ResetEventRestoresResetState : Prop :=
  ∀ (c : Config) (s : State) (es : List Event), s.pending = .reset :: es →
    ∃ t, stepWith c s = .next t ∧ State.SameBlock State.reset t ∧
      t.pending = es ∧ t.readLog = s.readLog ∧ t.draws = s.draws

/-! ## Command words: decoding and encoding -/

/-- R64: words of each row of the opcode map decode to the instruction they stand for; 0xFFFFFFF9 is ENCODE and
0xFFFFFFF8 is SETOP of 0, since bits [31:3] are ignored. -/
def Obligations.CommandWordsDecodeToTheirInstructions : Prop :=
  decodeCtrl 0x00000000#32 = .setop 0#2 ∧ decodeCtrl 0x00000002#32 = .setop 1#2 ∧
  decodeCtrl 0x00000001#32 = .encode ∧ decodeCtrl 0x00000003#32 = .decode ∧
  decodeCtrl 0x00000005#32 = .rsvd2 ∧ decodeCtrl 0x00000007#32 = .rsvd3 ∧
  decodeCtrl 0xFFFFFFF9#32 = .encode ∧ decodeCtrl 0xFFFFFFF8#32 = .setop 0#2

/-- R64: the five rows of the opcode map are disjoint and cover every 32-bit value, and the row that covers a word is
the one of the instruction the decoder gives. -/
def Obligations.OpcodeMapCoversEveryWordOnce : Prop :=
  ∀ w : Word, (opcodeMap.filter fun r => r.covers w).map (·.mnemonic) = [mnemonic (decodeCtrl w)]

/-- R67: bits [31:3] of a command word are ignored: words that agree in bits [2:0] decode alike, so the canonical word
of what a word decodes to is that word with the ignored bits clear; and `CTRL` reads those bits as 0 in every state. -/
def Obligations.ReservedCommandBitsAreIgnored : Prop :=
  (∀ v w : Word, v.extractLsb' 0 3 = w.extractLsb' 0 3 → decodeCtrl v = decodeCtrl w) ∧
  (∀ w : Word, Sys2Proof.encode (decodeCtrl w) = w &&& 0x7#32) ∧
  ∀ (c : Config) (s : State), (readRegister c s Reg.ctrl.addr).extractLsb' 3 29 = 0#29

/-- R64: decoding the canonical word of an instruction gives it back, and so does the table word of the same bits. -/
def Obligations.DecodeOfEncodeIsTheInstruction : Prop :=
  ∀ i : Instr, i.wellFormed = true →
    decodeCtrl (Sys2Proof.encode i) = i ∧ decodeTableWord 32 (Sys2Proof.encode i).toNat = some i

/-- R45, R46, R72: every host program of admitted accesses is what its list of bus transactions decodes to; and a list
that decodes consists of admitted accesses and agrees with their encoding in all but the data of reads.  Two points are the
model's choices: an 8-bit write in the `OUT_BUF` window, which R43 and R46 admit and no row of R70 has, is an access
(log 12); and the data of a read is ignored, and an 8-bit write of data above 255 refused (log 8). -/
def Obligations.HostProgramsRoundTrip : Prop :=
  (∀ p : List Access, (∀ a ∈ p, a.wellFormed = true) → decodeProgram (encodeProgram p) = .ok p) ∧
  ∀ (ts : List Transaction) (p : List Access), decodeProgram ts = .ok p →
    (∀ a ∈ p, a.wellFormed = true) ∧
    (encodeProgram p).map (fun t => (t.dir, t.width, t.addr)) = ts.map (fun t => (t.dir, t.width, t.addr)) ∧
    ((encodeProgram p).filter fun t => t.dir == .write) = ts.filter fun t => t.dir == .write

/-! ## Command words: what they do -/

/-- R62: when the host's next bus transaction writes a word to `CTRL`, the step is `exec` of the instruction the word
decodes to, at the state without that event. -/
def Obligations.StepRunsTheDecodedCommand : Prop :=
  ∀ (s : State) (w : Word) (es : List Event), s.pending = .access ⟨.write, 4, 0x00000#18, w⟩ :: es →
    step s = exec (decodeCtrl w) (s.setPending es)

/-- R104: a host write to `CTRL` with `w[0] = 0` stores `OP` in IDLE, changes nothing else, and is ignored in every
other phase; `CTRL` then reads `OP << 1`, so the example's 0x00000002 reads back as 0x00000002. -/
def Obligations.SetopStoresOpOnly : Prop :=
  ∀ (c : Config) (s : State) (w : Word) (es : List Event),
    s.pending = .access ⟨.write, 4, 0x00000#18, w⟩ :: es → w.getLsbD 0 = false →
    (s.phase = .idle → ∃ t, stepWith c s = .next t ∧ t = { s with pending := es, ctrlOp := w.extractLsb' 1 2 } ∧
      readRegister c t 0x00000#18 = (w.extractLsb' 1 2).setWidth 32 <<< 1) ∧
    (s.phase ≠ .idle → stepWith c s = .next { s with pending := es })

/-- R105: a host write to `CTRL` with `w[0] = 1` in IDLE starts a command in one step, whatever `STATUS.DONE` holds, and
changes nothing but the registers the rule lists; in every other phase it is ignored. -/
def Obligations.StartLatchesTheCommand : Prop :=
  ∀ (c : Config) (s : State) (w : Word) (es : List Event),
    s.pending = .access ⟨.write, 4, 0x00000#18, w⟩ :: es → w.getLsbD 0 = true →
    (s.phase = .idle → ∃ t, stepWith c s = .next t ∧ t.status.word = 0x00000001#32 ∧
      t = { s with
        pending := es, ctrlOp := w.extractLsb' 1 2, opl := w.extractLsb' 1 2, nl := s.inLen
        status := t.status, outLen := 0#17, errPos := 0#17, phase := .check }) ∧
    (s.phase ≠ .idle → stepWith c s = .next { s with pending := es })

/-- R104 to R108: in IDLE every command word completes its write: SETOP stores its operand, each of the others starts
its command with its own `OP`. -/
def Obligations.CommandsCompleteInIdle : Prop :=
  ∀ s : State, s.phase = .idle →
    (∀ op, exec (.setop op) s = .next { s with ctrlOp := op }) ∧
    ∀ p ∈ [(Instr.encode, 0#2), (Instr.decode, 1#2), (Instr.rsvd2, 2#2), (Instr.rsvd3, 3#2)],
      ∃ t, exec p.1 s = .next t ∧ t.phase = .check ∧ t.opl = p.2 ∧ t.ctrlOp = p.2 ∧ t.nl = s.inLen ∧
        t.status.word = 0x00000001#32 ∧ t.outLen = 0#17 ∧ t.errPos = 0#17

/-- The frame of SETOP, ENCODE, DECODE, RSVD2 and RSVD3 in any phase (R104, R105, R113): no byte of either buffer
changes, nor `IN_LEN`, the group registers or the execution around the block; SETOP changes no register but `CTRL.OP`. -/
def Obligations.CommandWordFrame : Prop :=
  ∀ (i : Instr) (s t : State), exec i s = .next t →
    (∀ k, t.inBuf.read k = s.inBuf.read k) ∧ (∀ k, t.outBuf.read k = s.outBuf.read k) ∧
    t.inLen = s.inLen ∧ t.ng = s.ng ∧ t.padsI = s.padsI ∧ t.gidx = s.gidx ∧ t.acc = s.acc ∧
    t.pending = s.pending ∧ t.readLog = s.readLog ∧ t.draws = s.draws ∧
    (∀ op, i = .setop op → t.status = s.status ∧ t.outLen = s.outLen ∧ t.errPos = s.errPos ∧
      t.phase = s.phase ∧ t.opl = s.opl ∧ t.nl = s.nl)

/-! ## The host's accesses -/

/-- R45 to R47, and R70 for an 8-bit write: a bus transaction is refused exactly when it is a register access of a width
other than 4 bytes or at an address not a multiple of 4, a buffer access of a width other than 1 byte, or an 8-bit
write whose data does not fit 8 bits (the last is the model's reading of R70 and R72, log 8). -/
def Obligations.RefusedExactlyForUnadmittedForms : Prop :=
  ∀ (c : Config) (s : State) (t : Transaction) (es : List Event), s.pending = .access t :: es →
    ((∃ r, stepWith c s = .refused r) ↔
      (t.addr.toNat < 0x10000 ∧ (t.width ≠ 4 ∨ t.addr.toNat % 4 ≠ 0)) ∨
      (0x10000 ≤ t.addr.toNat ∧ (t.width ≠ 1 ∨ (t.dir = .write ∧ 256 ≤ t.data.toNat))))

/-- R25 to R31, R41: a 32-bit read of an aligned word of the register region returns each register's value with its
reserved bits 0, and 0 for every word that is no register; it changes nothing but the host's record of reads. -/
def Obligations.RegisterReadsReturnTheirFields : Prop :=
  ∀ (c : Config) (s : State) (a : Addr) (d : Word) (es : List Event),
    c.capacityLegal = true → s.pending = .access ⟨.read, 4, a, d⟩ :: es →
    a.toNat < 0x10000 → a.toNat % 4 = 0 →
    ∃ v : Word, stepWith c s = .next { s with pending := es, readLog := s.readLog ++ [v] } ∧
      (a.toNat = 0x000 → v.toNat = 2 * s.ctrlOp.toNat) ∧
      (a.toNat = 0x004 → v.toNat = s.status.busy.toNat + 2 * s.status.done.toNat + 4 * s.status.err.code.toNat +
        16 * s.status.cause.code.toNat + 256 * s.status.pads.toNat) ∧
      (a.toNat = 0x008 → v.toNat = s.inLen.toNat) ∧ (a.toNat = 0x00C → v.toNat = s.outLen.toNat) ∧
      (a.toNat = 0x010 → v.toNat = s.errPos.toNat) ∧ (a.toNat = 0x014 → v.toNat = c.inCap) ∧
      (a.toNat = 0x018 → v.toNat = 0x3D) ∧
      (∀ k : Seg, a.toNat = 0x100 + 4 * k.toNat → v.toNat = (c.symbol k).toNat) ∧
      (0x018 < a.toNat → (a.toNat < 0x100 ∨ 0x1FC < a.toNat) → v = 0#32)

/-- R27, R41, R113: a 32-bit write of an aligned word other than `CTRL` stores bits [16:0] in `IN_LEN` when it goes
there and the block is idle, and changes nothing otherwise.  That a LOCKED block ignores it is R113 (log 9). -/
def Obligations.RegisterWritesStoreOnlyInLen : Prop :=
  ∀ (c : Config) (s : State) (a : Addr) (w : Word) (es : List Event),
    s.pending = .access ⟨.write, 4, a, w⟩ :: es → a.toNat < 0x10000 → a.toNat % 4 = 0 → a.toNat ≠ 0 →
    stepWith c s = .next { s with
      pending := es
      inLen := if a.toNat = 8 ∧ s.phase = .idle then w.extractLsb' 0 17 else s.inLen }

/-- R42: host accesses of `IN_BUF` at index `i`.  A read returns the cell's byte, a fresh draw for an unwritten cell, or
0 in the unmapped part of the window; a write sets that cell, and no other, when the block is idle and the cell is
mapped, and is ignored otherwise.  That R113 keeps a LOCKED block's buffer as well is log 9, and the form of a draw is
log 2. -/
def Obligations.InBufAccesses : Prop :=
  ∀ (c : Config) (s : State) (i : Nat) (d : Word) (b : Byte) (es : List Event), i < 0x10000 →
    (s.pending = .access ⟨.read, 1, BitVec.ofNat 18 (0x10000 + i), d⟩ :: es →
      stepWith c s = .next (match (if i < c.inCap then s.inBuf.read i else some 0#8) with
        | some v => { s with pending := es, readLog := s.readLog ++ [v.setWidth 32] }
        | none => { s with
            pending := es, readLog := s.readLog ++ [(Config.freeByte s.draws).setWidth 32]
            draws := s.draws + 1 })) ∧
    (s.pending = .access ⟨.write, 1, BitVec.ofNat 18 (0x10000 + i), b.setWidth 32⟩ :: es →
      ∃ t, stepWith c s = .next t ∧ t = { s with pending := es, inBuf := t.inBuf } ∧
        ∀ j, t.inBuf.read j = if j = i ∧ i < c.inCap ∧ s.phase = .idle then some b else s.inBuf.read j)

/-- R43: host accesses of `OUT_BUF` at index `i`.  A write is ignored; a read returns 0 in the unmapped part, the byte
of the last successful command below `OUT_LEN` while the block is not busy, and a fresh draw in every other case.  The
form of a draw is the model's choice (log 2). -/
def Obligations.OutBufAccesses : Prop :=
  ∀ (c : Config) (s : State) (i : Nat) (d : Word) (b : Byte) (es : List Event), i < 0x20000 →
    (s.pending = .access ⟨.write, 1, BitVec.ofNat 18 (0x20000 + i), b.setWidth 32⟩ :: es →
      stepWith c s = .next { s with pending := es }) ∧
    (s.pending = .access ⟨.read, 1, BitVec.ofNat 18 (0x20000 + i), d⟩ :: es →
      (c.outCap ≤ i → stepWith c s = .next { s with pending := es, readLog := s.readLog ++ [0#32] }) ∧
      (∀ v, i < c.outCap → s.status.busy = false → i < s.outLen.toNat → s.outBuf.read i = some v →
        stepWith c s = .next { s with pending := es, readLog := s.readLog ++ [v.setWidth 32] }) ∧
      (i < c.outCap → (s.status.busy = true ∨ s.outLen.toNat ≤ i) →
        stepWith c s = .next { s with
          pending := es, readLog := s.readLog ++ [(Config.freeByte s.draws).setWidth 32]
          draws := s.draws + 1 }))

/-- R71, R144: the accesses of `LOADIN i, bs`, where the bytes fit the buffer: an idle block takes them in as many steps,
each cell from `i` on holding its byte afterwards, and nothing else of the block changes. -/
def Obligations.LoadedInputIsStored : Prop :=
  ∀ (c : Config) (s : State) (i : BitVec 16) (bs : List Byte) (es : List Event), c.capacityLegal = true →
    s.phase = .idle → i.toNat + bs.length ≤ c.inCap → s.pending = programEvents (loadIn i bs) ++ es →
    ∃ t : State, (machineOf c).run bs.length s = .next t ∧ t = { s with pending := es, inBuf := t.inBuf } ∧
      (∀ k, k < bs.length → t.inBuf.read (i.toNat + k) = bs[k]?) ∧
      ∀ j, j < i.toNat ∨ i.toNat + bs.length ≤ j → t.inBuf.read j = s.inBuf.read j

/-- R49: a read of any register or buffer, in any phase, changes nothing of the block. -/
def Obligations.ReadsHaveNoSideEffect : Prop :=
  ∀ (c : Config) (s : State) (t : Transaction) (a : Access) (es : List Event),
    s.pending = .access t :: es → t.dir = .read → decodeAccess t = .ok a →
    ∃ u, stepWith c s = .next u ∧ s.SameBlock u ∧ u.pending = es ∧ ∃ v, u.readLog = s.readLog ++ [v]

/-- R54, R113: while the engine works or the block is LOCKED, no admitted host access changes anything of the block. -/
def Obligations.NoAccessChangesABlockThatIsNotIdle : Prop :=
  ∀ (c : Config) (s : State) (t : Transaction) (a : Access) (es : List Event),
    s.pending = .access t :: es → s.phase ≠ .idle → decodeAccess t = .ok a →
    ∃ u, stepWith c s = .next u ∧ s.SameBlock u ∧ u.pending = es

/-- R55: after a completion, no host access but one that starts a command changes `STATUS`, `OUT_LEN`, `ERR_POS` or a
byte of `OUT_BUF`. -/
def Obligations.OutputStaysUntilTheNextStart : Prop :=
  ∀ (c : Config) (s u : State) (t : Transaction) (es : List Event),
    s.pending = .access t :: es → s.phase = .idle → stepWith c s = .next u →
    ¬(t.dir = .write ∧ t.addr.toNat = 0 ∧ t.data.getLsbD 0 = true) →
    u.status = s.status ∧ u.outLen = s.outLen ∧ u.errPos = s.errPos ∧ u.phase = .idle ∧
    ∀ k, u.outBuf.read k = s.outBuf.read k

/-- R114: while the engine works, `STATUS` reads 0x00000001, `OUT_LEN` and `ERR_POS` read 0, `CTRL` reads the started
`OP << 1` and `IN_LEN` reads `NL`; the premises are parts of the invariant (`InvariantIsKeptByEveryStep`). -/
def Obligations.ReadsWhileTheEngineWorks : Prop :=
  ∀ (c : Config) (s : State), s.Working → s.StatusConsistent → s.Latched →
    readRegister c s Reg.status.addr = 0x00000001#32 ∧ readRegister c s Reg.outLen.addr = 0#32 ∧
    readRegister c s Reg.errPos.addr = 0#32 ∧ readRegister c s Reg.ctrl.addr = s.opl.setWidth 32 <<< 1 ∧
    readRegister c s Reg.inLen.addr = s.nl.setWidth 32 ∧ ∀ i, i < c.outCap → readOutBuf c s i = none

/-! ## The encoder -/

/-- R66: how the accumulator is assembled and split, for ENCODE and for DECODE: by shifts, and field by field. -/
def Obligations.AccumulatorFields : Prop :=
  (∀ (b0 b1 b2 : Byte) (acc : Accum), acc = packBytes b0 b1 b2 →
    acc = (b0.setWidth 24 <<< 16) ||| (b1.setWidth 24 <<< 8) ||| b2.setWidth 24 ∧
    (∀ k, k < 4 → accSegment acc k = ((acc >>> (18 - 6 * k)) &&& 0x3F#24).setWidth 6) ∧
    accSegment acc 0 = acc.extractLsb' 18 6 ∧ accSegment acc 0 = b0.extractLsb' 2 6 ∧
    accSegment acc 1 = acc.extractLsb' 12 6 ∧ accSegment acc 1 = b0.extractLsb' 0 2 ++ b1.extractLsb' 4 4 ∧
    accSegment acc 2 = acc.extractLsb' 6 6 ∧ accSegment acc 2 = b1.extractLsb' 0 4 ++ b2.extractLsb' 6 2 ∧
    accSegment acc 3 = acc.extractLsb' 0 6 ∧ accSegment acc 3 = b2.extractLsb' 0 6) ∧
  ∀ (v0 v1 v2 v3 : Seg) (acc : Accum), acc = packSegments [v0, v1, v2, v3] →
    acc = (((((((0#24 <<< 6) + v0.setWidth 24) <<< 6) + v1.setWidth 24) <<< 6) + v2.setWidth 24) <<< 6) + v3.setWidth 24 ∧
    acc.extractLsb' 18 6 = v0 ∧ acc.extractLsb' 12 6 = v1 ∧ acc.extractLsb' 6 6 = v2 ∧ acc.extractLsb' 0 6 = v3 ∧
    accByte acc 0 = acc.extractLsb' 16 8 ∧ accByte acc 0 = v0 ++ v1.extractLsb' 4 2 ∧
    accByte acc 1 = acc.extractLsb' 8 8 ∧ accByte acc 1 = v1.extractLsb' 0 4 ++ v2.extractLsb' 2 4 ∧
    accByte acc 2 = acc.extractLsb' 0 8 ∧ accByte acc 2 = v2.extractLsb' 0 2 ++ v3

/-- R74, R75: the pad count of ENCODE is 0, 1 or 2 and completes the length to a multiple of 3; the group count is
`ceil(N / 3)`. -/
def Obligations.EncodePadAndGroupCounts : Prop :=
  ∀ n : Nat, (encodePads n).toNat ≤ 2 ∧ (n + (encodePads n).toNat) % 3 = 0 ∧
    padsOutOfRange (encodePads n) = false ∧
    encodeGroupCount n (encodePads n) = (n + 2) / 3 ∧ 3 * encodeGroupCount n (encodePads n) = n + (encodePads n).toNat

/-- R83: the guarantees of the encode transform, for every legal alphabet: it is total; the output length is
`4 * ceil(length / 3)`; the output is empty for length 0; there are at most 2 pad symbols, exactly the last `pads`
symbols of the output; every other symbol is an alphabet entry. -/
def Obligations.EncodeTransformGuarantees : Prop :=
  ∀ (c : Config) (bs : List Byte), c.alphabetLegal = true →
    ∃ out pads, encodeBytes c bs = .ok (out, pads) ∧
      out.length = 4 * ((bs.length + 2) / 3) ∧ out.length % 4 = 0 ∧ (bs = [] → out = []) ∧ pads.toNat ≤ 2 ∧
      pads.toNat ≤ out.length ∧
      (∀ k, out.length - pads.toNat ≤ k → k < out.length → out[k]? = some padCode) ∧
      ∀ k, k < out.length - pads.toNat → ∃ y, out[k]? = some y ∧ y ∈ c.alphabet ∧ y ≠ padCode

/-- R84: with one pad, the last alphabet symbol of an encoding has a segment value whose bits [1:0] are 0; with two
pads, one whose bits [3:0] are 0. -/
def Obligations.EncodeLastGroupIsCanonical : Prop :=
  ∀ (c : Config) (bs out : List Byte) (pads : BitVec 2), c.alphabetLegal = true →
    encodeBytes c bs = .ok (out, pads) →
    (pads = 1#2 → ∃ v : Seg, out[out.length - 2]? = some (c.symbol v) ∧ v.extractLsb' 0 2 = 0#2) ∧
    (pads = 2#2 → ∃ v : Seg, out[out.length - 3]? = some (c.symbol v) ∧ v.extractLsb' 0 4 = 0#4)

/-! ## The decoder -/

/-- R90: the classification of a symbol, its causes in their order; and so a group that ends at the final one passes
exactly in one of the forms `DDDD`, `DDD=` and `DD==`, and any other group exactly in the form `DDDD`. -/
def Obligations.SymbolsAreClassified : Prop :=
  (∀ (final i : Nat) (prev : Option RevEntry) (cur : RevEntry),
    (cur = .invalid → faultAt final i prev cur = some .symbolNotInAlphabet) ∧
    (cur = .padSym → i / 4 ≠ final → faultAt final i prev cur = some .padOutsideFinalGroup) ∧
    (cur = .padSym → i / 4 = final → i % 4 ≤ 1 → faultAt final i prev cur = some .padMisplacedInFinalGroup) ∧
    (cur = .padSym → i / 4 = final → 2 ≤ i % 4 → faultAt final i prev cur = none) ∧
    (∀ v, cur = .data v → faultAt final i prev cur =
      if i / 4 = final ∧ i % 4 = 3 ∧ prev = some .padSym then some .padMisplacedInFinalGroup else none)) ∧
  ∀ (final g : Nat) (e : Nat → RevEntry) (before : Option RevEntry),
    (∀ k, k < 4 → faultAt final (4 * g + k) (if k = 0 then before else some (e (k - 1))) (e k) = none) ↔
    ∃ n, (if g = final then 2 ≤ n else n = 4) ∧ n ≤ 4 ∧
      (∀ k, k < n → ∃ v, e k = .data v) ∧ ∀ k, n ≤ k → k < 4 → e k = .padSym

/-- R91, R129: the padding-validator reports the lowest position at fault, with the cause of R90 there, and only after
reading every position below it; it passes exactly when every position is read and none is at fault. -/
def Obligations.ScanReportsTheFirstFault : Prop :=
  ∀ (c : Config) (read : Nat → Option Byte) (final n : Nat),
    (∀ cause pos, scanFrom c read final n 0 = .bad cause pos ↔
      pos < n ∧
      (∃ code, read pos = some code ∧
        faultAt final pos ((read (pos - 1)).map c.rev) (c.rev code) = some cause) ∧
      ∀ j, j < pos → ∃ code, read j = some code ∧
        faultAt final j ((read (j - 1)).map c.rev) (c.rev code) = none) ∧
    (scanFrom c read final n 0 = .pass ↔
      ∀ j, j < n → ∃ code, read j = some code ∧
        faultAt final j ((read (j - 1)).map c.rev) (c.rev code) = none)

/-- R90, R87, R88: DECODE accepts exactly the strings whose length is a multiple of 4 and which are alphabet symbols
followed by at most two pad symbols, for every legal alphabet. -/
def Obligations.DecodeAcceptsExactlyPaddedStrings : Prop :=
  ∀ (c : Config) (codes : List Byte), c.alphabetLegal = true →
    ((∃ r, decodeSymbols c codes = .ok r) ↔
      codes.length % 4 = 0 ∧
      ∃ (data : List Byte) (p : Nat), p ≤ 2 ∧ codes = data ++ List.replicate p padCode ∧ ∀ y ∈ data, y ∈ c.alphabet)

/-- R92, R98, R100: a string DECODE accepts gives `3 * (length / 4) - pads` bytes, where `pads` is its number of pad
symbols and at most 2. -/
def Obligations.DecodeLengthLaw : Prop :=
  ∀ (c : Config) (codes out : List Byte) (pads : BitVec 2), decodeSymbols c codes = .ok (out, pads) →
    out.length = 3 * (codes.length / 4) - pads.toNat ∧ pads.toNat ≤ 2 ∧ pads.toNat = codes.count padCode

/-- R87, R92, R126: DECODE fails with cause 1 whenever the length is no multiple of 4, whatever the symbols are, and it
never fails with INVALID_INTERNAL_STATE or NOT_IMPLEMENTED. -/
def Obligations.DecodeRejectsOnlyInvalidParameters : Prop :=
  ∀ (c : Config) (codes : List Byte),
    (codes.length % 4 ≠ 0 → decodeSymbols c codes = .error (.invalidParameter .lengthNotMultipleOf4 0)) ∧
    ∀ e, decodeSymbols c codes = .error e → ∃ cause pos, e = .invalidParameter cause pos ∧
      (codes.length % 4 = 0 → cause.hasPosition = true ∧ pos < codes.length)

/-- R99: the bits DECODE discards do not matter: final groups that differ only in bits [3:0] of the second symbol before
two pads, or in bits [1:0] of the third before one pad, decode alike. -/
def Obligations.DiscardedBitsDoNotMatter : Prop :=
  ∀ (c : Config) (pre : List Byte) (v0 v1 w1 : Seg), c.alphabetLegal = true →
    (v1.extractLsb' 4 2 = w1.extractLsb' 4 2 →
      decodeSymbols c (pre ++ [c.symbol v0, c.symbol v1, padCode, padCode]) =
        decodeSymbols c (pre ++ [c.symbol v0, c.symbol w1, padCode, padCode])) ∧
    ∀ v2 w2 : Seg, v2.extractLsb' 2 4 = w2.extractLsb' 2 4 →
      decodeSymbols c (pre ++ [c.symbol v0, c.symbol v1, c.symbol v2, padCode]) =
        decodeSymbols c (pre ++ [c.symbol v0, c.symbol v1, c.symbol w2, padCode])

/-- R100: decoding the encoding of any byte sequence gives it back, with the same pad count, for every legal alphabet. -/
def Obligations.DecodeOfEncodeIsTheInput : Prop :=
  ∀ (c : Config) (bs out : List Byte) (pads : BitVec 2), c.alphabetLegal = true →
    encodeBytes c bs = .ok (out, pads) → decodeSymbols c out = .ok (bs, pads)

/-! ## Commands from START to completion -/

/-- R106, R116, R117: an ENCODE command of `bs` starts, works for exactly `1 + ceil(N / 3)` engine steps, and ends with
the functional form's output in `OUT_BUF` and `OUT_LEN`, its pad count in `STATUS`, and nothing else of the host's
changed.  The run has no host access in it; that accesses between the steps do not matter is
`InterleavedAccessesDoNotMatter`. -/
def Obligations.EncodeCommandRunsTheTransform : Prop :=
  ∀ (c : Config) (s : State) (bs : List Byte), c.capacityLegal = true → s.ReadyWith bs → bs.length ≤ c.inCap →
    ∃ (t u : State) (out : List Byte) (pads : BitVec 2),
      exec .encode s = .next t ∧ encodeBytes c bs = .ok (out, pads) ∧
      (∀ k, k ≤ (bs.length + 2) / 3 → ∃ v : State, (machineOf c).run k t = .next v ∧ v.Working) ∧
      (machineOf c).run (1 + (bs.length + 2) / 3) t = .next u ∧
      u.phase = .idle ∧ u.status.word = 0x00000002#32 ||| (pads.setWidth 32 <<< 8) ∧ u.errPos = 0#17 ∧
      u.OutputIs out ∧ u.ctrlOp = 0#2 ∧ s.CommandFrame u out.length

/-- R107, R116, R117: a DECODE command of a string the functional form accepts starts, works for exactly `1 + N / 4`
engine steps, and ends with the functional form's output and pad count, and nothing else of the host's changed.  The run
has no host access in it; that accesses between the steps do not matter is `InterleavedAccessesDoNotMatter`. -/
def Obligations.DecodeCommandRunsTheTransform : Prop :=
  ∀ (c : Config) (s : State) (codes out : List Byte) (pads : BitVec 2),
    c.capacityLegal = true → s.ReadyWith codes → codes.length ≤ c.inCap →
    decodeSymbols c codes = .ok (out, pads) →
    ∃ t u : State, exec .decode s = .next t ∧
      (∀ k, k ≤ codes.length / 4 → ∃ v : State, (machineOf c).run k t = .next v ∧ v.Working) ∧
      (machineOf c).run (1 + codes.length / 4) t = .next u ∧
      u.phase = .idle ∧ u.status.word = 0x00000002#32 ||| (pads.setWidth 32 <<< 8) ∧ u.errPos = 0#17 ∧
      u.OutputIs out ∧ u.ctrlOp = 1#2 ∧ s.CommandFrame u out.length

/-- R107, R117, R123, R127, R128: a DECODE command of a string the functional form rejects ends in one engine step with
the cause in `STATUS`, the position at fault in `ERR_POS` for causes 2 to 4 and 0 otherwise, `OUT_LEN = 0`, and no byte
of `OUT_BUF` changed. -/
def Obligations.DecodeCommandReportsTheError : Prop :=
  ∀ (c : Config) (s : State) (codes : List Byte) (cause : Cause) (pos : Nat),
    c.capacityLegal = true → s.ReadyWith codes → codes.length ≤ c.inCap →
    decodeSymbols c codes = .error (.invalidParameter cause pos) →
    ∃ t u : State, exec .decode s = .next t ∧ (machineOf c).run 1 t = .next u ∧
      u.phase = .idle ∧ u.status.word = 0x00000006#32 ||| (cause.code.setWidth 32 <<< 4) ∧
      u.errPos.toNat = (if cause.hasPosition then pos else 0) ∧ u.outLen = 0#17 ∧ s.CommandFrame u 0

/-- R108, R125: RSVD2 and RSVD3 start like any command and end in one engine step with `STATUS = 0x0000000E`,
`OUT_LEN = 0` and `ERR_POS = 0`, whatever `IN_LEN` and `IN_BUF` hold. -/
def Obligations.ReservedCommandsEndNotImplemented : Prop :=
  ∀ (c : Config) (s : State), s.phase = .idle → s.pending = [] →
    ∀ p ∈ [(Instr.rsvd2, 2#2), (Instr.rsvd3, 3#2)],
      ∃ t u : State, exec p.1 s = .next t ∧ (machineOf c).run 1 t = .next u ∧
        u.status.word = 0x0000000E#32 ∧ u.outLen = 0#17 ∧ u.errPos = 0#17 ∧ u.phase = .idle ∧ u.ctrlOp = p.2 ∧
        s.CommandFrame u 0

/-- R124 cause 5, R129: an ENCODE or DECODE longer than `IN_CAP` ends in one engine step with `STATUS = 0x00000056`,
before any other check and without reading a byte. -/
def Obligations.TooLongCommandsEndWithCause5 : Prop :=
  ∀ (c : Config) (s : State), s.phase = .idle → s.pending = [] → c.inCap < s.inLen.toNat →
    ∀ i ∈ [Instr.encode, Instr.decode],
      ∃ t u : State, exec i s = .next t ∧ (machineOf c).run 1 t = .next u ∧
        u.status.word = 0x00000056#32 ∧ u.outLen = 0#17 ∧ u.errPos = 0#17 ∧ u.phase = .idle ∧ s.CommandFrame u 0

/-- R87: a DECODE whose length is no multiple of 4 ends in one engine step with `STATUS = 0x00000016` and `ERR_POS = 0`,
before any symbol is read: no cell of `IN_BUF` need be written. -/
def Obligations.DecodeOfMalformedLengthEndsWithCause1 : Prop :=
  ∀ (c : Config) (s : State), s.phase = .idle → s.pending = [] →
    s.inLen.toNat ≤ c.inCap → s.inLen.toNat % 4 ≠ 0 →
    ∃ t u : State, exec .decode s = .next t ∧ (machineOf c).run 1 t = .next u ∧
      u.status.word = 0x00000016#32 ∧ u.outLen = 0#17 ∧ u.errPos = 0#17 ∧ u.phase = .idle ∧ s.CommandFrame u 0

/-- R88: with `N = 0` the command succeeds with no output in one engine step, and no symbol is read: no cell of `IN_BUF`
need be written.  It holds of ENCODE too (R106). -/
def Obligations.EmptyCommandsSucceed : Prop :=
  ∀ (c : Config) (s : State), s.phase = .idle → s.pending = [] → s.inLen = 0#17 →
    ∀ i ∈ [Instr.encode, Instr.decode],
      ∃ t u : State, exec i s = .next t ∧ (machineOf c).run 1 t = .next u ∧
        u.status.word = 0x00000002#32 ∧ u.outLen = 0#17 ∧ u.errPos = 0#17 ∧ u.phase = .idle ∧ s.CommandFrame u 0

/-- R100, R149: through the block, when the encoding fits `IN_BUF`: a block that holds what an ENCODE of `bs` left in
`OUT_BUF` as the operands of a DECODE gives `bs` back. -/
def Obligations.RoundTripThroughTheBlock : Prop :=
  ∀ (c : Config) (s t u s' : State) (bs out : List Byte),
    c.capacityLegal = true → c.alphabetLegal = true → s.ReadyWith bs → 4 * ((bs.length + 2) / 3) ≤ c.inCap →
    exec .encode s = .next t → (machineOf c).run (1 + (bs.length + 2) / 3) t = .next u →
    u.OutputIs out → s'.ReadyWith out →
    ∃ t' u' : State, exec .decode s' = .next t' ∧ (machineOf c).run (1 + out.length / 4) t' = .next u' ∧
      u'.phase = .idle ∧ u'.status.err = .none ∧ u'.OutputIs bs

/-- R36: the outcome of a command depends only on its operands.  Two idle blocks of one configuration with the same
`IN_LEN` and the same `IN_BUF` bytes below it, whatever else they hold, go through a command in step: after any number
of engine steps both stop with a fault, or both are in the same phase with the same `STATUS`, `OUT_LEN`, `ERR_POS` and
output bytes. -/
def Obligations.OutcomeDependsOnlyOnTheOperands : Prop :=
  ∀ (c : Config) (s s' t t' : State) (i : Instr) (n : Nat),
    s.phase = .idle → s'.phase = .idle → s.pending = [] → s'.pending = [] → s.inLen = s'.inLen →
    (∀ k, k < s.inLen.toNat → s.inBuf.read k = s'.inBuf.read k) → (∀ op, i ≠ .setop op) →
    exec i s = .next t → exec i s' = .next t' →
    match (machineOf c).run n t, (machineOf c).run n t' with
    | .next (u : State), .next (u' : State) => u.phase = u'.phase ∧ u.status = u'.status ∧ u.outLen = u'.outLen ∧
        u.errPos = u'.errPos ∧ ∀ k, k < u.outLen.toNat → u.outBuf.read k = u'.outBuf.read k
    | .fault f, .fault f' => f = f'
    | _, _ => False

/-- R48, R53: the engine's step depends on the block alone, not on the events to come, the values the host has read or
the draws made: from two states of one block it answers two states of one block, or the same fault, and it leaves those
three as they were. -/
def Obligations.EngineStepDependsOnTheBlockAlone : Prop :=
  ∀ (c : Config) (s s' : State), s.SameBlock s' →
    match engineStep c s, engineStep c s' with
    | .next t, .next t' =>
      t.SameBlock t' ∧ t.pending = s.pending ∧ t.readLog = s.readLog ∧ t.draws = s.draws
    | .fault f, .fault f' => f = f'
    | _, _ => False

/-- R116, R53, R113: host accesses between the engine's steps do not matter.  A command in progress, with any admitted
accesses (reads and writes, a START among them) before and between its next engine steps, comes to the same block, or to
the same fault, as with those engine steps alone, up to and with the step that completes it: the premise is that the
engine still works at each of the steps before the last. -/
def Obligations.InterleavedAccessesDoNotMatter : Prop :=
  ∀ (c : Config) (s : State) (fs es : List Event),
    (∀ e ∈ fs, e = .engine ∨ ∃ t a, e = .access t ∧ decodeAccess t = .ok a) →
    s.pending = fs ++ .engine :: es →
    (∀ k, k ≤ fs.count .engine → ∃ v : State, (machineOf c).run k (s.setPending []) = .next v ∧ v.Working) →
    match (machineOf c).run (fs.length + 1) s, (machineOf c).run (fs.count .engine + 1) (s.setPending []) with
    | .next (u : State), .next (u' : State) => u'.SameBlock u ∧ u.pending = es
    | .fault f, .fault f' => f = f'
    | _, _ => False

/-! ## The engine's steps -/

/-- R109, R115: with its input written, the engine of a block that meets the invariant is never stuck while it works:
its step answers a next state, in which `GIDX` has moved on by one group, RUN has begun, or the command is over.  In
IDLE and LOCKED it has no step and nothing of the block changes. -/
def Obligations.EngineIsNeverStuck : Prop :=
  ∀ (c : Config) (s : State), c.capacityLegal = true →
    (s.Inv c → s.InputWritten → s.Working → ∃ t, engineStep c s = .next t ∧
      ((s.phase = .check ∧ t.phase = .run ∧ t.gidx = 0#17) ∨
       (s.phase = .run ∧ t.phase = .run ∧ t.gidx.toNat = s.gidx.toNat + 1) ∨
       (t.phase = .idle ∧ t.status.done = true))) ∧
    (s.phase = .idle ∨ s.phase = .locked → engineStep c s = .next s)

/-- R117: with nothing more from the host, every command whose input is written ends, in at most `1 + 21846` engine
steps: from every state that meets the invariant. -/
def Obligations.EveryCommandEnds : Prop :=
  ∀ (c : Config) (s : State), c.capacityLegal = true → s.Inv c → s.InputWritten → s.pending = [] →
    ∃ (n : Nat) (t : State), n ≤ 21847 ∧ (machineOf c).run n s = .next t ∧ t.ended = true

/-- R115, R129: a step faults exactly where the engine reads an `IN_BUF` cell that nothing has written.  Only the
engine's step can fault, in CHECK or RUN.  A CHECK step faults exactly where the scan of DECODE, with the dispatch checks
passed, comes to an unwritten cell: every position below it is read and not at fault.  A RUN step of ENCODE faults exactly
when a byte of its group below `NL` is unwritten, and a RUN step of DECODE when a symbol of its group is.  In a block that
meets the invariant the cell's index is below `NL`, and a RUN step of DECODE never faults, since the scan has read its
symbols (R61). -/
def Obligations.FaultsOnlyOnUnwrittenInput : Prop :=
  ∀ (c : Config) (s : State),
    (∀ f, stepWith c s = .fault f → s.Working ∧ engineStep c s = .fault f ∧
      (s.pending = [] ∨ ∃ es, s.pending = .engine :: es) ∧
      (s.Inv c → ∃ i, i < s.nl.toNat ∧ s.inBuf.read i = none)) ∧
    (s.phase = .check → (engineStep c s = .fault .uninitInput ↔
      s.opl = 1#2 ∧ s.nl.toNat ≤ c.inCap ∧ s.nl.toNat % 4 = 0 ∧
      ∃ i, i < s.nl.toNat ∧ s.inBuf.read i = none ∧
        ∀ j, j < i → ∃ code, s.inBuf.read j = some code ∧
          faultAt (s.nl.toNat / 4 - 1) j ((s.inBuf.read (j - 1)).map c.rev) (c.rev code) = none)) ∧
    (s.phase = .run → s.opl = 0#2 → (engineStep c s = .fault .uninitInput ↔
      ∃ j, j < 3 ∧ 3 * s.gidx.toNat + j < s.nl.toNat ∧ s.inBuf.read (3 * s.gidx.toNat + j) = none)) ∧
    (s.phase = .run → s.opl ≠ 0#2 → (engineStep c s = .fault .uninitInput ↔
      ∃ k, k < 4 ∧ s.inBuf.read (4 * s.gidx.toNat + k) = none)) ∧
    (s.Inv c → s.phase = .run → s.opl = 1#2 → ∃ t, engineStep c s = .next t)

/-- R110, R129: the CHECK step's errors in their order of priority, for any `OPL` and `NL`: NOT_IMPLEMENTED, then
cause 5, then, for DECODE, cause 1. -/
def Obligations.CheckErrorsInOrderOfPriority : Prop :=
  ∀ (c : Config) (s : State), s.phase = .check →
    (2 ≤ s.opl.toNat → ∃ t, engineStep c s = .next t ∧ t.status.word = 0x0000000E#32) ∧
    (s.opl.toNat < 2 → c.inCap < s.nl.toNat → ∃ t, engineStep c s = .next t ∧ t.status.word = 0x00000056#32) ∧
    (s.opl = 1#2 → s.nl.toNat ≤ c.inCap → s.nl.toNat % 4 ≠ 0 →
      ∃ t, engineStep c s = .next t ∧ t.status.word = 0x00000016#32)

/-- R127, R128: errors are precise.  A CHECK step writes no byte of either buffer; one that ends in an error changes
nothing but `STATUS`, `OUT_LEN`, `ERR_POS` and `PHASE`, with `BUSY` 0, `DONE` 1, `PADS` 0 and `OUT_LEN` 0.  The premise
that `STATUS` is consistent is an invariant (`StatusStaysConsistent`): without it `STATUS` could show an old error.  That `NG` and
`PADS_I` keep their values on an error is R128 against the order of R110 (log 10). -/
def Obligations.ErrorsArePrecise : Prop :=
  ∀ (c : Config) (s t : State), s.StatusConsistent → s.phase = .check → engineStep c s = .next t →
    (∀ k, t.outBuf.read k = s.outBuf.read k) ∧ (∀ k, t.inBuf.read k = s.inBuf.read k) ∧
    (t.status.err ≠ .none →
      t = { s with status := t.status, outLen := 0#17, errPos := t.errPos, phase := t.phase } ∧
      t.status.busy = false ∧ t.status.done = true ∧ t.status.pads = 0#2 ∧
      (t.phase = .locked ↔ t.status.err = .invalidInternalState) ∧ (t.phase ≠ .locked → t.phase = .idle))

/-- R111: a RUN step of ENCODE, group `g = GIDX`, with its input bytes `b 0`, `b 1`, `b 2` (written below `NL`, 0 from
`NL` on): the four symbols of the accumulator `(b 0 << 16) | (b 1 << 8) | b 2` go to `OUT_BUF[4g .. 4g+3]`, pad symbols
in place of the last `PADS_I` of the last group; no other byte of `OUT_BUF` changes; `GIDX` moves on by one, and the
command completes after its last group. -/
def Obligations.EncodeGroupStep : Prop :=
  ∀ (c : Config) (s : State) (b : Nat → Byte), s.phase = .run → s.opl = 0#2 → s.gidx.toNat < s.ng.toNat →
    (∀ j, j < 3 → (3 * s.gidx.toNat + j < s.nl.toNat → s.inBuf.read (3 * s.gidx.toNat + j) = some (b j)) ∧
      (s.nl.toNat ≤ 3 * s.gidx.toNat + j → b j = 0#8)) →
    ∃ t, engineStep c s = .next t ∧
      t.acc.toNat = 65536 * (b 0).toNat + 256 * (b 1).toNat + (b 2).toNat ∧
      (∀ k, k < 4 → t.outBuf.read (4 * s.gidx.toNat + k) = some
        (if s.gidx.toNat + 1 = s.ng.toNat ∧ 4 - s.padsI.toNat ≤ k then padCode
         else c.symbol (BitVec.ofNat 6 (t.acc.toNat / 2 ^ (18 - 6 * k))))) ∧
      (∀ a, a < 4 * s.gidx.toNat ∨ 4 * s.gidx.toNat + 4 ≤ a → t.outBuf.read a = s.outBuf.read a) ∧
      (∀ a, t.inBuf.read a = s.inBuf.read a) ∧ t.gidx.toNat = s.gidx.toNat + 1 ∧
      (s.gidx.toNat + 1 < s.ng.toNat → t = { s with acc := t.acc, outBuf := t.outBuf, gidx := t.gidx }) ∧
      (s.gidx.toNat + 1 = s.ng.toNat → t = { s with
        acc := t.acc, outBuf := t.outBuf, gidx := t.gidx, phase := .idle, errPos := 0#17
        outLen := BitVec.ofNat 17 (4 * s.ng.toNat), status := ⟨false, true, .none, .none, s.padsI⟩ })

/-- R111: a RUN step of DECODE, group `g = GIDX`, with its symbols `y 0` to `y 3`, each an alphabet symbol or the pad,
of values `v k`: the bytes of the accumulator assembled from the values go to `OUT_BUF[3g ..]`, 3 of them, or
`3 - PADS_I` in the last group; no other byte of `OUT_BUF` changes; `GIDX` moves on by one, and the command completes
after its last group. -/
def Obligations.DecodeGroupStep : Prop :=
  ∀ (c : Config) (s : State) (y : Nat → Byte) (v : Nat → Seg), s.phase = .run → s.opl ≠ 0#2 →
    s.gidx.toNat < s.ng.toNat →
    (∀ k, k < 4 → s.inBuf.read (4 * s.gidx.toNat + k) = some (y k) ∧
      (c.rev (y k) = .data (v k) ∨ (c.rev (y k) = .padSym ∧ v k = 0#6))) →
    ∃ t, engineStep c s = .next t ∧
      t.acc.toNat = 262144 * (v 0).toNat + 4096 * (v 1).toNat + 64 * (v 2).toNat + (v 3).toNat ∧
      (∀ j, j < 3 → t.outBuf.read (3 * s.gidx.toNat + j) =
        (if s.gidx.toNat + 1 = s.ng.toNat ∧ 3 - s.padsI.toNat ≤ j then s.outBuf.read (3 * s.gidx.toNat + j)
         else some (BitVec.ofNat 8 (t.acc.toNat / 2 ^ (16 - 8 * j))))) ∧
      (∀ a, a < 3 * s.gidx.toNat ∨ 3 * s.gidx.toNat + 3 ≤ a → t.outBuf.read a = s.outBuf.read a) ∧
      (∀ a, t.inBuf.read a = s.inBuf.read a) ∧ t.gidx.toNat = s.gidx.toNat + 1 ∧
      (s.gidx.toNat + 1 < s.ng.toNat → t = { s with acc := t.acc, outBuf := t.outBuf, gidx := t.gidx }) ∧
      (s.gidx.toNat + 1 = s.ng.toNat → t = { s with
        acc := t.acc, outBuf := t.outBuf, gidx := t.gidx, phase := .idle, errPos := 0#17
        outLen := BitVec.ofNat 17 (3 * s.ng.toNat - s.padsI.toNat), status := ⟨false, true, .none, .none, s.padsI⟩ })

/-! ## Invariants and whole-machine rules -/

/-- The invariant of the block holds at reset (R38, R140), for every configuration. -/
def Obligations.InvariantHoldsAtReset : Prop := ∀ c : Config, State.reset.Inv c

/-- Every step keeps the invariant of the block: buffers in the model's own form (log 13) and within their capacities, `STATUS` consistent with
`PHASE` (R26, R103, R122, R123, R126), the operands of a running command frozen (R113), never LOCKED (R126), and every
output byte the host is offered written (R55). -/
def Obligations.InvariantIsKeptByEveryStep : Prop :=
  ∀ s t : State, s.Inv Config.device → step s = .next t → t.Inv Config.device

/-- Every step keeps both buffers in canonical form, from any state in that form and for any configuration.  The form, a
list of the written cells with strictly rising indices, is the model's own choice for the buffers of R34 and R35 (log 13):
no rule of the spec states it. -/
def Obligations.BuffersStayCanonical : Prop :=
  ∀ (c : Config) (s t : State), s.BuffersCanonical → stepWith c s = .next t → t.BuffersCanonical

/-- Every step keeps `STATUS`, `OUT_LEN`, `ERR_POS` and `PHASE` consistent (R26, R29, R103, R122, R123, R126, R127),
from any state in which they are, LOCKED states among them. -/
def Obligations.StatusStaysConsistent : Prop :=
  ∀ s t : State, s.StatusConsistent → step s = .next t → t.StatusConsistent

/-- R126: INVALID_INTERNAL_STATE is unreachable: from any state, no step raises it and none enters LOCKED. -/
def Obligations.InternalStateErrorIsNeverRaised : Prop :=
  ∀ (c : Config) (s t : State), stepWith c s = .next t →
    (s.phase ≠ .locked → t.phase ≠ .locked) ∧
    (s.status.err ≠ .invalidInternalState → t.status.err ≠ .invalidInternalState)

/-- R103, R126, R130: a LOCKED block is left by reset only: every other step leaves all of the block as it is.  That a
LOCKED block ignores host writes to `IN_BUF` and `IN_LEN` too is R113, which the model follows against R27 and R42; that
is the model's choice (log 9). -/
def Obligations.LockedIsLeftOnlyByReset : Prop :=
  ∀ (c : Config) (s t : State), s.phase = .locked → stepWith c s = .next t →
    (∀ es, s.pending ≠ .reset :: es) → s.SameBlock t

/-- R26, R38, R122, R123: every `STATUS` value the block can show, in any state that meets the invariant: one of those
the spec lists where a command has completed, 1 while the engine works, and the reset value 0 where neither holds. -/
def Obligations.StatusReadsAsOneOfTheListedValues : Prop :=
  ∀ (c : Config) (s : State), s.Inv c →
    (s.status.done = true → s.status.word ∈
      [0x002#32, 0x102#32, 0x202#32, 0x016#32, 0x026#32, 0x036#32, 0x046#32, 0x056#32, 0x00E#32]) ∧
    (s.Working → s.status.word = 0x001#32) ∧
    (¬s.Working → s.status.done = false → s.status.word = 0x000#32)
end

