-- ==== Sys2Proof/Laws/State.lean ====
section
/-! SUPPORT. One lemma per field per update of the state, so that no later proof unfolds a record update. -/

namespace Sys2Proof.Machine

section outWrite

@[simp] theorem State.outWrite_ctrlOp (s : State) (i : Nat) (bs : List Byte) : (s.outWrite i bs).ctrlOp = s.ctrlOp := rfl

@[simp] theorem State.outWrite_status (s : State) (i : Nat) (bs : List Byte) : (s.outWrite i bs).status = s.status := rfl

@[simp] theorem State.outWrite_inLen (s : State) (i : Nat) (bs : List Byte) : (s.outWrite i bs).inLen = s.inLen := rfl

@[simp] theorem State.outWrite_outLen (s : State) (i : Nat) (bs : List Byte) : (s.outWrite i bs).outLen = s.outLen := rfl

@[simp] theorem State.outWrite_errPos (s : State) (i : Nat) (bs : List Byte) : (s.outWrite i bs).errPos = s.errPos := rfl

@[simp] theorem State.outWrite_phase (s : State) (i : Nat) (bs : List Byte) : (s.outWrite i bs).phase = s.phase := rfl

@[simp] theorem State.outWrite_opl (s : State) (i : Nat) (bs : List Byte) : (s.outWrite i bs).opl = s.opl := rfl

@[simp] theorem State.outWrite_nl (s : State) (i : Nat) (bs : List Byte) : (s.outWrite i bs).nl = s.nl := rfl

@[simp] theorem State.outWrite_ng (s : State) (i : Nat) (bs : List Byte) : (s.outWrite i bs).ng = s.ng := rfl

@[simp] theorem State.outWrite_padsI (s : State) (i : Nat) (bs : List Byte) : (s.outWrite i bs).padsI = s.padsI := rfl

@[simp] theorem State.outWrite_gidx (s : State) (i : Nat) (bs : List Byte) : (s.outWrite i bs).gidx = s.gidx := rfl

@[simp] theorem State.outWrite_acc (s : State) (i : Nat) (bs : List Byte) : (s.outWrite i bs).acc = s.acc := rfl

@[simp] theorem State.outWrite_inBuf (s : State) (i : Nat) (bs : List Byte) : (s.outWrite i bs).inBuf = s.inBuf := rfl

@[simp] theorem State.outWrite_outBuf (s : State) (i : Nat) (bs : List Byte) : (s.outWrite i bs).outBuf = s.outBuf.writeFrom i bs := rfl

@[simp] theorem State.outWrite_pending (s : State) (i : Nat) (bs : List Byte) : (s.outWrite i bs).pending = s.pending := rfl

@[simp] theorem State.outWrite_readLog (s : State) (i : Nat) (bs : List Byte) : (s.outWrite i bs).readLog = s.readLog := rfl

@[simp] theorem State.outWrite_draws (s : State) (i : Nat) (bs : List Byte) : (s.outWrite i bs).draws = s.draws := rfl

end outWrite

section raise

@[simp] theorem State.raise_ctrlOp (s : State) (e : EngineError) : (s.raise e).ctrlOp = s.ctrlOp := rfl

@[simp] theorem State.raise_status (s : State) (e : EngineError) : (s.raise e).status = Status.failed e := rfl

@[simp] theorem State.raise_inLen (s : State) (e : EngineError) : (s.raise e).inLen = s.inLen := rfl

@[simp] theorem State.raise_outLen (s : State) (e : EngineError) : (s.raise e).outLen = 0#17 := rfl

@[simp] theorem State.raise_errPos (s : State) (e : EngineError) : (s.raise e).errPos = e.position := rfl

@[simp] theorem State.raise_phase (s : State) (e : EngineError) : (s.raise e).phase = e.phaseAfter := rfl

@[simp] theorem State.raise_opl (s : State) (e : EngineError) : (s.raise e).opl = s.opl := rfl

@[simp] theorem State.raise_nl (s : State) (e : EngineError) : (s.raise e).nl = s.nl := rfl

@[simp] theorem State.raise_ng (s : State) (e : EngineError) : (s.raise e).ng = s.ng := rfl

@[simp] theorem State.raise_padsI (s : State) (e : EngineError) : (s.raise e).padsI = s.padsI := rfl

@[simp] theorem State.raise_gidx (s : State) (e : EngineError) : (s.raise e).gidx = s.gidx := rfl

@[simp] theorem State.raise_acc (s : State) (e : EngineError) : (s.raise e).acc = s.acc := rfl

@[simp] theorem State.raise_inBuf (s : State) (e : EngineError) : (s.raise e).inBuf = s.inBuf := rfl

@[simp] theorem State.raise_outBuf (s : State) (e : EngineError) : (s.raise e).outBuf = s.outBuf := rfl

@[simp] theorem State.raise_pending (s : State) (e : EngineError) : (s.raise e).pending = s.pending := rfl

@[simp] theorem State.raise_readLog (s : State) (e : EngineError) : (s.raise e).readLog = s.readLog := rfl

@[simp] theorem State.raise_draws (s : State) (e : EngineError) : (s.raise e).draws = s.draws := rfl

end raise

section complete

@[simp] theorem State.complete_ctrlOp (s : State) : (s.complete).ctrlOp = s.ctrlOp := rfl

@[simp] theorem State.complete_status (s : State) : (s.complete).status = Status.success s.padsI := rfl

@[simp] theorem State.complete_inLen (s : State) : (s.complete).inLen = s.inLen := rfl

@[simp] theorem State.complete_outLen (s : State) : (s.complete).outLen = BitVec.ofNat 17 s.outputLength := rfl

@[simp] theorem State.complete_errPos (s : State) : (s.complete).errPos = 0#17 := rfl

@[simp] theorem State.complete_phase (s : State) : (s.complete).phase = .idle := rfl

@[simp] theorem State.complete_opl (s : State) : (s.complete).opl = s.opl := rfl

@[simp] theorem State.complete_nl (s : State) : (s.complete).nl = s.nl := rfl

@[simp] theorem State.complete_ng (s : State) : (s.complete).ng = s.ng := rfl

@[simp] theorem State.complete_padsI (s : State) : (s.complete).padsI = s.padsI := rfl

@[simp] theorem State.complete_gidx (s : State) : (s.complete).gidx = s.gidx := rfl

@[simp] theorem State.complete_acc (s : State) : (s.complete).acc = s.acc := rfl

@[simp] theorem State.complete_inBuf (s : State) : (s.complete).inBuf = s.inBuf := rfl

@[simp] theorem State.complete_outBuf (s : State) : (s.complete).outBuf = s.outBuf := rfl

@[simp] theorem State.complete_pending (s : State) : (s.complete).pending = s.pending := rfl

@[simp] theorem State.complete_readLog (s : State) : (s.complete).readLog = s.readLog := rfl

@[simp] theorem State.complete_draws (s : State) : (s.complete).draws = s.draws := rfl

end complete

section observe

@[simp] theorem State.observe_ctrlOp (s : State) (w : Word) : (s.observe w).ctrlOp = s.ctrlOp := rfl

@[simp] theorem State.observe_status (s : State) (w : Word) : (s.observe w).status = s.status := rfl

@[simp] theorem State.observe_inLen (s : State) (w : Word) : (s.observe w).inLen = s.inLen := rfl

@[simp] theorem State.observe_outLen (s : State) (w : Word) : (s.observe w).outLen = s.outLen := rfl

@[simp] theorem State.observe_errPos (s : State) (w : Word) : (s.observe w).errPos = s.errPos := rfl

@[simp] theorem State.observe_phase (s : State) (w : Word) : (s.observe w).phase = s.phase := rfl

@[simp] theorem State.observe_opl (s : State) (w : Word) : (s.observe w).opl = s.opl := rfl

@[simp] theorem State.observe_nl (s : State) (w : Word) : (s.observe w).nl = s.nl := rfl

@[simp] theorem State.observe_ng (s : State) (w : Word) : (s.observe w).ng = s.ng := rfl

@[simp] theorem State.observe_padsI (s : State) (w : Word) : (s.observe w).padsI = s.padsI := rfl

@[simp] theorem State.observe_gidx (s : State) (w : Word) : (s.observe w).gidx = s.gidx := rfl

@[simp] theorem State.observe_acc (s : State) (w : Word) : (s.observe w).acc = s.acc := rfl

@[simp] theorem State.observe_inBuf (s : State) (w : Word) : (s.observe w).inBuf = s.inBuf := rfl

@[simp] theorem State.observe_outBuf (s : State) (w : Word) : (s.observe w).outBuf = s.outBuf := rfl

@[simp] theorem State.observe_pending (s : State) (w : Word) : (s.observe w).pending = s.pending := rfl

@[simp] theorem State.observe_readLog (s : State) (w : Word) : (s.observe w).readLog = s.readLog ++ [w] := rfl

@[simp] theorem State.observe_draws (s : State) (w : Word) : (s.observe w).draws = s.draws := rfl

end observe

section setPending

@[simp] theorem State.setPending_ctrlOp (s : State) (es : List Event) : (s.setPending es).ctrlOp = s.ctrlOp := rfl

@[simp] theorem State.setPending_status (s : State) (es : List Event) : (s.setPending es).status = s.status := rfl

@[simp] theorem State.setPending_inLen (s : State) (es : List Event) : (s.setPending es).inLen = s.inLen := rfl

@[simp] theorem State.setPending_outLen (s : State) (es : List Event) : (s.setPending es).outLen = s.outLen := rfl

@[simp] theorem State.setPending_errPos (s : State) (es : List Event) : (s.setPending es).errPos = s.errPos := rfl

@[simp] theorem State.setPending_phase (s : State) (es : List Event) : (s.setPending es).phase = s.phase := rfl

@[simp] theorem State.setPending_opl (s : State) (es : List Event) : (s.setPending es).opl = s.opl := rfl

@[simp] theorem State.setPending_nl (s : State) (es : List Event) : (s.setPending es).nl = s.nl := rfl

@[simp] theorem State.setPending_ng (s : State) (es : List Event) : (s.setPending es).ng = s.ng := rfl

@[simp] theorem State.setPending_padsI (s : State) (es : List Event) : (s.setPending es).padsI = s.padsI := rfl

@[simp] theorem State.setPending_gidx (s : State) (es : List Event) : (s.setPending es).gidx = s.gidx := rfl

@[simp] theorem State.setPending_acc (s : State) (es : List Event) : (s.setPending es).acc = s.acc := rfl

@[simp] theorem State.setPending_inBuf (s : State) (es : List Event) : (s.setPending es).inBuf = s.inBuf := rfl

@[simp] theorem State.setPending_outBuf (s : State) (es : List Event) : (s.setPending es).outBuf = s.outBuf := rfl

@[simp] theorem State.setPending_pending (s : State) (es : List Event) : (s.setPending es).pending = es := rfl

@[simp] theorem State.setPending_readLog (s : State) (es : List Event) : (s.setPending es).readLog = s.readLog := rfl

@[simp] theorem State.setPending_draws (s : State) (es : List Event) : (s.setPending es).draws = s.draws := rfl

end setPending

section resetBlock

@[simp] theorem State.resetBlock_ctrlOp (s : State) : (s.resetBlock).ctrlOp = State.reset.ctrlOp := rfl

@[simp] theorem State.resetBlock_status (s : State) : (s.resetBlock).status = State.reset.status := rfl

@[simp] theorem State.resetBlock_inLen (s : State) : (s.resetBlock).inLen = State.reset.inLen := rfl

@[simp] theorem State.resetBlock_outLen (s : State) : (s.resetBlock).outLen = State.reset.outLen := rfl

@[simp] theorem State.resetBlock_errPos (s : State) : (s.resetBlock).errPos = State.reset.errPos := rfl

@[simp] theorem State.resetBlock_phase (s : State) : (s.resetBlock).phase = State.reset.phase := rfl

@[simp] theorem State.resetBlock_opl (s : State) : (s.resetBlock).opl = State.reset.opl := rfl

@[simp] theorem State.resetBlock_nl (s : State) : (s.resetBlock).nl = State.reset.nl := rfl

@[simp] theorem State.resetBlock_ng (s : State) : (s.resetBlock).ng = State.reset.ng := rfl

@[simp] theorem State.resetBlock_padsI (s : State) : (s.resetBlock).padsI = State.reset.padsI := rfl

@[simp] theorem State.resetBlock_gidx (s : State) : (s.resetBlock).gidx = State.reset.gidx := rfl

@[simp] theorem State.resetBlock_acc (s : State) : (s.resetBlock).acc = State.reset.acc := rfl

@[simp] theorem State.resetBlock_inBuf (s : State) : (s.resetBlock).inBuf = State.reset.inBuf := rfl

@[simp] theorem State.resetBlock_outBuf (s : State) : (s.resetBlock).outBuf = State.reset.outBuf := rfl

@[simp] theorem State.resetBlock_pending (s : State) : (s.resetBlock).pending = s.pending := rfl

@[simp] theorem State.resetBlock_readLog (s : State) : (s.resetBlock).readLog = s.readLog := rfl

@[simp] theorem State.resetBlock_draws (s : State) : (s.resetBlock).draws = s.draws := rfl

end resetBlock

section observeByte

@[simp] theorem State.observeByte_ctrlOp (s : State) (b : Option Byte) : (s.observeByte b).ctrlOp = s.ctrlOp := by cases b <;> rfl

@[simp] theorem State.observeByte_status (s : State) (b : Option Byte) : (s.observeByte b).status = s.status := by cases b <;> rfl

@[simp] theorem State.observeByte_inLen (s : State) (b : Option Byte) : (s.observeByte b).inLen = s.inLen := by cases b <;> rfl

@[simp] theorem State.observeByte_outLen (s : State) (b : Option Byte) : (s.observeByte b).outLen = s.outLen := by cases b <;> rfl

@[simp] theorem State.observeByte_errPos (s : State) (b : Option Byte) : (s.observeByte b).errPos = s.errPos := by cases b <;> rfl

@[simp] theorem State.observeByte_phase (s : State) (b : Option Byte) : (s.observeByte b).phase = s.phase := by cases b <;> rfl

@[simp] theorem State.observeByte_opl (s : State) (b : Option Byte) : (s.observeByte b).opl = s.opl := by cases b <;> rfl

@[simp] theorem State.observeByte_nl (s : State) (b : Option Byte) : (s.observeByte b).nl = s.nl := by cases b <;> rfl

@[simp] theorem State.observeByte_ng (s : State) (b : Option Byte) : (s.observeByte b).ng = s.ng := by cases b <;> rfl

@[simp] theorem State.observeByte_padsI (s : State) (b : Option Byte) : (s.observeByte b).padsI = s.padsI := by cases b <;> rfl

@[simp] theorem State.observeByte_gidx (s : State) (b : Option Byte) : (s.observeByte b).gidx = s.gidx := by cases b <;> rfl

@[simp] theorem State.observeByte_acc (s : State) (b : Option Byte) : (s.observeByte b).acc = s.acc := by cases b <;> rfl

@[simp] theorem State.observeByte_inBuf (s : State) (b : Option Byte) : (s.observeByte b).inBuf = s.inBuf := by cases b <;> rfl

@[simp] theorem State.observeByte_outBuf (s : State) (b : Option Byte) : (s.observeByte b).outBuf = s.outBuf := by cases b <;> rfl

@[simp] theorem State.observeByte_pending (s : State) (b : Option Byte) : (s.observeByte b).pending = s.pending := by cases b <;> rfl

end observeByte

section setOp

@[simp] theorem State.setOp_ctrlOp (s : State) (op : BitVec 2) : (s.setOp op).ctrlOp = if s.takesWrites then op else s.ctrlOp := by unfold State.setOp; split <;> rfl

@[simp] theorem State.setOp_status (s : State) (op : BitVec 2) : (s.setOp op).status = s.status := by unfold State.setOp; split <;> rfl

@[simp] theorem State.setOp_inLen (s : State) (op : BitVec 2) : (s.setOp op).inLen = s.inLen := by unfold State.setOp; split <;> rfl

@[simp] theorem State.setOp_outLen (s : State) (op : BitVec 2) : (s.setOp op).outLen = s.outLen := by unfold State.setOp; split <;> rfl

@[simp] theorem State.setOp_errPos (s : State) (op : BitVec 2) : (s.setOp op).errPos = s.errPos := by unfold State.setOp; split <;> rfl

@[simp] theorem State.setOp_phase (s : State) (op : BitVec 2) : (s.setOp op).phase = s.phase := by unfold State.setOp; split <;> rfl

@[simp] theorem State.setOp_opl (s : State) (op : BitVec 2) : (s.setOp op).opl = s.opl := by unfold State.setOp; split <;> rfl

@[simp] theorem State.setOp_nl (s : State) (op : BitVec 2) : (s.setOp op).nl = s.nl := by unfold State.setOp; split <;> rfl

@[simp] theorem State.setOp_ng (s : State) (op : BitVec 2) : (s.setOp op).ng = s.ng := by unfold State.setOp; split <;> rfl

@[simp] theorem State.setOp_padsI (s : State) (op : BitVec 2) : (s.setOp op).padsI = s.padsI := by unfold State.setOp; split <;> rfl

@[simp] theorem State.setOp_gidx (s : State) (op : BitVec 2) : (s.setOp op).gidx = s.gidx := by unfold State.setOp; split <;> rfl

@[simp] theorem State.setOp_acc (s : State) (op : BitVec 2) : (s.setOp op).acc = s.acc := by unfold State.setOp; split <;> rfl

@[simp] theorem State.setOp_inBuf (s : State) (op : BitVec 2) : (s.setOp op).inBuf = s.inBuf := by unfold State.setOp; split <;> rfl

@[simp] theorem State.setOp_outBuf (s : State) (op : BitVec 2) : (s.setOp op).outBuf = s.outBuf := by unfold State.setOp; split <;> rfl

@[simp] theorem State.setOp_pending (s : State) (op : BitVec 2) : (s.setOp op).pending = s.pending := by unfold State.setOp; split <;> rfl

@[simp] theorem State.setOp_readLog (s : State) (op : BitVec 2) : (s.setOp op).readLog = s.readLog := by unfold State.setOp; split <;> rfl

@[simp] theorem State.setOp_draws (s : State) (op : BitVec 2) : (s.setOp op).draws = s.draws := by unfold State.setOp; split <;> rfl

end setOp

section writeInLen

@[simp] theorem State.writeInLen_ctrlOp (s : State) (w : Word) : (s.writeInLen w).ctrlOp = s.ctrlOp := by unfold State.writeInLen; split <;> rfl

@[simp] theorem State.writeInLen_status (s : State) (w : Word) : (s.writeInLen w).status = s.status := by unfold State.writeInLen; split <;> rfl

@[simp] theorem State.writeInLen_inLen (s : State) (w : Word) : (s.writeInLen w).inLen = if s.takesWrites then w.extractLsb' 0 17 else s.inLen := by unfold State.writeInLen; split <;> rfl

@[simp] theorem State.writeInLen_outLen (s : State) (w : Word) : (s.writeInLen w).outLen = s.outLen := by unfold State.writeInLen; split <;> rfl

@[simp] theorem State.writeInLen_errPos (s : State) (w : Word) : (s.writeInLen w).errPos = s.errPos := by unfold State.writeInLen; split <;> rfl

@[simp] theorem State.writeInLen_phase (s : State) (w : Word) : (s.writeInLen w).phase = s.phase := by unfold State.writeInLen; split <;> rfl

@[simp] theorem State.writeInLen_opl (s : State) (w : Word) : (s.writeInLen w).opl = s.opl := by unfold State.writeInLen; split <;> rfl

@[simp] theorem State.writeInLen_nl (s : State) (w : Word) : (s.writeInLen w).nl = s.nl := by unfold State.writeInLen; split <;> rfl

@[simp] theorem State.writeInLen_ng (s : State) (w : Word) : (s.writeInLen w).ng = s.ng := by unfold State.writeInLen; split <;> rfl

@[simp] theorem State.writeInLen_padsI (s : State) (w : Word) : (s.writeInLen w).padsI = s.padsI := by unfold State.writeInLen; split <;> rfl

@[simp] theorem State.writeInLen_gidx (s : State) (w : Word) : (s.writeInLen w).gidx = s.gidx := by unfold State.writeInLen; split <;> rfl

@[simp] theorem State.writeInLen_acc (s : State) (w : Word) : (s.writeInLen w).acc = s.acc := by unfold State.writeInLen; split <;> rfl

@[simp] theorem State.writeInLen_inBuf (s : State) (w : Word) : (s.writeInLen w).inBuf = s.inBuf := by unfold State.writeInLen; split <;> rfl

@[simp] theorem State.writeInLen_outBuf (s : State) (w : Word) : (s.writeInLen w).outBuf = s.outBuf := by unfold State.writeInLen; split <;> rfl

@[simp] theorem State.writeInLen_pending (s : State) (w : Word) : (s.writeInLen w).pending = s.pending := by unfold State.writeInLen; split <;> rfl

@[simp] theorem State.writeInLen_readLog (s : State) (w : Word) : (s.writeInLen w).readLog = s.readLog := by unfold State.writeInLen; split <;> rfl

@[simp] theorem State.writeInLen_draws (s : State) (w : Word) : (s.writeInLen w).draws = s.draws := by unfold State.writeInLen; split <;> rfl

end writeInLen

section writeInBuf

@[simp] theorem State.writeInBuf_ctrlOp (s : State) (cap i : Nat) (b : Byte) : (s.writeInBuf cap i b).ctrlOp = s.ctrlOp := by unfold State.writeInBuf; split <;> rfl

@[simp] theorem State.writeInBuf_status (s : State) (cap i : Nat) (b : Byte) : (s.writeInBuf cap i b).status = s.status := by unfold State.writeInBuf; split <;> rfl

@[simp] theorem State.writeInBuf_inLen (s : State) (cap i : Nat) (b : Byte) : (s.writeInBuf cap i b).inLen = s.inLen := by unfold State.writeInBuf; split <;> rfl

@[simp] theorem State.writeInBuf_outLen (s : State) (cap i : Nat) (b : Byte) : (s.writeInBuf cap i b).outLen = s.outLen := by unfold State.writeInBuf; split <;> rfl

@[simp] theorem State.writeInBuf_errPos (s : State) (cap i : Nat) (b : Byte) : (s.writeInBuf cap i b).errPos = s.errPos := by unfold State.writeInBuf; split <;> rfl

@[simp] theorem State.writeInBuf_phase (s : State) (cap i : Nat) (b : Byte) : (s.writeInBuf cap i b).phase = s.phase := by unfold State.writeInBuf; split <;> rfl

@[simp] theorem State.writeInBuf_opl (s : State) (cap i : Nat) (b : Byte) : (s.writeInBuf cap i b).opl = s.opl := by unfold State.writeInBuf; split <;> rfl

@[simp] theorem State.writeInBuf_nl (s : State) (cap i : Nat) (b : Byte) : (s.writeInBuf cap i b).nl = s.nl := by unfold State.writeInBuf; split <;> rfl

@[simp] theorem State.writeInBuf_ng (s : State) (cap i : Nat) (b : Byte) : (s.writeInBuf cap i b).ng = s.ng := by unfold State.writeInBuf; split <;> rfl

@[simp] theorem State.writeInBuf_padsI (s : State) (cap i : Nat) (b : Byte) : (s.writeInBuf cap i b).padsI = s.padsI := by unfold State.writeInBuf; split <;> rfl

@[simp] theorem State.writeInBuf_gidx (s : State) (cap i : Nat) (b : Byte) : (s.writeInBuf cap i b).gidx = s.gidx := by unfold State.writeInBuf; split <;> rfl

@[simp] theorem State.writeInBuf_acc (s : State) (cap i : Nat) (b : Byte) : (s.writeInBuf cap i b).acc = s.acc := by unfold State.writeInBuf; split <;> rfl

@[simp] theorem State.writeInBuf_inBuf (s : State) (cap i : Nat) (b : Byte) : (s.writeInBuf cap i b).inBuf = if s.takesWrites && decide (i < cap) then s.inBuf.write i b else s.inBuf := by unfold State.writeInBuf; split <;> rfl

@[simp] theorem State.writeInBuf_outBuf (s : State) (cap i : Nat) (b : Byte) : (s.writeInBuf cap i b).outBuf = s.outBuf := by unfold State.writeInBuf; split <;> rfl

@[simp] theorem State.writeInBuf_pending (s : State) (cap i : Nat) (b : Byte) : (s.writeInBuf cap i b).pending = s.pending := by unfold State.writeInBuf; split <;> rfl

@[simp] theorem State.writeInBuf_readLog (s : State) (cap i : Nat) (b : Byte) : (s.writeInBuf cap i b).readLog = s.readLog := by unfold State.writeInBuf; split <;> rfl

@[simp] theorem State.writeInBuf_draws (s : State) (cap i : Nat) (b : Byte) : (s.writeInBuf cap i b).draws = s.draws := by unfold State.writeInBuf; split <;> rfl

end writeInBuf

section start

@[simp] theorem State.start_ctrlOp (s : State) (op : BitVec 2) : (s.start op).ctrlOp = if s.takesWrites then op else s.ctrlOp := by unfold State.start; split <;> rfl

@[simp] theorem State.start_status (s : State) (op : BitVec 2) : (s.start op).status = if s.takesWrites then Status.inProgress else s.status := by unfold State.start; split <;> rfl

@[simp] theorem State.start_inLen (s : State) (op : BitVec 2) : (s.start op).inLen = s.inLen := by unfold State.start; split <;> rfl

@[simp] theorem State.start_outLen (s : State) (op : BitVec 2) : (s.start op).outLen = if s.takesWrites then 0#17 else s.outLen := by unfold State.start; split <;> rfl

@[simp] theorem State.start_errPos (s : State) (op : BitVec 2) : (s.start op).errPos = if s.takesWrites then 0#17 else s.errPos := by unfold State.start; split <;> rfl

@[simp] theorem State.start_phase (s : State) (op : BitVec 2) : (s.start op).phase = if s.takesWrites then .check else s.phase := by unfold State.start; split <;> rfl

@[simp] theorem State.start_opl (s : State) (op : BitVec 2) : (s.start op).opl = if s.takesWrites then op else s.opl := by unfold State.start; split <;> rfl

@[simp] theorem State.start_nl (s : State) (op : BitVec 2) : (s.start op).nl = if s.takesWrites then s.inLen else s.nl := by unfold State.start; split <;> rfl

@[simp] theorem State.start_ng (s : State) (op : BitVec 2) : (s.start op).ng = s.ng := by unfold State.start; split <;> rfl

@[simp] theorem State.start_padsI (s : State) (op : BitVec 2) : (s.start op).padsI = s.padsI := by unfold State.start; split <;> rfl

@[simp] theorem State.start_gidx (s : State) (op : BitVec 2) : (s.start op).gidx = s.gidx := by unfold State.start; split <;> rfl

@[simp] theorem State.start_acc (s : State) (op : BitVec 2) : (s.start op).acc = s.acc := by unfold State.start; split <;> rfl

@[simp] theorem State.start_inBuf (s : State) (op : BitVec 2) : (s.start op).inBuf = s.inBuf := by unfold State.start; split <;> rfl

@[simp] theorem State.start_outBuf (s : State) (op : BitVec 2) : (s.start op).outBuf = s.outBuf := by unfold State.start; split <;> rfl

@[simp] theorem State.start_pending (s : State) (op : BitVec 2) : (s.start op).pending = s.pending := by unfold State.start; split <;> rfl

@[simp] theorem State.start_readLog (s : State) (op : BitVec 2) : (s.start op).readLog = s.readLog := by unfold State.start; split <;> rfl

@[simp] theorem State.start_draws (s : State) (op : BitVec 2) : (s.start op).draws = s.draws := by unfold State.start; split <;> rfl

end start

section beginRun

@[simp] theorem State.beginRun_ctrlOp (s : State) (pads : BitVec 2) (n : Nat) : (s.beginRun pads n).ctrlOp = s.ctrlOp := by unfold State.beginRun; dsimp only; split <;> rfl

@[simp] theorem State.beginRun_inLen (s : State) (pads : BitVec 2) (n : Nat) : (s.beginRun pads n).inLen = s.inLen := by unfold State.beginRun; dsimp only; split <;> rfl

@[simp] theorem State.beginRun_opl (s : State) (pads : BitVec 2) (n : Nat) : (s.beginRun pads n).opl = s.opl := by unfold State.beginRun; dsimp only; split <;> rfl

@[simp] theorem State.beginRun_nl (s : State) (pads : BitVec 2) (n : Nat) : (s.beginRun pads n).nl = s.nl := by unfold State.beginRun; dsimp only; split <;> rfl

@[simp] theorem State.beginRun_ng (s : State) (pads : BitVec 2) (n : Nat) : (s.beginRun pads n).ng = BitVec.ofNat 17 n := by unfold State.beginRun; dsimp only; split <;> rfl

@[simp] theorem State.beginRun_padsI (s : State) (pads : BitVec 2) (n : Nat) : (s.beginRun pads n).padsI = pads := by unfold State.beginRun; dsimp only; split <;> rfl

@[simp] theorem State.beginRun_gidx (s : State) (pads : BitVec 2) (n : Nat) : (s.beginRun pads n).gidx = 0#17 := by unfold State.beginRun; dsimp only; split <;> rfl

@[simp] theorem State.beginRun_acc (s : State) (pads : BitVec 2) (n : Nat) : (s.beginRun pads n).acc = s.acc := by unfold State.beginRun; dsimp only; split <;> rfl

@[simp] theorem State.beginRun_inBuf (s : State) (pads : BitVec 2) (n : Nat) : (s.beginRun pads n).inBuf = s.inBuf := by unfold State.beginRun; dsimp only; split <;> rfl

@[simp] theorem State.beginRun_outBuf (s : State) (pads : BitVec 2) (n : Nat) : (s.beginRun pads n).outBuf = s.outBuf := by unfold State.beginRun; dsimp only; split <;> rfl

@[simp] theorem State.beginRun_pending (s : State) (pads : BitVec 2) (n : Nat) : (s.beginRun pads n).pending = s.pending := by unfold State.beginRun; dsimp only; split <;> rfl

@[simp] theorem State.beginRun_readLog (s : State) (pads : BitVec 2) (n : Nat) : (s.beginRun pads n).readLog = s.readLog := by unfold State.beginRun; dsimp only; split <;> rfl

@[simp] theorem State.beginRun_draws (s : State) (pads : BitVec 2) (n : Nat) : (s.beginRun pads n).draws = s.draws := by unfold State.beginRun; dsimp only; split <;> rfl

end beginRun

section finishGroup

@[simp] theorem State.finishGroup_ctrlOp (s : State) : (s.finishGroup).ctrlOp = s.ctrlOp := by unfold State.finishGroup; dsimp only; split <;> rfl

@[simp] theorem State.finishGroup_inLen (s : State) : (s.finishGroup).inLen = s.inLen := by unfold State.finishGroup; dsimp only; split <;> rfl

@[simp] theorem State.finishGroup_opl (s : State) : (s.finishGroup).opl = s.opl := by unfold State.finishGroup; dsimp only; split <;> rfl

@[simp] theorem State.finishGroup_nl (s : State) : (s.finishGroup).nl = s.nl := by unfold State.finishGroup; dsimp only; split <;> rfl

@[simp] theorem State.finishGroup_ng (s : State) : (s.finishGroup).ng = s.ng := by unfold State.finishGroup; dsimp only; split <;> rfl

@[simp] theorem State.finishGroup_padsI (s : State) : (s.finishGroup).padsI = s.padsI := by unfold State.finishGroup; dsimp only; split <;> rfl

@[simp] theorem State.finishGroup_gidx (s : State) : (s.finishGroup).gidx = s.gidx + 1#17 := by unfold State.finishGroup; dsimp only; split <;> rfl

@[simp] theorem State.finishGroup_acc (s : State) : (s.finishGroup).acc = s.acc := by unfold State.finishGroup; dsimp only; split <;> rfl

@[simp] theorem State.finishGroup_inBuf (s : State) : (s.finishGroup).inBuf = s.inBuf := by unfold State.finishGroup; dsimp only; split <;> rfl

@[simp] theorem State.finishGroup_outBuf (s : State) : (s.finishGroup).outBuf = s.outBuf := by unfold State.finishGroup; dsimp only; split <;> rfl

@[simp] theorem State.finishGroup_pending (s : State) : (s.finishGroup).pending = s.pending := by unfold State.finishGroup; dsimp only; split <;> rfl

@[simp] theorem State.finishGroup_readLog (s : State) : (s.finishGroup).readLog = s.readLog := by unfold State.finishGroup; dsimp only; split <;> rfl

@[simp] theorem State.finishGroup_draws (s : State) : (s.finishGroup).draws = s.draws := by unfold State.finishGroup; dsimp only; split <;> rfl

end finishGroup

end Sys2Proof.Machine
end

