-- ==== Sys2Proof/Laws/Ops.lean ====
section
/-! SUPPORT. What each shared operation can do, said once: the buffers' laws, and one lemma per register operation. -/

namespace Sys2Proof.Machine

@[simp] theorem Memory.read_nil (i : Nat) : Memory.read [] i = none := rfl

/-- A read after a write to the same cell gives the byte written. -/
@[simp] theorem Memory.read_write_same (m : Memory) (i : Nat) (v : Byte) : (Memory.write m i v).read i = some v := by
  induction m with
  | nil => simp [Memory.write, Memory.read]
  | cons x m ih =>
    obtain ⟨a, b⟩ := x
    simp only [Memory.write]
    split
    · simp [Memory.read]
    · split
      · simp [Memory.read]
      · rename_i h1 h2
        simp only [Memory.read, if_neg (Ne.symm h2), ih]

/-- A write leaves every other cell alone. -/
theorem Memory.read_write_other (m : Memory) (i j : Nat) (v : Byte) (h : j ≠ i) :
    (Memory.write m i v).read j = m.read j := by
  induction m with
  | nil => simp [Memory.write, Memory.read, Ne.symm h]
  | cons x m ih =>
    obtain ⟨a, b⟩ := x
    simp only [Memory.write]
    split
    · simp [Memory.read, Ne.symm h]
    · split
      · rename_i h2; subst h2; simp [Memory.read, Ne.symm h]
      · simp only [Memory.read, ih]

theorem Memory.read_write (m : Memory) (i j : Nat) (v : Byte) :
    (Memory.write m i v).read j = if j = i then some v else m.read j := by
  by_cases h : j = i
  · subst h; simp
  · simp [Memory.read_write_other m i j v h, h]

/-- The cells a write lists are those listed before and the one written. -/
theorem Memory.mem_write (m : Memory) (i : Nat) (v : Byte) (p : Host.Cell) (hp : p ∈ Memory.write m i v) :
    p = (i, v) ∨ p ∈ m := by
  induction m with
  | nil => simpa [Memory.write] using hp
  | cons x m ih =>
    obtain ⟨a, b⟩ := x
    simp only [Memory.write] at hp
    split at hp
    · simpa using hp
    · split at hp
      · rcases List.mem_cons.mp hp with h | h
        · exact .inl h
        · exact .inr (List.mem_cons_of_mem _ h)
      · rcases List.mem_cons.mp hp with h | h
        · exact .inr (h ▸ List.mem_cons_self)
        · exact (ih h).imp_right (List.mem_cons_of_mem _)

/-- A write keeps the canonical form. -/
theorem Memory.write_wf (m : Memory) (i : Nat) (v : Byte) (h : m.wf) : (Memory.write m i v).wf := by
  induction m with
  | nil => simp [Memory.write, Memory.wf]
  | cons x m ih =>
    obtain ⟨a, b⟩ := x
    obtain ⟨hx, hm⟩ := List.pairwise_cons.mp h
    simp only [Memory.write]
    split
    · rename_i hlt
      refine List.pairwise_cons.mpr ⟨fun p hp => ?_, h⟩
      rcases List.mem_cons.mp hp with rfl | hp
      · exact hlt
      · exact lt_trans hlt (hx p hp)
    · split
      · rename_i heq
        subst heq
        exact List.pairwise_cons.mpr ⟨hx, hm⟩
      · refine List.pairwise_cons.mpr ⟨fun p hp => ?_, ih hm⟩
        rcases Memory.mem_write m i v p hp with rfl | hp
        · simp only; omega
        · exact hx p hp

theorem Memory.write_within (m : Memory) (n i : Nat) (v : Byte) (h : m.Within n) (hi : i < n) :
    Memory.Within (Memory.write m i v) n := fun p hp => by
  rcases Memory.mem_write m i v p hp with rfl | hp
  · exact hi
  · exact h p hp

@[simp] theorem Memory.writeFrom_nil (m : Memory) (i : Nat) : m.writeFrom i [] = m := rfl

@[simp] theorem Memory.writeFrom_cons (m : Memory) (i : Nat) (b : Byte) (bs : List Byte) :
    m.writeFrom i (b :: bs) = Memory.writeFrom (m.write i b) (i + 1) bs := rfl

theorem Memory.writeFrom_wf (bs : List Byte) : ∀ (m : Memory) (i : Nat), m.wf → (m.writeFrom i bs).wf := by
  induction bs with
  | nil => exact fun _ _ h => h
  | cons b bs ih => exact fun m i h => ih _ _ (Memory.write_wf m i b h)

theorem Memory.writeFrom_within (n : Nat) (bs : List Byte) :
    ∀ (m : Memory) (i : Nat), m.Within n → i + bs.length ≤ n → Memory.Within (m.writeFrom i bs) n := by
  induction bs with
  | nil => exact fun _ _ h _ => h
  | cons b bs ih =>
    intro m i h hn
    simp only [List.length_cons] at hn
    exact ih _ _ (Memory.write_within m n i b h (by omega)) (by omega)

/-- What consecutive writes leave: the bytes written in their cells, every other cell as it was. -/
theorem Memory.read_writeFrom (bs : List Byte) :
    ∀ (m : Memory) (i j : Nat), (m.writeFrom i bs).read j = if i ≤ j ∧ j < i + bs.length then bs[j - i]? else m.read j := by
  induction bs with
  | nil => intro m i j; simp
  | cons b bs ih =>
    intro m i j
    rw [Memory.writeFrom_cons, ih, Memory.read_write]
    simp only [List.length_cons]
    by_cases h : j = i
    · subst h; simp
    · by_cases h2 : i + 1 ≤ j ∧ j < i + 1 + bs.length
      · rw [if_pos h2, if_pos (by omega)]
        obtain ⟨k, hk⟩ : ∃ k, j - i = k + 1 := ⟨j - i - 1, by omega⟩
        rw [hk, List.getElem?_cons_succ]
        congr 1; omega
      · rw [if_neg h2, if_neg h, if_neg (by omega)]

/-- A buffer in canonical form is determined by its reads. -/
theorem Memory.read_eq_none_of_within (m : Memory) (n i : Nat) (h : m.Within n) (hi : n ≤ i) : m.read i = none := by
  induction m with
  | nil => rfl
  | cons x m ih =>
    obtain ⟨a, b⟩ := x
    have ha : a < n := h (a, b) List.mem_cons_self
    have : a ≠ i := by omega
    simp only [Memory.read, if_neg this]
    exact ih fun p hp => h p (List.mem_cons_of_mem _ hp)

@[simp] theorem State.takesWrites_iff (s : State) : s.takesWrites = true ↔ s.phase = .idle := by
  simp [State.takesWrites]

/-- A START the block takes (R105). -/
theorem State.start_of_idle (s : State) (op : BitVec 2) (h : s.phase = .idle) :
    s.start op = { s with
      ctrlOp := op, opl := op, nl := s.inLen, status := Status.inProgress
      outLen := 0#17, errPos := 0#17, phase := .check } := by
  simp [State.start, h]

/-- A START the block ignores (R113). -/
theorem State.start_of_not_idle (s : State) (op : BitVec 2) (h : s.phase ≠ .idle) : s.start op = s := by
  simp [State.start, h]

theorem State.setOp_of_idle (s : State) (op : BitVec 2) (h : s.phase = .idle) :
    s.setOp op = { s with ctrlOp := op } := by simp [State.setOp, h]

theorem State.setOp_of_not_idle (s : State) (op : BitVec 2) (h : s.phase ≠ .idle) : s.setOp op = s := by
  simp [State.setOp, h]

theorem State.writeInLen_of_idle (s : State) (w : Word) (h : s.phase = .idle) :
    s.writeInLen w = { s with inLen := w.extractLsb' 0 17 } := by simp [State.writeInLen, h]

theorem State.writeInLen_of_not_idle (s : State) (w : Word) (h : s.phase ≠ .idle) : s.writeInLen w = s := by
  simp [State.writeInLen, h]

theorem State.writeInBuf_of_idle (s : State) (cap i : Nat) (b : Byte) (h : s.phase = .idle) (hi : i < cap) :
    s.writeInBuf cap i b = { s with inBuf := s.inBuf.write i b } := by simp [State.writeInBuf, h, hi]

theorem State.writeInBuf_of_not_idle (s : State) (cap i : Nat) (b : Byte) (h : s.phase ≠ .idle) :
    s.writeInBuf cap i b = s := by simp [State.writeInBuf, h]

theorem State.writeInBuf_unmapped (s : State) (cap i : Nat) (b : Byte) (hi : cap ≤ i) :
    s.writeInBuf cap i b = s := by simp [State.writeInBuf, Nat.not_lt.mpr hi]

/-- A byte read returns the byte, or a draw. -/
theorem State.observeByte_some (s : State) (b : Byte) : s.observeByte (some b) = s.observe (b.setWidth 32) := rfl

theorem State.observeByte_none (s : State) :
    s.observeByte none = { s.observe ((Config.freeByte s.draws).setWidth 32) with draws := s.draws + 1 } := rfl

/-- The end of a CHECK step: the command completes with no group, or RUN begins (R110). -/
theorem State.beginRun_cases (s : State) (pads : BitVec 2) (n : Nat) (hn : n < 2 ^ 17) :
    (n = 0 ∧ s.beginRun pads n = State.complete { s with padsI := pads, ng := 0#17, gidx := 0#17 }) ∨
    (n ≠ 0 ∧ s.beginRun pads n =
      { s with padsI := pads, ng := BitVec.ofNat 17 n, gidx := 0#17, phase := .run }) := by
  have key : (BitVec.ofNat 17 n = 0#17) ↔ n = 0 := by
    constructor
    · intro h
      have := congrArg BitVec.toNat h
      rwa [BitVec.toNat_ofNat, Nat.mod_eq_of_lt hn] at this
    · rintro rfl; rfl
  by_cases h : n = 0
  · subst h; exact .inl ⟨rfl, rfl⟩
  · exact .inr ⟨h, by simp [State.beginRun, key, h]⟩

/-- The end of a RUN step: the next group, or the command completes after the last (R111). -/
theorem State.finishGroup_cases (s : State) (h : s.gidx.toNat < s.ng.toNat) :
    (s.gidx.toNat + 1 < s.ng.toNat ∧ s.finishGroup = { s with gidx := s.gidx + 1#17 }) ∨
    (s.gidx.toNat + 1 = s.ng.toNat ∧ s.finishGroup = State.complete { s with gidx := s.ng }) := by
  have hng := s.ng.isLt
  have hadd : (s.gidx + 1#17).toNat = s.gidx.toNat + 1 := by
    rw [BitVec.toNat_add]; simp; omega
  by_cases hl : s.gidx.toNat + 1 = s.ng.toNat
  · have : s.gidx + 1#17 = s.ng := BitVec.eq_of_toNat_eq (hadd.trans hl)
    exact .inr ⟨hl, by simp [State.finishGroup, this]⟩
  · have : s.gidx + 1#17 ≠ s.ng := fun e => hl (hadd ▸ congrArg BitVec.toNat e)
    exact .inl ⟨by omega, by simp [State.finishGroup, this]⟩

end Sys2Proof.Machine
end

