-- ==== Sys2Proof/Laws/Engine.lean ====
section
/-! SUPPORT. What the engine's steps can do, said once: the counts, the scan, and inversion lemmas for CHECK and RUN. -/

namespace Sys2Proof.Machine

/-- The pad count of ENCODE is 0, 1 or 2 and completes the length to a multiple of 3 (R74). -/
theorem encodePads_spec (n : Nat) :
    (encodePads n).toNat ≤ 2 ∧ (n + (encodePads n).toNat) % 3 = 0 := by
  unfold encodePads
  split
  · simp; omega
  · have : n % 3 = 1 ∨ n % 3 = 2 := by omega
    rcases this with h | h <;> rw [h] <;> simp <;> omega

/-- A 2-bit pad count is out of range exactly when it is 3 (R126). -/
theorem padsOutOfRange_iff (p : BitVec 2) : padsOutOfRange p = true ↔ 2 < p.toNat := by
  revert p; decide

/-- The defensive check of ENCODE never fires (R74). -/
@[simp] theorem padsOutOfRange_encodePads (n : Nat) : padsOutOfRange (encodePads n) = false := by
  have := (encodePads_spec n).1
  rw [Bool.eq_false_iff, Ne, padsOutOfRange_iff]; omega

/-- The group count of ENCODE is `ceil(N / 3)` (R75). -/
theorem encodeGroupCount_eq (n : Nat) : encodeGroupCount n (encodePads n) = (n + 2) / 3 := by
  have := encodePads_spec n
  unfold encodeGroupCount; omega

/-- Position `j` is read and is not at fault (R90). -/
def Sound (c : Config) (read : Nat → Option Byte) (final j : Nat) : Prop :=
  ∃ code, read j = some code ∧ faultAt final j ((read (j - 1)).map c.rev) (c.rev code) = none

theorem scanFrom_pass_iff (c : Config) (read : Nat → Option Byte) (final : Nat) :
    ∀ n i, scanFrom c read final n i = .pass ↔ ∀ j, i ≤ j → j < i + n → Sound c read final j := by
  intro n
  induction n with
  | zero => intro i; simp [scanFrom]; intro j h1 h2; omega
  | succ n ih =>
    intro i
    simp only [scanFrom]
    cases hr : read i with
    | none =>
      simp only [reduceCtorEq, false_iff]
      intro h
      obtain ⟨code, h1, _⟩ := h i (le_refl _) (by omega)
      rw [hr] at h1; cases h1
    | some code =>
      simp only
      cases hf : faultAt final i ((read (i - 1)).map c.rev) (c.rev code) with
      | some cause =>
        simp only [reduceCtorEq, false_iff]
        intro h
        obtain ⟨code', h1, h2⟩ := h i (le_refl _) (by omega)
        rw [hr] at h1; cases h1; rw [hf] at h2; cases h2
      | none =>
        simp only [ih]
        constructor
        · intro h j h1 h2
          by_cases hj : j = i
          · exact hj ▸ ⟨code, hr, hf⟩
          · exact h j (by omega) (by omega)
        · intro h j h1 h2
          exact h j (by omega) (by omega)

/-- The scan stops at an unwritten cell exactly where every position before it is read and not at fault (R115, R129). -/
theorem scanFrom_unwritten_iff (c : Config) (read : Nat → Option Byte) (final : Nat) :
    ∀ n i, scanFrom c read final n i = .unwritten ↔
      ∃ j, i ≤ j ∧ j < i + n ∧ read j = none ∧ ∀ k, i ≤ k → k < j → Sound c read final k := by
  intro n
  induction n with
  | zero => intro i; simp [scanFrom]; omega
  | succ n ih =>
    intro i
    simp only [scanFrom]
    cases hr : read i with
    | none => exact iff_of_true rfl ⟨i, le_refl _, by omega, hr, fun k h1 h2 => by omega⟩
    | some code =>
      simp only
      cases hf : faultAt final i ((read (i - 1)).map c.rev) (c.rev code) with
      | some cause =>
        simp only [reduceCtorEq, false_iff]
        rintro ⟨j, h1, h2, h3, h4⟩
        by_cases hj : j = i
        · subst hj; rw [hr] at h3; cases h3
        · obtain ⟨code', h5, h6⟩ := h4 i (le_refl _) (by omega)
          rw [hr] at h5; cases h5; rw [hf] at h6; cases h6
      | none =>
        simp only [ih]
        constructor
        · rintro ⟨j, h1, h2, h3, h4⟩
          refine ⟨j, by omega, by omega, h3, fun k h5 h6 => ?_⟩
          by_cases hk : k = i
          · exact hk ▸ ⟨code, hr, hf⟩
          · exact h4 k (by omega) h6
        · rintro ⟨j, h1, h2, h3, h4⟩
          have hj : j ≠ i := by
            rintro rfl; rw [hr] at h3; cases h3
          exact ⟨j, by omega, by omega, h3, fun k h5 h6 => h4 k (by omega) h6⟩

theorem scanFrom_bad_iff (c : Config) (read : Nat → Option Byte) (final : Nat) (cause : Cause) (pos : Nat) :
    ∀ n i, scanFrom c read final n i = .bad cause pos ↔
      i ≤ pos ∧ pos < i + n ∧
      (∃ code, read pos = some code ∧
        faultAt final pos ((read (pos - 1)).map c.rev) (c.rev code) = some cause) ∧
      ∀ j, i ≤ j → j < pos → Sound c read final j := by
  intro n
  induction n with
  | zero => intro i; simp [scanFrom]; omega
  | succ n ih =>
    intro i
    simp only [scanFrom]
    cases hr : read i with
    | none =>
      simp only [reduceCtorEq, false_iff]
      rintro ⟨h1, h2, ⟨code, h3, _⟩, h4⟩
      by_cases hi : pos = i
      · subst hi; rw [hr] at h3; cases h3
      · obtain ⟨code', h5, _⟩ := h4 i (le_refl _) (by omega)
        rw [hr] at h5; cases h5
    | some code =>
      simp only
      cases hf : faultAt final i ((read (i - 1)).map c.rev) (c.rev code) with
      | some k =>
        simp only [ScanResult.bad.injEq]
        constructor
        · rintro ⟨rfl, rfl⟩
          exact ⟨le_refl _, by omega, ⟨code, hr, hf⟩, fun j h1 h2 => by omega⟩
        · rintro ⟨h1, h2, ⟨code', h3, h5⟩, h4⟩
          by_cases hi : pos = i
          · subst hi; rw [hr] at h3; cases h3; rw [hf] at h5; cases h5; exact ⟨rfl, rfl⟩
          · obtain ⟨code'', h6, h7⟩ := h4 i (le_refl _) (by omega)
            rw [hr] at h6; cases h6; rw [hf] at h7; cases h7
      | none =>
        simp only [ih]
        constructor
        · rintro ⟨h1, h2, h3, h4⟩
          refine ⟨by omega, by omega, h3, fun j h5 h6 => ?_⟩
          by_cases hj : j = i
          · exact hj ▸ ⟨code, hr, hf⟩
          · exact h4 j (by omega) h6
        · rintro ⟨h1, h2, ⟨code', h3, h5⟩, h4⟩
          have hi : pos ≠ i := by
            rintro rfl; rw [hr] at h3; cases h3; rw [hf] at h5; cases h5
          exact ⟨by omega, by omega, ⟨code', h3, h5⟩, fun j h6 h7 => h4 j (by omega) h7⟩

/-- Every cause the padding-validator reports is one with a position (R90, R123). -/
theorem faultAt_hasPosition (final i : Nat) (prev : Option RevEntry) (cur : RevEntry) (cause : Cause)
    (h : faultAt final i prev cur = some cause) : cause.hasPosition = true := by
  unfold faultAt at h
  repeat' split at h
  all_goals first | cases h; rfl | cases h

theorem scanFrom_bad_hasPosition (c : Config) (read : Nat → Option Byte) (final n i : Nat) (cause : Cause) (pos : Nat)
    (h : scanFrom c read final n i = .bad cause pos) : cause.hasPosition = true := by
  obtain ⟨_, _, ⟨_, _, hf⟩, _⟩ := (scanFrom_bad_iff c read final cause pos n i).mp h
  exact faultAt_hasPosition _ _ _ _ _ hf

/-- A scan sees only the cells it scans (R61). -/
theorem scanFrom_congr (c : Config) (read read' : Nat → Option Byte) (final : Nat) :
    ∀ n i, (∀ j, j < i + n → read j = read' j) → scanFrom c read final n i = scanFrom c read' final n i := by
  intro n
  induction n with
  | zero => intros; rfl
  | succ n ih =>
    intro i h
    simp only [scanFrom]
    rw [h i (by omega), h (i - 1) (by omega), ih (i + 1) fun j hj => h j (by omega)]

theorem exists_lt_three (p : Nat → Prop) : (∃ j, j < 3 ∧ p j) ↔ p 0 ∨ p 1 ∨ p 2 := by
  constructor
  · rintro ⟨j, hj, h⟩
    obtain rfl | rfl | rfl : j = 0 ∨ j = 1 ∨ j = 2 := by omega
    all_goals simp [h]
  · rintro (h | h | h) <;> exact ⟨_, by decide, h⟩

theorem exists_lt_four (p : Nat → Prop) : (∃ j, j < 4 ∧ p j) ↔ p 0 ∨ p 1 ∨ p 2 ∨ p 3 := by
  constructor
  · rintro ⟨j, hj, h⟩
    obtain rfl | rfl | rfl | rfl : j = 0 ∨ j = 1 ∨ j = 2 ∨ j = 3 := by omega
    all_goals simp [h]
  · rintro (h | h | h | h) <;> exact ⟨_, by decide, h⟩

theorem extended_none_iff (read : Nat → Option Byte) (n i : Nat) : extended read n i = none ↔ i < n ∧ read i = none := by
  unfold extended; split <;> simp_all

/-- A group of ENCODE has no accumulator exactly where a byte of it below `N` is unwritten (R76, R115). -/
theorem encodeAcc_none_iff (read : Nat → Option Byte) (n g : Nat) :
    encodeAcc read n g = none ↔ ∃ j, j < 3 ∧ 3 * g + j < n ∧ read (3 * g + j) = none := by
  have h : encodeAcc read n g = none ↔ ∃ j, j < 3 ∧ extended read n (3 * g + j) = none := by
    rw [exists_lt_three fun j => extended read n (3 * g + j) = none]
    unfold encodeAcc
    cases extended read n (3 * g) <;> cases extended read n (3 * g + 1) <;> cases extended read n (3 * g + 2) <;> simp_all
  simp only [h, extended_none_iff]

/-- A group of DECODE has no accumulator exactly where a symbol of it is unwritten (R93, R115). -/
theorem decodeAcc_none_iff (c : Config) (read : Nat → Option Byte) (g : Nat) :
    decodeAcc c read g = none ↔ ∃ k, k < 4 ∧ read (4 * g + k) = none := by
  rw [exists_lt_four fun k => read (4 * g + k) = none]
  unfold decodeAcc
  cases read (4 * g) <;> cases read (4 * g + 1) <;> cases read (4 * g + 2) <;> cases read (4 * g + 3) <;> simp_all

/-- In a final group that passes, the first two symbols are no pads (R90). -/
theorem not_isPad_of_sound (c : Config) (read : Nat → Option Byte) (final j : Nat) (h : Sound c read final j)
    (ho : j % 4 ≤ 1) : isPad c read j = false := by
  obtain ⟨code, h1, h2⟩ := h
  rw [isPad, h1, Option.map_some]
  cases hc : c.rev code with
  | data v => rfl
  | invalid => rfl
  | padSym =>
    rw [hc] at h2
    by_cases hf : j / 4 = final <;> simp [faultAt, hf, ho] at h2

/-- The pad count of a string that passes is 0, 1 or 2: the defensive check of DECODE never fires (R92). -/
theorem padsOutOfRange_decodePads (c : Config) (read : Nat → Option Byte) (final : Nat)
    (h0 : Sound c read final (4 * final)) (h1 : Sound c read final (4 * final + 1)) :
    padsOutOfRange (decodePads c read final) = false := by
  have e0 := not_isPad_of_sound c read final (4 * final) h0 (by omega)
  have e1 := not_isPad_of_sound c read final (4 * final + 1) h1 (by omega)
  have hr : List.range 4 = [0, 1, 2, 3] := rfl
  unfold decodePads
  rw [hr]
  simp only [List.filter_cons, Nat.add_zero, e0, e1, Bool.false_eq_true, if_false, List.filter_nil]
  cases isPad c read (4 * final + 2) <;> cases isPad c read (4 * final + 3) <;> decide

theorem padsOutOfRange_of_pass (c : Config) (read : Nat → Option Byte) (n : Nat) (h4 : n % 4 = 0) (hn : n / 4 ≠ 0)
    (h : scanFrom c read (n / 4 - 1) n 0 = .pass) : padsOutOfRange (decodePads c read (n / 4 - 1)) = false := by
  have := (scanFrom_pass_iff c read (n / 4 - 1) n 0).mp h
  exact padsOutOfRange_decodePads c read _ (this _ (by omega) (by omega)) (this _ (by omega) (by omega))

/-- A CHECK step's next state: an error raised, of a class that is not INVALID_INTERNAL_STATE, or the command begun
(R110). -/
theorem checkStep_cases (c : Config) (s t : State) (h : checkStep c s = .next t) :
    (t = s.raise .notImplemented) ∨
    (∃ cause pos, t = s.raise (.invalidParameter cause pos) ∧ cause ≠ .none) ∨
    (s.opl = 0#2 ∧ s.nl.toNat ≤ c.inCap ∧
      t = s.beginRun (encodePads s.nl.toNat) (encodeGroupCount s.nl.toNat (encodePads s.nl.toNat))) ∨
    (s.opl = 1#2 ∧ s.nl.toNat = 0 ∧ t = s.beginRun 0#2 0) ∨
    (s.opl = 1#2 ∧ s.nl.toNat ≤ c.inCap ∧ s.nl.toNat % 4 = 0 ∧ s.nl.toNat / 4 ≠ 0 ∧
      scanFrom c s.inRead (s.nl.toNat / 4 - 1) s.nl.toNat 0 = .pass ∧
      t = s.beginRun (decodePads c s.inRead (s.nl.toNat / 4 - 1)) (s.nl.toNat / 4)) := by
  unfold checkStep at h
  split at h
  · cases h; exact .inl rfl
  rename_i hop
  split at h
  · cases h; exact .inr (.inl ⟨_, _, rfl, by decide⟩)
  rename_i hcap
  split at h
  · rename_i h0
    simp only [checkEncode, padsOutOfRange_encodePads, Bool.false_eq_true, if_false] at h
    cases h
    exact .inr (.inr (.inl ⟨h0, by omega, rfl⟩))
  rename_i h0
  have h1 : s.opl = 1#2 := by
    have := s.opl.isLt
    have n0 : s.opl.toNat ≠ 0 := fun e => h0 (BitVec.eq_of_toNat_eq e)
    have n2 : s.opl.toNat ≠ 2 := fun e => hop (.inl (BitVec.eq_of_toNat_eq e))
    have n3 : s.opl.toNat ≠ 3 := fun e => hop (.inr (BitVec.eq_of_toNat_eq e))
    exact BitVec.eq_of_toNat_eq (by simp; omega)
  unfold checkDecode at h
  split at h
  · cases h; exact .inr (.inl ⟨_, _, rfl, by decide⟩)
  rename_i h4
  simp only at h
  split at h
  · rename_i hz
    cases h
    exact .inr (.inr (.inr (.inl ⟨h1, by omega, rfl⟩)))
  rename_i hg
  split at h
  · cases h
  · rename_i cause pos hs
    cases h
    refine .inr (.inl ⟨_, _, rfl, ?_⟩)
    have := scanFrom_bad_hasPosition _ _ _ _ _ _ _ hs
    rintro rfl; cases this
  · rename_i hs
    rw [padsOutOfRange_of_pass c _ _ (by omega) hg hs] at h
    simp only [Bool.false_eq_true, if_false] at h
    cases h
    exact .inr (.inr (.inr (.inr ⟨h1, by omega, by omega, hg, hs, rfl⟩)))

/-- A RUN step's next state: one group's output written, and the group finished (R111). -/
theorem runStep_cases (c : Config) (s t : State) (h : runStep c s = .next t) :
    (s.opl = 0#2 ∧ ∃ acc, encodeAcc s.inRead s.nl.toNat s.gidx.toNat = some acc ∧
      t = ({ s with acc := acc }.outWrite (4 * s.gidx.toNat) (encodeGroup c acc s.lastGroup s.padsI)).finishGroup) ∨
    (s.opl ≠ 0#2 ∧ ∃ acc, decodeAcc c s.inRead s.gidx.toNat = some acc ∧
      t = ({ s with acc := acc }.outWrite (3 * s.gidx.toNat) (decodeGroup acc s.lastGroup s.padsI)).finishGroup) := by
  unfold runStep at h
  split at h
  · rename_i h0
    unfold runEncode at h
    split at h
    · cases h
    · rename_i acc ha
      cases h
      exact .inl ⟨h0, acc, ha, rfl⟩
  · rename_i h0
    unfold runDecode at h
    split at h
    · cases h
    · rename_i acc ha
      cases h
      exact .inr ⟨h0, acc, ha, rfl⟩

@[simp] theorem encodeGroup_length (c : Config) (acc : Accum) (last : Bool) (pads : BitVec 2) :
    (encodeGroup c acc last pads).length = 4 := rfl

theorem decodeGroup_length (acc : Accum) (last : Bool) (pads : BitVec 2) :
    (decodeGroup acc last pads).length = if last then 3 - pads.toNat else 3 := by
  unfold decodeGroup
  cases last <;> simp

/-- The engine has a step only in CHECK and RUN (R103, R109). -/
theorem engineStep_of_not_working (c : Config) (s : State) (h : ¬s.Working) : engineStep c s = .next s := by
  unfold engineStep State.Working at *
  cases hp : s.phase <;> simp_all

theorem engineStep_of_check (c : Config) (s : State) (h : s.phase = .check) : engineStep c s = checkStep c s := by
  simp [engineStep, h]

theorem engineStep_of_run (c : Config) (s : State) (h : s.phase = .run) : engineStep c s = runStep c s := by
  simp [engineStep, h]

end Sys2Proof.Machine
end

