-- ==== Sys2Proof/Laws/Bus.lean ====
section
/-! SUPPORT. What a host access, an event and a step can do, said once. -/

namespace Sys2Proof.Machine

theorem State.SameBlock.refl (s : State) : s.SameBlock s := rfl

theorem State.SameBlock.symm {s t : State} (h : s.SameBlock t) : t.SameBlock s := by
  cases s; cases t; cases h; rfl

theorem State.SameBlock.trans {s t u : State} (h : s.SameBlock t) (k : t.SameBlock u) : s.SameBlock u := by
  cases s; cases t; cases u; cases h; cases k; rfl

/-- The events to come are no part of the block. -/
theorem State.sameBlock_setPending (s : State) (es : List Event) : s.SameBlock (s.setPending es) := rfl

/-- What an admitted host access can do to the state (R41 to R43, R104, R105, R113). -/
inductive HostEffect (c : Config) (s : State) : State → Prop
  | observe (w : Word) : HostEffect c s (s.observe w)
  | observeByte (b : Option Byte) : HostEffect c s (s.observeByte b)
  | setOp (op : BitVec 2) : HostEffect c s (s.setOp op)
  | start (op : BitVec 2) : HostEffect c s (s.start op)
  | writeInLen (w : Word) : HostEffect c s (s.writeInLen w)
  | writeInBuf (i : Nat) (b : Byte) : HostEffect c s (s.writeInBuf c.inCap i b)
  | nothing : HostEffect c s s

/-- An instruction answers a next state, which one of the host's effects gives. -/
theorem exec_effect (c : Config) (i : Instr) (s : State) : ∃ t, exec i s = .next t ∧ HostEffect c s t := by
  cases i with
  | setop op => exact ⟨_, rfl, .setOp op⟩
  | encode => exact ⟨_, rfl, .start _⟩
  | decode => exact ⟨_, rfl, .start _⟩
  | rsvd2 => exact ⟨_, rfl, .start _⟩
  | rsvd3 => exact ⟨_, rfl, .start _⟩

/-- An admitted access answers a next state, which one of the host's effects gives. -/
theorem performAccess_effect (c : Config) (s : State) (a : Access) :
    ∃ t, performAccess c s a = .next t ∧ HostEffect c s t := by
  cases a with
  | rd32 addr => exact ⟨_, rfl, .observe _⟩
  | rd8 addr => exact ⟨_, rfl, .observeByte _⟩
  | wr8 addr b =>
    refine ⟨_, rfl, ?_⟩
    unfold writeBuffer
    split
    · exact .writeInBuf _ _
    · exact .nothing
  | wr32 addr w =>
    simp only [performAccess, writeRegister]
    split
    · exact exec_effect c _ s
    · split
      · exact ⟨_, rfl, .writeInLen w⟩
      · exact ⟨_, rfl, .nothing⟩

/-- A read, in any phase, changes nothing of the block (R49). -/
theorem performAccess_read (c : Config) (s : State) (a : Addr) :
    performAccess c s (.rd32 a) = .next (s.observe (readRegister c s a)) ∧
    performAccess c s (.rd8 a) = .next (s.observeByte (readBuffer c s a)) := ⟨rfl, rfl⟩

theorem performTransaction_of_ok (c : Config) (s : State) (t : Transaction) (a : Access) (h : decodeAccess t = .ok a) :
    performTransaction c s t = performAccess c s a := by simp [performTransaction, h]

theorem performTransaction_of_error (c : Config) (s : State) (t : Transaction) (e : AccessError)
    (h : decodeAccess t = .error e) : performTransaction c s t = .refused (.hostAccess e) := by
  simp [performTransaction, h]

theorem stepWith_of_nil (c : Config) (s : State) (h : s.pending = []) : stepWith c s = engineStep c s := by
  simp [stepWith, h]

theorem stepWith_of_cons (c : Config) (s : State) (e : Event) (es : List Event) (h : s.pending = e :: es) :
    stepWith c s = performEvent c (s.setPending es) e := by simp [stepWith, h]

/-- A step that answers a next state is the engine's, a reset, or a host access's effect (R53, R139). -/
theorem stepWith_cases (c : Config) (s t : State) (h : stepWith c s = .next t) :
    ∃ es, (engineStep c (s.setPending es) = .next t ∧ (s.pending = es ∨ s.pending = .engine :: es)) ∨
      (s.pending = .reset :: es ∧ t = (s.setPending es).resetBlock) ∨
      (∃ tr, s.pending = .access tr :: es ∧ HostEffect c (s.setPending es) t) := by
  cases hp : s.pending with
  | nil =>
    have : s.setPending [] = s := by cases s; cases hp; rfl
    exact ⟨[], .inl ⟨by rw [this, ← stepWith_of_nil c s hp]; exact h, .inl rfl⟩⟩
  | cons e es =>
    rw [stepWith_of_cons c s e es hp] at h
    refine ⟨es, ?_⟩
    cases e with
    | engine => exact .inl ⟨h, .inr rfl⟩
    | reset => cases h; exact .inr (.inl ⟨rfl, rfl⟩)
    | access tr =>
      refine .inr (.inr ⟨tr, rfl, ?_⟩)
      simp only [performEvent] at h
      cases hd : decodeAccess tr with
      | error e => rw [performTransaction_of_error c _ _ _ hd] at h; cases h
      | ok a =>
        rw [performTransaction_of_ok c _ _ _ hd] at h
        obtain ⟨u, hu, he⟩ := performAccess_effect c (s.setPending es) a
        rw [hu] at h; cases h; exact he

/-- In a phase other than IDLE a host access changes nothing of the block (R113). -/
theorem HostEffect.sameBlock_of_not_idle {c : Config} {s t : State} (h : HostEffect c s t) (hp : s.phase ≠ .idle) :
    s.SameBlock t := by
  cases h with
  | observe w => rfl
  | observeByte b => cases b <;> rfl
  | setOp op => rw [State.setOp_of_not_idle s op hp]; rfl
  | start op => rw [State.start_of_not_idle s op hp]; rfl
  | writeInLen w => rw [State.writeInLen_of_not_idle s w hp]; rfl
  | writeInBuf i b => rw [State.writeInBuf_of_not_idle s _ i b hp]; rfl
  | nothing => rfl

end Sys2Proof.Machine
end

