-- ==== Sys2Proof/Laws/PerInstr.lean ====
section
/-! SUPPORT. The laws stated per instruction, one lemma per constructor. -/

namespace Sys2Proof.Laws.IgnoredBits

/-- Whatever the ignored bits [31:3] of a command word hold, it decodes to the instruction of its bits [2:0] (R67). -/
def Statement (i : Instr) : Prop :=
  ∀ r : BitVec 29, decodeCtrl (r ++ (Sys2Proof.encode i).extractLsb' 0 3 : BitVec 32) = i

theorem getLsbD_low (r : BitVec 29) (x : BitVec 3) (k : Nat) (hk : k < 3) :
    (r ++ x : BitVec 32).getLsbD k = x.getLsbD k := by
  have h := BitVec.getLsbD_append (x := r) (y := x) (i := k)
  rw [if_pos hk] at h
  exact h

theorem startField_append (r : BitVec 29) (x : BitVec 3) : startField (r ++ x : BitVec 32) = x.extractLsb' 0 1 := by
  apply BitVec.eq_of_getLsbD_eq
  intro k hk
  have h := getLsbD_low r x k (by omega)
  unfold startField
  rw [BitVec.getLsbD_extractLsb', BitVec.getLsbD_extractLsb', Nat.zero_add, h]

theorem opField_append (r : BitVec 29) (x : BitVec 3) : opField (r ++ x : BitVec 32) = x.extractLsb' 1 2 := by
  apply BitVec.eq_of_getLsbD_eq
  intro k hk
  have h := getLsbD_low r x (1 + k) (by omega)
  unfold opField
  rw [BitVec.getLsbD_extractLsb', BitVec.getLsbD_extractLsb', h]

theorem setop (op : BitVec 2) : Statement (.setop op) := by
  intro r
  simp only [decodeCtrl, startField_append, opField_append]
  revert op; decide

theorem encode : Statement .encode := by
  intro r
  simp only [decodeCtrl, startField_append, opField_append]
  decide

theorem decode : Statement .decode := by
  intro r
  simp only [decodeCtrl, startField_append, opField_append]
  decide

theorem rsvd2 : Statement .rsvd2 := by
  intro r
  simp only [decodeCtrl, startField_append, opField_append]
  decide

theorem rsvd3 : Statement .rsvd3 := by
  intro r
  simp only [decodeCtrl, startField_append, opField_append]
  decide

end Sys2Proof.Laws.IgnoredBits
end

