-- ==== Sys2Proof/Machine/Assembler.lean ====
section
/-! DEFINITION. The host assembler notation as text: a line of a host program, its parser, and its expansion into
accesses (R70, R71, R72).  What the notation leaves open is log 19 and log 20. -/

namespace Sys2Proof.Machine

/-- `<reg>`: a register's name or an 18-bit address (R70). -/
inductive RegRef where
  | named (r : Reg)
  | at (addr : Addr)
  deriving DecidableEq, Repr

/-- A line of a host program: an access of R70 or a pseudo-instruction of R71. -/
inductive Line where
  | wr32 (r : RegRef) (imm : Word)
  | rd32 (r : RegRef)
  | wr8In (i : BitVec 16) (imm : Byte)
  | rd8In (i : BitVec 16)
  | rd8Out (i : Len)
  | loadIn (i : BitVec 16) (bytes : List Byte)
  | loadStr (i : BitVec 16) (text : List Char)
  | encodeN (n : Word)
  | decodeN (n : Word)
  | setop (op : BitVec 2)
  | wait
  | readout
  deriving DecidableEq, Repr

/-- The address a `<reg>` names (R70). -/
def RegRef.addr : RegRef → Addr
  | .named r => r.addr
  | .at a => a

/-- The accesses a line stands for (R70, R71), in a run where `WAIT` reads `BUSY = 1` `extra` times and `OUT_LEN` reads
`m`: the schedule chooses the first and the block the second. -/
def Line.expand (extra m : Nat) : Line → List Access
  | .wr32 r w => [.wr32 r.addr w]
  | .rd32 r => [.rd32 r.addr]
  | .wr8In i b => [Machine.wr8In i b]
  | .rd8In i => [Machine.rd8In i]
  | .rd8Out i => [Machine.rd8Out i]
  | .loadIn i bs => Machine.loadIn i bs
  | .loadStr i text => Machine.loadStr i text
  | .encodeN n => encodeCommand n
  | .decodeN n => decodeCommand n
  | .setop op => setopCommand op
  | .wait => Machine.wait extra
  | .readout => readOut m

/-- The tokens of a line. -/
inductive Token where
  | word (cs : List Char)
  | quoted (cs : List Char)
  | comma
  | lbracket
  | rbracket
  deriving DecidableEq, Repr

/-- The word read so far, if there is one. -/
def flushWord (acc : List Char) : List Token := if acc.isEmpty then [] else [.word acc.reverse]

/-- The tokens of a text line; `;` starts a comment (R70).  `none` for a string left open. -/
def lexLine : (inQuote : Bool) → (acc : List Char) → List Char → Option (List Token)
  | true, _, [] => none
  | false, acc, [] => some (flushWord acc)
  | true, acc, ch :: cs =>
    if ch = Char.ofNat 0x22 then (lexLine false [] cs).map (Token.quoted acc.reverse :: ·)
    else lexLine true (ch :: acc) cs
  | false, acc, ch :: cs =>
    if ch = ';' then some (flushWord acc)
    else if ch = Char.ofNat 0x22 then (lexLine true [] cs).map (flushWord acc ++ ·)
    else if ch = ' ' then (lexLine false [] cs).map (flushWord acc ++ ·)
    else if ch = ',' then (lexLine false [] cs).map (flushWord acc ++ Token.comma :: ·)
    else if ch = '[' then (lexLine false [] cs).map (flushWord acc ++ Token.lbracket :: ·)
    else if ch = ']' then (lexLine false [] cs).map (flushWord acc ++ Token.rbracket :: ·)
    else lexLine false (ch :: acc) cs

/-- The value of a digit in a base up to 16. -/
def digitValue (base : Nat) (ch : Char) : Option Nat :=
  let n := ch.toNat
  let v := if 0x30 ≤ n ∧ n ≤ 0x39 then n - 0x30
    else if 0x41 ≤ n ∧ n ≤ 0x46 then n - 0x41 + 10
    else if 0x61 ≤ n ∧ n ≤ 0x66 then n - 0x61 + 10
    else base
  if v < base then some v else none

/-- A number's value from its digits, most significant first. -/
def digitsValue (base : Nat) : (acc : Nat) → List Char → Option Nat
  | acc, [] => some acc
  | acc, ch :: cs =>
    match digitValue base ch with
    | some v => digitsValue base (acc * base + v) cs
    | none => none

/-- A decimal or `0x` hexadecimal number (R70). -/
def numberValue : List Char → Option Nat
  | '0' :: 'x' :: d :: ds => digitsValue 16 0 (d :: ds)
  | d :: ds => digitsValue 10 0 (d :: ds)
  | [] => none

/-- A number that fits `w` bits. -/
def fits (w n : Nat) : Option (BitVec w) := if n < 2 ^ w then some (BitVec.ofNat w n) else none

/-- `<imm>`: a number, or a quoted one-character string standing for its code (R70).  The code of a character that is not
printable ASCII, which R13 leaves open, is its Unicode code point, where that fits the width (log 20). -/
def immediate (w : Nat) : Token → Option (BitVec w)
  | .word cs => (numberValue cs).bind (fits w)
  | .quoted [ch] => fits w ch.toNat
  | .quoted _ | .comma | .lbracket | .rbracket => none

/-- A list of immediates with commas between them. -/
def immediates (w : Nat) : List Token → Option (List (BitVec w))
  | [t] => (immediate w t).map ([·])
  | t :: .comma :: ts =>
    match immediate w t, immediates w ts with
    | some v, some vs => some (v :: vs)
    | _, _ => none
  | _ => none

/-- The names of the registers (R70). -/
def regNames : List (List Char × Reg) :=
  [(['C', 'T', 'R', 'L'], .ctrl), (['S', 'T', 'A', 'T', 'U', 'S'], .status),
   (['I', 'N', '_', 'L', 'E', 'N'], .inLen), (['O', 'U', 'T', '_', 'L', 'E', 'N'], .outLen),
   (['E', 'R', 'R', '_', 'P', 'O', 'S'], .errPos), (['C', 'A', 'P', 'S'], .caps),
   (['P', 'A', 'D', 'S', 'Y', 'M'], .padSym)]

/-- A `<reg>` at the front of a list of tokens, and the tokens after it (R70).  The index of `ALPHA[v]` may have any form
of an `<imm>` (log 20). -/
def registerRef : List Token → Option (RegRef × List Token)
  | .word ['A', 'L', 'P', 'H', 'A'] :: .lbracket :: v :: .rbracket :: ts =>
    (immediate 6 v).map fun v => (.named (.alpha v), ts)
  | .word ('0' :: 'x' :: ds) :: ts => ((numberValue ('0' :: 'x' :: ds)).bind (fits 18)).map fun a => (.at a, ts)
  | .word cs :: ts => (regNames.lookup cs).map fun r => (.named r, ts)
  | _ => none

/-- The line a list of tokens is (R70, R71).  An `<i>`, an `<n>` and an `<op>` may have any form of an `<imm>`, a quoted
character too (log 20). -/
def parseTokens : List Token → Option Line
  | .word ['W', 'R', '3', '2'] :: ts =>
    match registerRef ts with
    | some (r, [.comma, imm]) => (immediate 32 imm).map (Line.wr32 r)
    | _ => none
  | .word ['R', 'D', '3', '2'] :: ts =>
    match registerRef ts with
    | some (r, []) => some (.rd32 r)
    | _ => none
  | [.word ['W', 'R', '8'], .word ['I', 'N'], .lbracket, i, .rbracket, .comma, imm] =>
    match immediate 16 i, immediate 8 imm with
    | some i, some b => some (.wr8In i b)
    | _, _ => none
  | [.word ['R', 'D', '8'], .word ['I', 'N'], .lbracket, i, .rbracket] => (immediate 16 i).map .rd8In
  | [.word ['R', 'D', '8'], .word ['O', 'U', 'T'], .lbracket, i, .rbracket] => (immediate 17 i).map .rd8Out
  | .word ['L', 'O', 'A', 'D', 'I', 'N'] :: i :: .comma :: ts =>
    match immediate 16 i, immediates 8 ts with
    | some i, some bs => some (.loadIn i bs)
    | _, _ => none
  | [.word ['L', 'O', 'A', 'D', 'S', 'T', 'R'], i, .comma, .quoted text] =>
    (immediate 16 i).map fun i => .loadStr i text
  | [.word ['E', 'N', 'C', 'O', 'D', 'E'], n] => (immediate 32 n).map .encodeN
  | [.word ['D', 'E', 'C', 'O', 'D', 'E'], n] => (immediate 32 n).map .decodeN
  | [.word ['S', 'E', 'T', 'O', 'P'], op] => (immediate 2 op).map .setop
  | [.word ['W', 'A', 'I', 'T']] => some .wait
  | [.word ['R', 'E', 'A', 'D', 'O', 'U', 'T']] => some .readout
  | _ => none

/-- The line a text is, if it is one (R70, R71). -/
def parseLine (text : List Char) : Option Line := (lexLine false [] text).bind parseTokens

end Sys2Proof.Machine
end

