-- ==== Sys2Proof/Tests/Slice0.lean ====
section
/-! SUPPORT. The model's own tests: well-formedness checks that refuse, words decoded, one command or access at a time
with results from spec/95_test_vectors.md, and a witness for the hypotheses of each statement. -/

namespace Sys2Proof.Tests

open Sys2Proof.Machine

/-- A small block: this hardware's alphabet and a 16-byte `IN_BUF`. -/
def small : Config := Config.ofCap 16

/-- A block after reset with `bs` written to `IN_BUF[0..]` and `IN_LEN` set to their number. -/
def loaded (bs : List Byte) : State :=
  { State.reset with inLen := BitVec.ofNat 17 bs.length, inBuf := Memory.writeFrom [] 0 bs }

/-- A block after reset with one event to come. -/
def facing (e : Event) : State := State.reset.setPending [e]

/-- A block with the host's next bus transaction. -/
def onBus (s : State) (dir : Dir) (width : Nat) (addr : Addr) (data : Word) : State :=
  s.setPending [.access ⟨dir, width, addr, data⟩]

/-- What an outcome's next state satisfies; a fault or refusal satisfies nothing. -/
def Next (o : Host.Outcome State Fault Refusal) (p : State → Bool) : Bool :=
  match o with
  | .next t => p t
  | .fault _ => false
  | .refused _ => false

/-- A command from its START through `n` engine steps. -/
def command (i : Instr) (n : Nat) (s : State) : Host.Outcome State Fault Refusal :=
  match exec i s with
  | .next t => (machineOf small).run n t
  | .fault f => .fault f
  | .refused r => .refused r

/-- The state of a command just started. -/
def started (op : BitVec 2) (bs : List Byte) : State := (loaded bs).start op

/-- `STATUS`, `OUT_LEN`, `ERR_POS` and the first bytes of `OUT_BUF` after a command. -/
def shows (status : Word) (outLen errPos : Nat) (out : List Byte) (t : State) : Bool :=
  t.status.word == status && t.outLen.toNat == outLen && t.errPos.toNat == errPos &&
    (List.range out.length).all fun k => t.outBuf.read k == out[k]?

/-! ## Well-formedness: a term each check refuses -/

theorem test_wf_access_misaligned : (Access.rd32 0x00006#18).wellFormed = false := by decide
theorem test_wf_access_word_in_buffer : (Access.wr32 0x10000#18 0#32).wellFormed = false := by decide
theorem test_wf_access_byte_in_registers : (Access.rd8 0x00004#18).wellFormed = false := by decide
theorem test_wf_access_byte_write_in_registers : (Access.wr8 0x0FFFF#18 0#8).wellFormed = false := by decide
theorem test_wf_access_good : (Access.rd32 0x0FFFC#18).wellFormed = true ∧ (Access.wr8 0x10000#18 0#8).wellFormed = true := by decide
theorem test_wf_capacity_zero : (Config.ofCap 0).capacityLegal = false := by decide
theorem test_wf_capacity_high : (Config.ofCap 65537).capacityLegal = false ∧ (Config.ofCap 65536).capacityLegal = true := by decide
theorem test_wf_alphabet_short : (Config.mk 16 (standardAlphabet.take 63)).alphabetLength = false := by decide
theorem test_wf_alphabet_duplicate : (Config.mk 16 (standardAlphabet.set 63 0x41#8)).alphabetDistinct = false := by decide
theorem test_wf_alphabet_pad : (Config.mk 16 (standardAlphabet.set 63 0x3D#8)).alphabetWithoutPad = false := by decide
theorem test_wf_alphabet_unprintable : (Config.mk 16 (standardAlphabet.set 63 0x20#8)).alphabetPrintable = false := by decide
theorem test_wf_alphabet_unpinned : (Config.mk 16 (standardAlphabet.set 19 0x21#8)).alphabetPinned = false := by decide
theorem test_wf_small : small.legal = true := by decide
theorem test_wf_instructions : (Instr.setop 3#2).wellFormed = true ∧ Instr.rsvd3.wellFormed = true := by decide

/-! ## Decoding: words written out from R63 and R64 (START bit 0, OP bits 2:1) -/

theorem test_decode_setop : decodeCtrl 0b110#32 = .setop 3#2 := by decide
theorem test_decode_encode : decodeCtrl 0b001#32 = .encode := by decide
theorem test_decode_decode : decodeCtrl 0b011#32 = .decode := by decide
theorem test_decode_rsvd2 : decodeCtrl 0b101#32 = .rsvd2 := by decide
theorem test_decode_rsvd3 : decodeCtrl 0b111#32 = .rsvd3 := by decide
theorem test_decode_reserved_bits : decodeCtrl 0xFFFFFFF8#32 = .setop 0#2 ∧ decodeCtrl 0xFFFFFFF9#32 = .encode := by decide
theorem test_encode_words : Sys2Proof.encode .encode = 0x00000001#32 ∧ Sys2Proof.encode (.setop 1#2) = 0x00000002#32 := by decide
theorem test_table_word_too_long : decodeTableWord 64 1 = none ∧ decodeTableWord 32 3 = some .decode := by decide

/-- Vector I18 to I20, and an 8-bit write of 9 bits. -/
theorem test_decode_access_refuses :
    decodeAccess ⟨.read, 1, 0x00004#18, 0#32⟩ = .error .registerWidth ∧
    decodeAccess ⟨.read, 4, 0x00006#18, 0#32⟩ = .error .registerMisaligned ∧
    decodeAccess ⟨.read, 4, 0x10000#18, 0#32⟩ = .error .bufferWidth ∧
    decodeAccess ⟨.write, 1, 0x10000#18, 0x100#32⟩ = .error .byteDataWide := by decide

/-! ## The tables (R24) -/

theorem test_rev_entries :
    small.rev 0x54#8 = .data 19#6 ∧ small.rev 0x2F#8 = .data 63#6 ∧ small.rev 0x3D#8 = .padSym ∧
    small.rev 0x00#8 = .invalid ∧ small.rev 0x2C#8 = .invalid ∧ small.rev 0x7B#8 = .invalid := by decide

/-! ## A program runs -/

/-- From reset, the very next step runs a command word (log 7). -/
theorem test_first_step_runs_the_word :
    step (State.reset.withFetchWord 32 0x3) = exec .decode State.reset := rfl

/-! ## SETOP -/

/-- Vectors I9, I10. -/
theorem test_setop :
    Next (exec (.setop 1#2) State.reset) (fun t => readRegister small t ctrlAddr == 0x2#32 && t.status.word == 0#32) = true ∧
    Next (stepWith small (onBus State.reset .write 4 ctrlAddr 0xFFFFFFF8#32))
      (fun t => readRegister small t ctrlAddr == 0#32 && t.phase == .idle) = true := by decide

/-! ## ENCODE (section 1.1, section 2) -/

/-- Scenario 2: two bytes, one pad; CHECK and one RUN step. -/
theorem test_encode_two_bytes :
    Next (command .encode 2 (loaded [0x4D#8, 0x61#8])) (shows 0x102#32 4 0 [0x54#8, 0x57#8, 0x45#8, 0x3D#8]) = true := by decide

/-- "TWFueQ==": two groups, the first without pads. -/
theorem test_encode_two_groups :
    Next (command .encode 3 (loaded [0x4D#8, 0x61#8, 0x6E#8, 0x79#8]))
      (shows 0x202#32 8 0 [0x54#8, 0x57#8, 0x46#8, 0x75#8, 0x65#8, 0x51#8, 0x3D#8, 0x3D#8]) = true := by decide

/-! ## DECODE (section 3) -/

/-- "aGVsbG8=" is "hello": two groups, the last byte of the second dropped for the pad. -/
theorem test_decode_two_groups :
    Next (command .decode 3 (loaded [0x61#8, 0x47#8, 0x56#8, 0x73#8, 0x62#8, 0x47#8, 0x38#8, 0x3D#8]))
      (shows 0x102#32 5 0 [0x68#8, 0x65#8, 0x6C#8, 0x6C#8, 0x6F#8]) = true := by decide

/-- "TW=E": an alphabet symbol after a pad, cause 4 at index 3, in one engine step. -/
theorem test_decode_misplaced_pad :
    Next (command .decode 1 (loaded [0x54#8, 0x57#8, 0x3D#8, 0x45#8])) (shows 0x46#32 0 3 []) = true := by decide

/-- "TQ==TWFu": a pad outside the final group, cause 3 at index 2; "TWFu!AAA": cause 2 at index 4. -/
theorem test_decode_errors_in_groups :
    Next (command .decode 1 (loaded [0x54#8, 0x51#8, 0x3D#8, 0x3D#8, 0x54#8, 0x57#8, 0x46#8, 0x75#8]))
      (shows 0x36#32 0 2 []) = true ∧
    Next (command .decode 1 (loaded [0x54#8, 0x57#8, 0x46#8, 0x75#8, 0x21#8, 0x41#8, 0x41#8, 0x41#8]))
      (shows 0x26#32 0 4 []) = true := by decide

/-- "TR==" decodes as "TQ==" does (R99); "==*A" reports the pad at 0, not the invalid symbol at 2. -/
theorem test_decode_noncanonical_and_first_fault :
    Next (command .decode 2 (loaded [0x54#8, 0x52#8, 0x3D#8, 0x3D#8])) (shows 0x202#32 1 0 [0x4D#8]) = true ∧
    Next (command .decode 1 (loaded [0x3D#8, 0x3D#8, 0x2A#8, 0x41#8])) (shows 0x46#32 0 0 []) = true := by decide

/-! ## RSVD2, RSVD3, and errors of the dispatch -/

/-- Vector I11. -/
theorem test_rsvd2 :
    Next (command .rsvd2 1 State.reset) (fun t => shows 0xE#32 0 0 [] t && readRegister small t ctrlAddr == 0x4#32) = true := by decide

/-- Vector I12: before the capacity check. -/
theorem test_rsvd3 :
    Next (command .rsvd3 1 { State.reset with inLen := 0x1FFFF#17 }) (shows 0xE#32 0 0 []) = true := by decide

/-- N = `IN_CAP` + 1: cause 5, also before cause 1. -/
theorem test_too_long :
    Next (command .encode 1 { State.reset with inLen := 17#17 }) (shows 0x56#32 0 0 []) = true ∧
    Next (command .decode 1 { State.reset with inLen := 17#17 }) (shows 0x56#32 0 0 []) = true := by decide

/-- Program P6: the CHECK step reads no input, the RUN step faults. -/
theorem test_unwritten_input_faults :
    Next (command .encode 1 { State.reset with inLen := 1#17 }) (fun t => t.phase == .run) = true ∧
    (match command .encode 2 { State.reset with inLen := 1#17 } with | .fault f => f == .uninitInput | _ => false) = true := by decide

/-! ## Host accesses (section 4) -/

/-- Vectors I3 to I6. -/
theorem test_constant_registers :
    readRegister small State.reset 0x00014#18 = 16#32 ∧ readRegister small State.reset 0x00018#18 = 0x3D#32 ∧
    readRegister small State.reset 0x00100#18 = 0x41#32 ∧ readRegister small State.reset 0x0014C#18 = 0x54#32 ∧
    readRegister small State.reset 0x001FC#18 = 0x2F#32 ∧ readRegister small State.reset 0x0001C#18 = 0#32 ∧
    readRegister small State.reset 0x00200#18 = 0#32 ∧ readRegister small State.reset 0x0FFFC#18 = 0#32 := by decide

/-- Vectors I7, I8. -/
theorem test_register_writes :
    Next (stepWith small (onBus State.reset .write 4 0x00004#18 0xFFFFFFFF#32)) (fun t => t.status.word == 0#32) = true ∧
    Next (stepWith small (onBus State.reset .write 4 0x00008#18 0xFFFFFFFF#32))
      (fun t => readRegister small t 0x00008#18 == 0x0001FFFF#32) = true := by decide

/-- Vectors I13, I16 and I17 (16-byte buffer): a written cell reads back, unmapped cells read 0. -/
theorem test_buffer_reads :
    Next (stepWith small (onBus (loaded [0x41#8]) .read 1 0x10000#18 0#32)) (fun t => t.readLog == [0x41#32]) = true ∧
    Next (stepWith small (onBus State.reset .read 1 0x10010#18 0#32)) (fun t => t.readLog == [0#32] && t.draws == 0) = true ∧
    Next (stepWith small (onBus State.reset .read 1 0x20018#18 0#32)) (fun t => t.readLog == [0#32] && t.draws == 0) = true := by decide

/-- Vectors I14, I15: an unwritten cell and a byte past `OUT_LEN` are drawn; one draw each. -/
theorem test_buffer_draws :
    Next (stepWith small (onBus State.reset .read 1 0x10005#18 0#32)) (fun t => t.draws == 1) = true ∧
    Next (stepWith small (onBus State.reset .read 1 0x20000#18 0#32)) (fun t => t.draws == 1) = true := by decide

/-- Vector I22: writes during a command are ignored. -/
theorem test_writes_while_busy_ignored :
    stepWith small (onBus (started 0#2 [0x4D#8]) .write 4 0x00008#18 7#32) = .next (started 0#2 [0x4D#8]) ∧
    stepWith small (onBus (started 0#2 [0x4D#8]) .write 1 0x10000#18 0#32) = .next (started 0#2 [0x4D#8]) ∧
    stepWith small (onBus (started 0#2 [0x4D#8]) .write 4 0x00000#18 3#32) = .next (started 0#2 [0x4D#8]) := ⟨rfl, rfl, rfl⟩

/-- Vector I23: reset during a command. -/
theorem test_reset_during_command :
    stepWith small ((started 0#2 [0x4D#8]).setPending [.reset]) = .next State.reset := rfl

/-! ## The host notation (R70, R71; program P1) -/

theorem test_parse_write :
    parseLine ['W', 'R', '3', '2', ' ', 'I', 'N', '_', 'L', 'E', 'N', ',', ' ', '3', ' ', ';', 'n'] =
      some (.wr32 (.named .inLen) 3#32) := by decide

theorem test_parse_address_and_quote :
    parseLine ['R', 'D', '3', '2', ' ', '0', 'x', '0', '0', '2', '0', '0'] = some (.rd32 (.at 0x200#18)) ∧
    parseLine ['W', 'R', '8', ' ', 'I', 'N', '[', '1', '6', ']', ',', ' ', Char.ofNat 0x22, 'A', Char.ofNat 0x22] =
      some (.wr8In 16#16 0x41#8) := by decide

theorem test_parse_pseudo :
    parseLine ['L', 'O', 'A', 'D', 'I', 'N', ' ', '0', ',', ' ', '0', 'x', '4', 'D', ',', '9', '7'] =
      some (.loadIn 0#16 [0x4D#8, 0x61#8]) ∧
    parseLine ['E', 'N', 'C', 'O', 'D', 'E', ' ', '3'] = some (.encodeN 3#32) ∧
    parseLine ['S', 'E', 'T', 'O', 'P', ' ', '4'] = none := by decide

/-- Program P1's first five transactions. -/
theorem test_program_encoding :
    encodeProgram (loadIn 0#16 [0x4D#8, 0x61#8, 0x6E#8] ++ encodeCommand 3#32) =
      [⟨.write, 1, 0x10000#18, 0x4D#32⟩, ⟨.write, 1, 0x10001#18, 0x61#32⟩, ⟨.write, 1, 0x10002#18, 0x6E#32⟩,
       ⟨.write, 4, 0x00008#18, 3#32⟩, ⟨.write, 4, 0x00000#18, 1#32⟩] := by decide

theorem test_readout : (readOut 2).map encodeAccess =
    [⟨.read, 4, 0x0000C#18, 0#32⟩, ⟨.read, 1, 0x20000#18, 0#32⟩, ⟨.read, 1, 0x20001#18, 0#32⟩] := by decide

/-! ## A run's observation (R155) -/

/-- A block that still works has no observation. -/
theorem test_observation_only_at_the_end :
    (started 0#2 []).observation small = none ∧ (State.reset.observation small).isSome = true := by decide

/-! ## Witnesses: for each statement with hypotheses, states and operands that meet them all -/

/-- ENCODE of one byte in RUN: its one group is next. -/
def encoding : State :=
  { started 0#2 [0x4D#8] with phase := .run, padsI := 2#2, ng := 1#17 }

/-- ENCODE of four bytes with its first group done. -/
def encodingLast : State :=
  { started 0#2 [0x4D#8, 0x61#8, 0x6E#8, 0x79#8] with
    phase := .run, padsI := 2#2, ng := 2#17, gidx := 1#17
    outBuf := Memory.writeFrom [] 0 [0x54#8, 0x57#8, 0x46#8, 0x75#8] }

/-- DECODE of "TWFuTQ==" in RUN, its first group next. -/
def decoding : State :=
  { started 1#2 [0x54#8, 0x57#8, 0x46#8, 0x75#8, 0x54#8, 0x51#8, 0x3D#8, 0x3D#8] with
    phase := .run, padsI := 2#2, ng := 2#17 }

/-- A block that has completed ENCODE of one byte. -/
def completed : State :=
  { loaded [0x4D#8] with
    status := Status.success 2#2, outLen := 4#17
    outBuf := Memory.writeFrom [] 0 [0x54#8, 0x51#8, 0x3D#8, 0x3D#8] }

/-- A block that has completed a DECODE with cause 4 at index 3. -/
def failed : State := (loaded [0x54#8, 0x57#8, 0x3D#8, 0x45#8]).raise (.invalidParameter .padMisplacedInFinalGroup 3)

/-- A LOCKED block, which no run reaches. -/
def lockedUp : State := (loaded [0x4D#8]).raise .invalidInternalState

/-- A block in each phase with one event to come. -/
def at4 (e : Event) : List State :=
  [State.reset.setPending [e], (started 0#2 [0x4D#8]).setPending [e], decoding.setPending [e], lockedUp.setPending [e]]

theorem witness_status_consistent :
    (started 0#2 [0x4D#8]).StatusConsistent ∧ encoding.StatusConsistent ∧ encodingLast.StatusConsistent ∧
    decoding.StatusConsistent ∧ completed.StatusConsistent ∧ failed.StatusConsistent ∧ lockedUp.StatusConsistent := by
  refine ⟨?_, ?_, ?_, ?_, ?_, ?_, ?_⟩ <;> constructor <;> (try simp only [State.Working]) <;> decide

theorem witness_run_ready : encoding.RunReady small ∧ encodingLast.RunReady small ∧ decoding.RunReady small := by
  refine ⟨?_, ?_, ?_⟩ <;> constructor <;> decide

/-- The invariant of a small block in CHECK, in RUN at a first and at a last group, and after a completion. -/
theorem witness_invariant :
    (started 0#2 [0x4D#8]).Inv small ∧ encoding.Inv small ∧ encodingLast.Inv small ∧ decoding.Inv small ∧
    completed.Inv small := by
  obtain ⟨h1, h2, h3, h4, h5, -, -⟩ := witness_status_consistent
  obtain ⟨r2, r3, r4⟩ := witness_run_ready
  refine ⟨⟨?_, ?_, ?_, h1, ?_, ?_, ?_, ?_, ?_, fun h => by cases h⟩, ⟨?_, ?_, ?_, h2, ?_, ?_, ?_, ?_, ?_, fun _ => r2⟩,
    ⟨?_, ?_, ?_, h3, ?_, ?_, ?_, ?_, ?_, fun _ => r3⟩, ⟨?_, ?_, ?_, h4, ?_, ?_, ?_, ?_, ?_, fun _ => r4⟩,
    ⟨?_, ?_, ?_, h5, ?_, ?_, ?_, ?_, ?_, fun h => by cases h⟩⟩ <;>
  (try simp only [State.BuffersCanonical, Memory.Within, State.Latched, State.Working]) <;> decide

/-- Every statement with a legal configuration for a premise: the least, a small and the greatest capacity. -/
theorem witness_legal : small.alphabetLegal = true ∧ small.capacityLegal = true ∧
    (Config.ofCap 1).legal = true ∧ (Config.ofCap 65536).legal = true := by decide

/-- ResetEventRestoresResetState. -/
theorem witness_reset_event : ∀ s ∈ at4 .reset, ∃ es, s.pending = .reset :: es := by
  intro s hs; exact ⟨[], by revert s; decide⟩

/-- ReservedCommandBitsAreIgnored. -/
theorem witness_reserved_bits : (0xFFFFFFF9#32).extractLsb' 0 3 = (0x00000001#32).extractLsb' 0 3 := by decide

/-- HostProgramsRoundTrip. -/
theorem witness_program :
    (∀ a ∈ [Access.wr8 0x1FFFF#18 0xFF#8, .wr32 0x0FFFC#18 0#32, .rd8 0x3FFFF#18, .rd32 0x00000#18], a.wellFormed = true) ∧
    decodeProgram [⟨.read, 1, 0x10000#18, 7#32⟩, ⟨.write, 1, 0x10000#18, 255#32⟩] =
      .ok [.rd8 0x10000#18, .wr8 0x10000#18 0xFF#8] := by decide

/-- StepRunsTheDecodedCommand, SetopStoresOpOnly, StartLatchesTheCommand: a command word in every phase. -/
theorem witness_command_write (w : Word) :
    (∀ s ∈ at4 (.access ⟨.write, 4, 0x00000#18, w⟩), s.pending = .access ⟨.write, 4, 0x00000#18, w⟩ :: []) ∧
    (at4 (.access ⟨.write, 4, 0x00000#18, w⟩)).map (·.phase) = [.idle, .check, .run, .locked] := by
  simp [at4, State.setPending, State.reset, started, State.start, State.takesWrites, loaded, decoding, lockedUp, State.raise,
    EngineError.phaseAfter]

theorem witness_start_bits : (0xFFFFFFF8#32).getLsbD 0 = false ∧ (0xFFFFFFFF#32).getLsbD 0 = true := by decide

/-- CommandWordFrame. -/
theorem witness_command_frame (op : BitVec 2) :
    ∀ i ∈ [Instr.setop op, .encode, .decode, .rsvd2, .rsvd3], ∃ t, exec i (loaded [0x4D#8]) = .next t := by
  simp [exec, execSetop, execEncode, execDecode, execRsvd2, execRsvd3]

/-- The premise of every statement about a host access, at any state. -/
theorem witness_next_access (s : State) (dir : Dir) (width : Nat) (a : Addr) (d : Word) :
    (onBus s dir width a d).pending = .access ⟨dir, width, a, d⟩ :: [] := rfl

/-- RefusedExactlyForUnadmittedForms: each clause at the ends of its region. -/
theorem witness_refused :
    ∀ t ∈ [Transaction.mk .read 1 0x00000#18 0#32, ⟨.write, 4, 0x0FFFE#18, 0#32⟩, ⟨.read, 4, 0x10000#18, 0#32⟩,
      ⟨.write, 2, 0x3FFFF#18, 0#32⟩, ⟨.write, 1, 0x10000#18, 256#32⟩],
      (match stepWith small (facing (.access t)) with | .refused _ => true | _ => false) = true := by decide

/-- RegisterReadsReturnTheirFields: every clause, with the gaps at both their ends. -/
theorem witness_register_reads :
    [0x000#18, 0x004#18, 0x008#18, 0x00C#18, 0x010#18, 0x014#18, 0x018#18, 0x01C#18, 0x0FC#18, 0x100#18, 0x1FC#18,
      0x200#18, 0x0FFFC#18].all (fun a => a.toNat < 0x10000 && a.toNat % 4 == 0) = true := by decide

/-- RegisterWritesStoreOnlyInLen. -/
theorem witness_register_writes :
    [0x004#18, 0x008#18, 0x00C#18, 0x100#18, 0x0FFFC#18].all
      (fun a => a.toNat < 0x10000 && a.toNat % 4 == 0 && a.toNat != 0) = true := by decide

/-- InBufAccesses: written and unwritten cells, the last mapped one and the first and last unmapped ones. -/
theorem witness_in_buf_accesses :
    (∀ i ∈ [0, 1, 15, 16, 0xFFFF], i < 0x10000) ∧ 15 < small.inCap ∧ small.inCap ≤ 16 ∧
    (loaded [0x4D#8]).inBuf.read 0 = some 0x4D#8 ∧ (loaded [0x4D#8]).inBuf.read 1 = none := by decide

/-- OutBufAccesses: the output's last byte, the first byte past it, the last mapped cell, and the unmapped part. -/
theorem witness_out_buf_accesses :
    completed.status.busy = false ∧ 3 < completed.outLen.toNat ∧ completed.outBuf.read 3 = some 0x3D#8 ∧
    completed.outLen.toNat ≤ 4 ∧ 23 < small.outCap ∧ small.outCap ≤ 24 ∧ small.outCap ≤ 0x1FFFF ∧
    encoding.status.busy = true ∧
    Next (stepWith small (onBus completed .read 1 0x20003#18 0#32)) (fun t => t.readLog == [0x3D#32]) = true ∧
    Next (stepWith small (onBus completed .read 1 0x3FFFF#18 0#32)) (fun t => t.readLog == [0#32]) = true := by decide

/-- ReadsHaveNoSideEffect, NoAccessChangesABlockThatIsNotIdle. -/
theorem witness_admitted :
    decodeAccess ⟨.read, 4, 0x00004#18, 0#32⟩ = .ok (.rd32 0x00004#18) ∧
    decodeAccess ⟨.write, 1, 0x10000#18, 9#32⟩ = .ok (.wr8 0x10000#18 9#8) ∧ encoding.phase ≠ .idle ∧ lockedUp.phase ≠ .idle := by decide

/-- OutputStaysUntilTheNextStart: a SETOP, a length and an input byte after a completion. -/
theorem witness_output_stays :
    ∀ t ∈ [Transaction.mk .write 4 0x00000#18 2#32, ⟨.write, 4, 0x00008#18, 1#32⟩, ⟨.write, 1, 0x10000#18, 1#32⟩],
      completed.phase = .idle ∧ ¬(t.dir = .write ∧ t.addr.toNat = 0 ∧ t.data.getLsbD 0 = true) ∧
      Next (stepWith small (completed.setPending [.access t])) (fun u => u.status == completed.status) = true := by decide

/-- ReadsWhileTheEngineWorks. -/
theorem witness_working :
    (started 0#2 [0x4D#8]).Working ∧ (started 0#2 [0x4D#8]).Latched ∧ decoding.Working ∧ decoding.Latched := by
  simp only [State.Working, State.Latched]; decide

/-- EncodeTransformGuarantees, EncodeLastGroupIsCanonical, DecodeLengthLaw, DecodeOfEncodeIsTheInput: both pad counts. -/
theorem witness_transforms :
    encodeBytes small [0x4D#8, 0x61#8] = .ok ([0x54#8, 0x57#8, 0x45#8, 0x3D#8], 1#2) ∧
    encodeBytes small [0x4D#8] = .ok ([0x54#8, 0x51#8, 0x3D#8, 0x3D#8], 2#2) ∧
    decodeSymbols small [0x54#8, 0x51#8, 0x3D#8, 0x3D#8] = .ok ([0x4D#8], 2#2) := by decide

/-- SymbolsAreClassified: each premise, at the group's edges. -/
theorem witness_classified :
    7 / 4 = 1 ∧ 4 / 4 = 1 ∧ 5 % 4 ≤ 1 ∧ 2 ≤ 6 % 4 ∧ 3 / 4 ≠ 1 ∧
    faultAt 1 7 (some .padSym) (.data 0#6) = some .padMisplacedInFinalGroup ∧
    faultAt 1 3 (some .padSym) (.data 0#6) = none := by decide

/-- ScanReportsTheFirstFault: "TW=E" and "TWE=". -/
theorem witness_scan :
    scanFrom small (listRead [0x54#8, 0x57#8, 0x3D#8, 0x45#8]) 0 4 0 = .bad .padMisplacedInFinalGroup 3 ∧
    scanFrom small (listRead [0x54#8, 0x57#8, 0x45#8, 0x3D#8]) 0 4 0 = .pass := by decide

/-- DecodeAcceptsExactlyPaddedStrings, DecodeRejectsOnlyInvalidParameters: "TQ==", "TWF", and a fault at the first and
at the last symbol. -/
theorem witness_acceptance :
    [0x54#8, 0x51#8, 0x3D#8, 0x3D#8] = [0x54#8, 0x51#8] ++ List.replicate 2 padCode ∧
    (∀ y ∈ [0x54#8, 0x51#8], y ∈ small.alphabet) ∧
    decodeSymbols small [0x54#8, 0x57#8, 0x46#8] = .error (.invalidParameter .lengthNotMultipleOf4 0) ∧
    decodeSymbols small [0x3D#8, 0x41#8, 0x41#8, 0x41#8] = .error (.invalidParameter .padMisplacedInFinalGroup 0) ∧
    decodeSymbols small [0x41#8, 0x41#8, 0x41#8, 0x80#8] = .error (.invalidParameter .symbolNotInAlphabet 3) := by decide

/-- DiscardedBitsDoNotMatter: "TQ==" and "TR==", "TWE=" and "TWF=". -/
theorem witness_discarded_bits :
    (16#6).extractLsb' 4 2 = (17#6).extractLsb' 4 2 ∧ (4#6).extractLsb' 2 4 = (5#6).extractLsb' 2 4 := by decide

/-- EncodeCommandRunsTheTransform: one byte, and a full buffer. -/
theorem witness_ready :
    ∀ bs ∈ [[0x4D#8], List.replicate 16 0xFF#8], (loaded bs).phase = .idle ∧ (loaded bs).pending = [] ∧
      ((loaded bs).inLen.toNat = bs.length ∧ ∀ i, i < bs.length → (loaded bs).inBuf.read i = bs[i]?) ∧
      bs.length ≤ small.inCap := by decide

/-- DecodeCommandRunsTheTransform, DecodeCommandReportsTheError: "TQ==" and "TW=E". -/
theorem witness_ready_decode :
    ∀ bs ∈ [[0x54#8, 0x51#8, 0x3D#8, 0x3D#8], [0x54#8, 0x57#8, 0x3D#8, 0x45#8]],
      (loaded bs).phase = .idle ∧ (loaded bs).pending = [] ∧
      ((loaded bs).inLen.toNat = bs.length ∧ ∀ i, i < bs.length → (loaded bs).inBuf.read i = bs[i]?) ∧
      bs.length ≤ small.inCap ∧ decodeSymbols small bs ∈
        [.ok ([0x4D#8], 2#2), .error (.invalidParameter .padMisplacedInFinalGroup 3)] := by decide

/-- CommandsCompleteInIdle, ReservedCommandsEndNotImplemented, EmptyCommandsSucceed (length 0), TooLongCommandsEndWithCause5
(the first length too long and the greatest), DecodeOfMalformedLengthEndsWithCause1 (the longest that fits). -/
theorem witness_commands :
    State.reset.phase = .idle ∧ State.reset.pending = [] ∧ State.reset.inLen = 0#17 ∧
    small.inCap < (17#17).toNat ∧ small.inCap < (0x1FFFF#17).toNat ∧ (15#17).toNat ≤ small.inCap ∧ (15#17).toNat % 4 ≠ 0 := by decide

/-- RoundTripThroughTheBlock: one byte out, its four symbols back in, and a capacity that just holds them. -/
theorem witness_round_trip :
    4 * (([0x4D#8].length + 2) / 3) ≤ (Config.ofCap 4).inCap ∧
    exec .encode (loaded [0x4D#8]) = .next (started 0#2 [0x4D#8]) ∧
    Next (command .encode 2 (loaded [0x4D#8])) (fun u => u.outLen.toNat == 4 &&
      (List.range 4).all fun k => u.outBuf.read k == (loaded [0x54#8, 0x51#8, 0x3D#8, 0x3D#8]).inBuf.read k) = true :=
  ⟨by decide, rfl, by decide⟩

/-- OutcomeDependsOnlyOnTheOperands: a block after reset and one after a failed command, with one input. -/
theorem witness_same_operands :
    let s := loaded [0x4D#8]
    let s' := { failed with inLen := 1#17, inBuf := Memory.writeFrom [] 0 [0x4D#8, 0x61#8] }
    s.phase = .idle ∧ s'.phase = .idle ∧ s.pending = [] ∧ s'.pending = [] ∧ s.inLen = s'.inLen ∧ s ≠ s' ∧
    (∀ k, k < s.inLen.toNat → s.inBuf.read k = s'.inBuf.read k) := by decide

/-- EngineStepDependsOnTheBlockAlone: other events, reads and draws around one block. -/
theorem witness_same_block :
    encoding.SameBlock { encoding with pending := [.reset], readLog := [7#32], draws := 3 } := rfl

/-- InterleavedAccessesDoNotMatter: DECODE of "TWFuTQ==", polled and written to around its first RUN step, and then a
step that completes it. -/
theorem witness_interleaved :
    let fs := [Event.access ⟨.read, 4, 0x00004#18, 0#32⟩, .access ⟨.write, 1, 0x10000#18, 0#32⟩, .engine,
      .access ⟨.write, 4, 0x00000#18, 1#32⟩]
    (∀ e ∈ fs, e = .engine ∨ ∃ t a, e = .access t ∧ decodeAccess t = .ok a) ∧
    ((decoding.setPending (fs ++ [.engine])).pending = fs ++ .engine :: []) ∧ fs.count .engine = 1 ∧
    (∀ k, k ≤ 1 → ∃ v : State, (machineOf small).run k decoding = .next v ∧ v.Working) := by
  refine ⟨?_, rfl, rfl, ?_⟩
  · intro e he
    simp only [List.mem_cons, List.not_mem_nil, or_false] at he
    obtain rfl | rfl | rfl | rfl := he
    · exact .inr ⟨_, _, rfl, rfl⟩
    · exact .inr ⟨_, _, rfl, rfl⟩
    · exact .inl rfl
    · exact .inr ⟨_, _, rfl, rfl⟩
  · intro k hk
    obtain rfl | rfl : k = 0 ∨ k = 1 := by omega
    · exact ⟨_, rfl, .inr rfl⟩
    · exact ⟨_, rfl, .inr rfl⟩

theorem witness_same_operands_start (s : State) : ∃ t, exec .encode s = .next t := ⟨_, rfl⟩

/-- EngineIsNeverStuck, EveryCommandEnds: with `witness_invariant`. -/
theorem witness_input_written :
    encoding.InputWritten ∧ encodingLast.InputWritten ∧ decoding.InputWritten ∧ decoding.pending = [] := by
  simp only [State.InputWritten]; decide

/-- LoadedInputIsStored: two bytes that end at the buffer's end. -/
theorem witness_loaded_input :
    (14#16).toNat + [0x4D#8, 0x61#8].length ≤ small.inCap ∧
    (State.afterReset (programEvents (loadIn 14#16 [0x4D#8, 0x61#8]))).phase = .idle ∧
    (State.afterReset (programEvents (loadIn 14#16 [0x4D#8, 0x61#8]))).pending =
      programEvents (loadIn 14#16 [0x4D#8, 0x61#8]) ++ [] := by decide

/-- FaultsOnlyOnUnwrittenInput: the last byte of a group is unwritten. -/
theorem witness_fault :
    (match stepWith small { encoding with inLen := 3#17, nl := 3#17, padsI := 0#2 } with
      | .fault f => f == .uninitInput | _ => false) = true ∧
    encoding.phase = .run ∧ encoding.opl = 0#2 := by decide

/-- FaultsOnlyOnUnwrittenInput: in CHECK, DECODE of "TW" with two cells unwritten faults; of "=A" it reports the fault at
0 instead, and ENCODE reads nothing.  In RUN, a symbol of the group is unwritten. -/
theorem witness_fault_check :
    (match engineStep small { started 1#2 [0x54#8, 0x57#8] with nl := 4#17 } with
      | .fault f => f == .uninitInput | _ => false) = true ∧
    Next (engineStep small { started 1#2 [0x3D#8, 0x41#8] with nl := 4#17 }) (fun t => t.status.word == 0x46#32) = true ∧
    Next (engineStep small { started 0#2 [] with nl := 4#17 }) (fun t => t.phase == .run) = true ∧
    (match engineStep small { decoding with gidx := 2#17 } with
      | .fault f => f == .uninitInput | _ => false) = true := by decide

/-- CheckErrorsInOrderOfPriority: with two errors at once, the first is reported. -/
theorem witness_check_errors :
    let s : State := { started 1#2 [] with nl := 17#17 }
    s.phase = .check ∧ small.inCap < s.nl.toNat ∧ s.nl.toNat % 4 ≠ 0 ∧
    ({ s with opl := 3#2 } : State).opl.toNat ≥ 2 ∧ ({ s with nl := 15#17 } : State).nl.toNat % 4 ≠ 0 := by decide

/-- ErrorsArePrecise: a CHECK step that ends in an error; with `witness_status_consistent`. -/
theorem witness_precise :
    (started 1#2 [0x3D#8, 0x3D#8, 0x3D#8, 0x3D#8]).phase = .check ∧
    Next (engineStep small (started 1#2 [0x3D#8, 0x3D#8, 0x3D#8, 0x3D#8])) (fun t => t.status.err == .invalidParameter) = true ∧
    (started 1#2 [0x3D#8, 0x3D#8, 0x3D#8, 0x3D#8]).StatusConsistent := by
  refine ⟨by decide, by decide, ?_⟩
  constructor <;> (try simp only [State.Working]) <;> decide

/-- EncodeGroupStep: a last group with one input byte, and the last of two. -/
theorem witness_encode_group :
    ∀ p ∈ [(encoding, 0x4D#8), (encodingLast, 0x79#8)],
      p.1.phase = .run ∧ p.1.opl = 0#2 ∧ p.1.gidx.toNat < p.1.ng.toNat ∧
      ∀ j, j < 3 → (3 * p.1.gidx.toNat + j < p.1.nl.toNat →
          p.1.inBuf.read (3 * p.1.gidx.toNat + j) = some (if j = 0 then p.2 else 0#8)) ∧
        (p.1.nl.toNat ≤ 3 * p.1.gidx.toNat + j → (if j = 0 then p.2 else 0#8) = 0#8) := by decide

/-- DecodeGroupStep: the first group of "TWFuTQ==", and its last, with pads. -/
theorem witness_decode_group :
    ∀ p ∈ [(decoding, [0x54#8, 0x57#8, 0x46#8, 0x75#8], [19#6, 22#6, 5#6, 46#6]),
        ({ decoding with gidx := 1#17 }, [0x54#8, 0x51#8, 0x3D#8, 0x3D#8], [19#6, 16#6, 0#6, 0#6])],
      p.1.phase = .run ∧ p.1.opl ≠ 0#2 ∧ p.1.gidx.toNat < p.1.ng.toNat ∧
      ∀ k, k < 4 → p.1.inBuf.read (4 * p.1.gidx.toNat + k) = some (p.2.1.getD k 0#8) ∧
        (small.rev (p.2.1.getD k 0#8) = .data (p.2.2.getD k 0#6) ∨
          (small.rev (p.2.1.getD k 0#8) = .padSym ∧ p.2.2.getD k 0#6 = 0#6)) := by decide

/-- InvariantIsKeptByEveryStep: this hardware, after reset, with a command word next; see `witness_invariant` too. -/
theorem witness_device_invariant :
    (onBus State.reset .write 4 0x00000#18 1#32).Inv Config.device ∧
    ∃ t, step (onBus State.reset .write 4 0x00000#18 1#32) = .next t := by
  refine ⟨⟨?_, ?_, ?_, ?_, ?_, ?_, ?_, ?_, ?_, fun h => by cases h⟩, _, rfl⟩
  case refine_4 => constructor <;> (try simp only [State.Working]) <;> decide
  case refine_8 => exact Nat.zero_le _
  all_goals (try simp only [State.BuffersCanonical, State.Latched, State.Working, Memory.Within])
  all_goals decide

/-- BuffersStayCanonical, StatusStaysConsistent, InternalStateErrorIsNeverRaised, LockedIsLeftOnlyByReset: a step of a
LOCKED block that meets the premises. -/
theorem witness_locked_step :
    lockedUp.BuffersCanonical ∧ lockedUp.phase = .locked ∧ (∃ t, stepWith small lockedUp = .next t) ∧
    (∃ t, step lockedUp = .next t) ∧ (∀ es, lockedUp.pending ≠ .reset :: es) ∧
    encoding.phase ≠ .locked ∧ encoding.status.err ≠ .invalidInternalState := by
  refine ⟨by simp only [State.BuffersCanonical]; decide, by decide, ⟨_, rfl⟩, ⟨_, rfl⟩, ?_, by decide, by decide⟩
  intro es h; cases h

/-- StatusReadsAsOneOfTheListedValues: a block at rest that has completed nothing; with `witness_invariant` for the other
clauses. -/
theorem witness_status_before_first : (loaded [0x4D#8]).Inv small ∧ ¬(loaded [0x4D#8]).Working ∧
    (loaded [0x4D#8]).status.done = false := by
  refine ⟨⟨?_, ?_, ?_, ?_, ?_, ?_, ?_, ?_, ?_, fun h => by cases h⟩, ?_, ?_⟩
  case refine_4 => constructor <;> (try simp only [State.Working]) <;> decide
  all_goals (try simp only [State.BuffersCanonical, State.Latched, State.Working, Memory.Within])
  all_goals decide

/-- StatusReadsAsOneOfTheListedValues: with `witness_invariant`. -/
theorem witness_status_values : completed.status.done = true ∧ completed.status.word = 0x202#32 ∧ encoding.Working := by
  simp only [State.Working]; decide

end Sys2Proof.Tests
end

section
/-! The hardware's configuration (R6, R9 to R11): its capacity, its alphabet, and the machine it makes. -/

namespace Sys2Proof

/-- R9: the standard alphabet passes all four checks, and they do not look at the capacity. -/
theorem Config.ofCap_alphabetLegal (cap : Nat) : (Config.ofCap cap).alphabetLegal = true := by
  have hlength : (Config.ofCap cap).alphabetLength = true := rfl
  have hdistinct : (Config.ofCap cap).alphabetDistinct = true :=
    decide_eq_true (by decide : standardAlphabet.Nodup)
  have hpad : (Config.ofCap cap).alphabetWithoutPad = true := rfl
  have hprintable : (Config.ofCap cap).alphabetPrintable = true := rfl
  simp only [Config.alphabetLegal, hlength, hdistinct, hpad, hprintable, Bool.and_self]

/-- R11: the standard alphabet has the six pinned entries. -/
theorem Config.ofCap_alphabetPinned (cap : Nat) : (Config.ofCap cap).alphabetPinned = true := rfl

theorem Config.capacityLegal_iff (c : Config) :
    c.capacityLegal = true ↔ 1 ≤ c.inCap ∧ c.inCap ≤ 65536 := by
  simp [Config.capacityLegal]

/-- With the standard alphabet only the capacity decides whether a configuration is legal. -/
theorem Config.ofCap_legal (cap : Nat) :
    (Config.ofCap cap).legal = (Config.ofCap cap).capacityLegal := by
  simp [Config.legal, Config.ofCap_alphabetLegal, Config.ofCap_alphabetPinned]

/-- One more than a 16-bit value lies in 1..65536 (R6), whatever that value is (log 1). -/
theorem Config.device_capacityLegal : Config.device.capacityLegal = true :=
  (Config.capacityLegal_iff _).mpr ⟨Nat.le_add_left 1 _, Config.inCapLessOne.isLt⟩

theorem Config.device_legal : Config.device.legal = true :=
  (Config.ofCap_legal _).trans Config.device_capacityLegal

/-- R10: the 64 entries of the standard alphabet, as the runs `A..Z`, `a..z`, `0..9` and the codes of `+` and `/`. -/
theorem standardAlphabet_getD (v : Seg) : standardAlphabet.getD v.toNat 0#8 =
    if v.toNat ≤ 25 then BitVec.ofNat 8 (0x41 + v.toNat)
    else if v.toNat ≤ 51 then BitVec.ofNat 8 (0x61 + (v.toNat - 26))
    else if v.toNat ≤ 61 then BitVec.ofNat 8 (0x30 + (v.toNat - 52))
    else if v.toNat = 62 then 0x2B#8 else 0x2F#8 := by
  revert v; decide

theorem Machine.core_eq_machineOf_device : core = machineOf Config.device := rfl

/-- Settles O1: `core`'s step is `stepWith` at the device's configuration, a 16-bit value plus one is a legal capacity,
and `symbol` reads the standard alphabet's entry. -/
theorem deviceIsALegalMachine : Obligations.DeviceIsALegalMachine :=
  ⟨Machine.core_eq_machineOf_device, Config.device_legal, standardAlphabet_getD⟩

end Sys2Proof
end

section
/-! What every step keeps, packaged once; the canonical form of the buffers (R34, R35, log 13); and the consistency of
`STATUS`, `OUT_LEN`, `ERR_POS` and `PHASE` (R26, R29, R103, R122, R123, R126, R127). -/

namespace Sys2Proof.Machine

/-- A property kept by a change of the events to come, by a reset, by every host effect and by the engine's CHECK and RUN
steps is kept by every step (R53, R139). -/
theorem stepWith_preserves {c : Config} {P : State → Prop} (hpending : ∀ s es, P s → P (s.setPending es))
    (hreset : ∀ s, P s → P s.resetBlock) (hhost : ∀ s t, P s → HostEffect c s t → P t)
    (hcheck : ∀ s t, P s → s.phase = .check → checkStep c s = .next t → P t)
    (hrun : ∀ s t, P s → s.phase = .run → runStep c s = .next t → P t)
    {s t : State} (hs : P s) (h : stepWith c s = .next t) : P t := by
  obtain ⟨es, ⟨he, -⟩ | ⟨-, rfl⟩ | ⟨-, -, he⟩⟩ := stepWith_cases c s t h
  · have hs' := hpending s es hs
    by_cases hw : (s.setPending es).Working
    · rcases hw with hp | hp
      · exact hcheck _ t hs' hp (engineStep_of_check c _ hp ▸ he)
      · exact hrun _ t hs' hp (engineStep_of_run c _ hp ▸ he)
    · rw [engineStep_of_not_working c _ hw] at he
      cases he
      exact hs'
  · exact hreset _ (hpending s es hs)
  · exact hhost _ t (hpending s es hs) he

/-! ## The canonical form of the buffers -/

theorem State.BuffersCanonical.of_inBuf_eq_of_outBuf_eq {s t : State} (h : s.BuffersCanonical)
    (hi : t.inBuf = s.inBuf) (ho : t.outBuf = s.outBuf) : t.BuffersCanonical := by
  simpa only [State.BuffersCanonical, hi, ho] using h

theorem HostEffect.buffersCanonical {c : Config} {s t : State} (h : HostEffect c s t) (hs : s.BuffersCanonical) :
    t.BuffersCanonical := by
  cases h with
  | writeInBuf i b =>
    unfold State.writeInBuf
    split
    · exact ⟨Memory.write_wf _ i b hs.1, hs.2⟩
    · exact hs
  | observe | observeByte | setOp | start | writeInLen | nothing =>
    exact hs.of_inBuf_eq_of_outBuf_eq (by simp) (by simp)

theorem checkStep_buffers {c : Config} {s t : State} (h : checkStep c s = .next t) :
    t.inBuf = s.inBuf ∧ t.outBuf = s.outBuf := by
  obtain rfl | ⟨_, _, rfl, -⟩ | ⟨-, -, rfl⟩ | ⟨-, -, rfl⟩ | ⟨-, -, -, -, -, rfl⟩ := checkStep_cases c s t h
  all_goals exact ⟨by simp, by simp⟩

theorem runStep_buffers {c : Config} {s t : State} (h : runStep c s = .next t) :
    t.inBuf = s.inBuf ∧ ∃ i bs, t.outBuf = s.outBuf.writeFrom i bs := by
  obtain ⟨-, _, -, rfl⟩ | ⟨-, _, -, rfl⟩ := runStep_cases c s t h
  all_goals exact ⟨State.finishGroup_inBuf _, _, _, State.finishGroup_outBuf _⟩

/-- Settles O54: each write of a cell keeps the indices rising, and nothing else changes a buffer but a reset, which
empties both. -/
theorem buffersStayCanonical : Obligations.BuffersStayCanonical := by
  intro c s t hs h
  refine stepWith_preserves (P := State.BuffersCanonical) (fun _ _ h => h) ?reset ?host ?check ?run hs h
  case reset => exact fun _ _ => ⟨List.Pairwise.nil, List.Pairwise.nil⟩
  case host => exact fun _ _ hs he => he.buffersCanonical hs
  case check =>
    intro s t hs _ h
    obtain ⟨hi, ho⟩ := checkStep_buffers h
    exact hs.of_inBuf_eq_of_outBuf_eq hi ho
  case run =>
    intro s t ⟨hin, hout⟩ _ h
    obtain ⟨hi, i, bs, ho⟩ := runStep_buffers h
    exact ⟨hi ▸ hin, ho ▸ Memory.writeFrom_wf bs _ i hout⟩

/-! ## The consistency of `STATUS` -/

/-- The consistency of `STATUS` speaks of `STATUS`, `OUT_LEN`, `ERR_POS` and `PHASE` alone. -/
theorem State.StatusConsistent.congr {s t : State} (h : s.StatusConsistent) (hst : t.status = s.status)
    (ho : t.outLen = s.outLen) (he : t.errPos = s.errPos) (hp : t.phase = s.phase) : t.StatusConsistent := by
  obtain ⟨h1, h2, h3, h4, h5, h6, h7⟩ := h
  constructor <;> simpa only [State.Working, hst, ho, he, hp]

theorem State.statusConsistent_reset : State.reset.StatusConsistent := by
  constructor <;> simp [State.reset, State.Working]

/-- A block whose engine works shows 1 in `STATUS`, and 0 in `OUT_LEN` and `ERR_POS` (R26, R114). -/
theorem State.Working.statusConsistent {s : State} (hw : s.Working) (hst : s.status = Status.inProgress)
    (ho : s.outLen = 0#17) (he : s.errPos = 0#17) : s.StatusConsistent where
  busy_iff := by simp [hst, Status.inProgress, hw]
  while_busy _ := ⟨hst, ho, he⟩
  locked_iff := by
    have hl : s.phase ≠ .locked := by rcases hw with h | h <;> simp [h]
    simp [hst, Status.inProgress, hl]
  cause_iff := by simp [hst, Status.inProgress]
  on_error h := absurd (by rw [hst]; rfl) h
  position h := absurd he h
  before_first h := absurd hw h

theorem State.StatusConsistent.start {s : State} (h : s.StatusConsistent) (op : BitVec 2) :
    (s.start op).StatusConsistent := by
  by_cases hp : s.phase = .idle
  · rw [State.start_of_idle s op hp]
    exact State.Working.statusConsistent (.inl rfl) rfl rfl rfl
  · rwa [State.start_of_not_idle s op hp]

/-- A completion leaves `DONE` with no error, and an idle block (R112). -/
theorem State.statusConsistent_complete (s : State) : s.complete.StatusConsistent := by
  constructor <;> simp [State.Working, Status.success]

/-- What the error entry needs to leave a consistent `STATUS`: an INVALID_PARAMETER has a cause (R123). -/
def EngineError.Reported : EngineError → Prop
  | .invalidParameter cause _ => cause ≠ .none
  | .invalidInternalState => True
  | .notImplemented => True

/-- The error entry leaves `DONE` with the error's class and cause, and a position for causes 2 to 4 only (R127). -/
theorem State.statusConsistent_raise (s : State) {e : EngineError} (he : e.Reported) :
    (s.raise e).StatusConsistent := by
  cases e with
  | invalidInternalState | notImplemented =>
    constructor <;> simp [State.Working, Status.failed, EngineError.errClass, EngineError.cause, EngineError.position,
      EngineError.phaseAfter]
  | invalidParameter cause pos =>
    have hc : cause ≠ .none := he
    constructor <;> simp +contextual [State.Working, Status.failed, EngineError.errClass, EngineError.cause,
      EngineError.position, EngineError.phaseAfter, hc]

/-- A CHECK step raises an error with its cause, never INVALID_INTERNAL_STATE, or goes on to the groups (R110, R126). -/
theorem checkStep_raise_or_beginRun {c : Config} {s t : State} (h : checkStep c s = .next t) :
    (∃ e : EngineError, e.Reported ∧ e ≠ .invalidInternalState ∧ t = s.raise e) ∨
    ∃ pads n, t = s.beginRun pads n := by
  obtain rfl | ⟨cause, pos, rfl, hc⟩ | ⟨-, -, rfl⟩ | ⟨-, -, rfl⟩ | ⟨-, -, -, -, -, rfl⟩ := checkStep_cases c s t h
  · exact .inl ⟨.notImplemented, trivial, nofun, rfl⟩
  · exact .inl ⟨.invalidParameter cause pos, hc, nofun, rfl⟩
  all_goals exact .inr ⟨_, _, rfl⟩

theorem State.StatusConsistent.beginRun {s : State} (h : s.StatusConsistent) (hp : s.phase = .check)
    (pads : BitVec 2) (n : Nat) : (s.beginRun pads n).StatusConsistent := by
  obtain ⟨hst, ho, he⟩ := h.while_busy (.inl hp)
  unfold State.beginRun
  dsimp only
  split
  · exact State.statusConsistent_complete _
  · exact State.Working.statusConsistent (.inr rfl) hst ho he

theorem State.StatusConsistent.finishGroup {s : State} (h : s.StatusConsistent) : s.finishGroup.StatusConsistent := by
  unfold State.finishGroup
  dsimp only
  split
  · exact State.statusConsistent_complete _
  · exact h.congr rfl rfl rfl rfl

theorem HostEffect.statusConsistent {c : Config} {s t : State} (h : HostEffect c s t) (hs : s.StatusConsistent) :
    t.StatusConsistent := by
  cases h with
  | start op => exact hs.start op
  | observe | observeByte | setOp | writeInLen | writeInBuf | nothing =>
    exact hs.congr (by simp) (by simp) (by simp) (by simp)

theorem checkStep_statusConsistent {c : Config} {s t : State} (hs : s.StatusConsistent) (hp : s.phase = .check)
    (h : checkStep c s = .next t) : t.StatusConsistent := by
  obtain ⟨e, he, -, rfl⟩ | ⟨pads, n, rfl⟩ := checkStep_raise_or_beginRun h
  · exact State.statusConsistent_raise s he
  · exact hs.beginRun hp pads n

theorem runStep_statusConsistent {c : Config} {s t : State} (hs : s.StatusConsistent) (h : runStep c s = .next t) :
    t.StatusConsistent := by
  obtain ⟨-, acc, -, rfl⟩ | ⟨-, acc, -, rfl⟩ := runStep_cases c s t h
  all_goals exact State.StatusConsistent.finishGroup (hs.congr rfl rfl rfl rfl)

/-- The consistency of `STATUS` is kept for every configuration, not this hardware's alone. -/
theorem stepWith_statusConsistent {c : Config} {s t : State} (hs : s.StatusConsistent) (h : stepWith c s = .next t) :
    t.StatusConsistent :=
  stepWith_preserves (P := State.StatusConsistent) (fun _ _ hs => hs.congr rfl rfl rfl rfl)
    (fun _ _ => State.statusConsistent_reset.congr rfl rfl rfl rfl) (fun _ _ hs he => he.statusConsistent hs)
    (fun _ _ hs hp h => checkStep_statusConsistent hs hp h) (fun _ _ hs _ h => runStep_statusConsistent hs h) hs h

/-- Settles O55: only START, CHECK, RUN and reset change `STATUS`, and each leaves it consistent. -/
theorem statusStaysConsistent : Obligations.StatusStaysConsistent :=
  fun _ _ hs h => stepWith_statusConsistent hs h

end Sys2Proof.Machine
end

section
/-! The invariant of the block: at reset (R38, R140), across every step, and the `STATUS` values it leaves (R26, R122,
R123). -/

namespace Sys2Proof.Machine

/-- Both buffers are in canonical form and within their capacities (R34, R35): the part of the invariant that the end of
a command leaves as it is. -/
structure State.BuffersFit (c : Config) (s : State) : Prop where
  canonical : s.BuffersCanonical
  in_bounds : s.inBuf.Within c.inCap
  out_bounds : s.outBuf.Within c.outCap

theorem State.Inv.buffersFit {c : Config} {s : State} (h : s.Inv c) : s.BuffersFit c :=
  ⟨h.canonical, h.in_bounds, h.out_bounds⟩

/-- Settles O52: at reset the buffers list nothing, no output is offered, and the engine does not work. -/
theorem invariantHoldsAtReset : Obligations.InvariantHoldsAtReset := fun c => {
  canonical := ⟨List.Pairwise.nil, List.Pairwise.nil⟩
  in_bounds := nofun
  out_bounds := nofun
  status := State.statusConsistent_reset
  latched := fun hw => by simp [State.Working, State.reset] at hw
  pads_bound := by decide
  not_locked := nofun
  out_len_bound := Nat.zero_le _
  output_written := fun _ hk => absurd hk (Nat.not_lt_zero _)
  run_ready := nofun }

/-! ## What the invariant does not look at -/

theorem State.SameBlock.exists_eq {s t : State} (h : s.SameBlock t) :
    ∃ es log n, t = { s with pending := es, readLog := log, draws := n } :=
  ⟨_, _, _, Eq.symm h.symm⟩

theorem State.RunReady.of_sameBlock {c : Config} {s t : State} (h : s.RunReady c) (hb : s.SameBlock t) :
    t.RunReady c := by
  obtain ⟨es, log, n, rfl⟩ := hb.exists_eq
  obtain ⟨hdirection, hfits, hleft, hencode, hdecode, hwritten⟩ := h
  exact ⟨hdirection, hfits, hleft, hencode, hdecode, hwritten⟩

/-- The invariant is one of the block: the events to come, the reads and the draws are no part of it. -/
theorem State.Inv.of_sameBlock {c : Config} {s t : State} (h : s.Inv c) (hb : s.SameBlock t) : t.Inv c := by
  obtain ⟨es, log, n, rfl⟩ := hb.exists_eq
  exact { h with
    status := h.status.congr rfl rfl rfl rfl
    run_ready := fun hp => (h.run_ready hp).of_sameBlock hb }

/-- In IDLE the invariant leaves the host's registers free, and `IN_BUF` to any canonical bytes within it. -/
theorem State.Inv.with_operands {c : Config} {s : State} (h : s.Inv c) (hp : s.phase = .idle) (op : BitVec 2) (len : Len)
    {m : Memory} (hm : m.wf) (hin : m.Within c.inCap) :
    State.Inv c { s with ctrlOp := op, inLen := len, inBuf := m } :=
  { h with
    canonical := ⟨hm, h.canonical.2⟩
    in_bounds := hin
    status := h.status.congr rfl rfl rfl rfl
    latched := fun hw => by simp [State.Working, hp] at hw
    run_ready := fun hr => by simp [hp] at hr }

/-! ## The host's accesses -/

theorem State.Inv.start {c : Config} {s : State} (h : s.Inv c) (op : BitVec 2) : (s.start op).Inv c := by
  have hst := h.status.start op
  by_cases hp : s.phase = .idle
  · rw [State.start_of_idle s op hp] at hst ⊢
    exact { h with
      status := hst
      latched := fun _ => ⟨rfl, rfl⟩
      pads_bound := by simp [Status.inProgress]
      not_locked := nofun
      out_len_bound := Nat.zero_le _
      output_written := fun _ hk => absurd hk (Nat.not_lt_zero _)
      run_ready := nofun }
  · rwa [State.start_of_not_idle s op hp]

theorem HostEffect.inv {c : Config} {s t : State} (he : HostEffect c s t) (h : s.Inv c) : t.Inv c := by
  by_cases hp : s.phase = .idle
  · have ⟨hin, _⟩ := h.canonical
    cases he with
    | observe w => exact h.of_sameBlock rfl
    | observeByte b => exact h.of_sameBlock (by cases b <;> rfl)
    | setOp op =>
      rw [State.setOp_of_idle s op hp]
      exact h.with_operands hp op s.inLen hin h.in_bounds
    | start op => exact h.start op
    | writeInLen w =>
      rw [State.writeInLen_of_idle s w hp]
      exact h.with_operands hp s.ctrlOp _ hin h.in_bounds
    | writeInBuf i b =>
      by_cases hi : i < c.inCap
      · rw [State.writeInBuf_of_idle s _ i b hp hi]
        exact h.with_operands hp s.ctrlOp s.inLen (Memory.write_wf _ i b hin) (Memory.write_within _ _ i b h.in_bounds hi)
      · rwa [State.writeInBuf_unmapped s _ i b (Nat.le_of_not_lt hi)]
    | nothing => exact h
  · exact h.of_sameBlock (he.sameBlock_of_not_idle hp)

/-! ## The end of a command -/

theorem State.BuffersFit.inv_raise {c : Config} {s : State} (h : s.BuffersFit c) {e : EngineError} (he : e.Reported)
    (hne : e ≠ .invalidInternalState) : (s.raise e).Inv c := by
  have hp : e.phaseAfter = .idle := by
    cases e with
    | invalidInternalState => exact absurd rfl hne
    | invalidParameter | notImplemented => rfl
  exact { h with
    status := State.statusConsistent_raise s he
    latched := fun hw => by simp [State.Working, hp] at hw
    pads_bound := by simp [Status.failed]
    not_locked := by simp [hp]
    out_len_bound := Nat.zero_le _
    output_written := fun _ hk => absurd hk (Nat.not_lt_zero _)
    run_ready := by simp [hp] }

/-- A completion keeps the invariant where the command's output fits `OUT_BUF` and has been written (R55, R112). -/
theorem State.BuffersFit.inv_complete {c : Config} {s : State} (h : s.BuffersFit c) (hpads : s.padsI ≠ 3#2)
    (hfit : s.outputLength ≤ c.outCap) (hw : ∀ k, k < s.outputLength → s.outBuf.read k ≠ none) : s.complete.Inv c := by
  have hle : s.complete.outLen.toNat ≤ s.outputLength := by
    rw [State.complete_outLen, BitVec.toNat_ofNat]
    exact Nat.mod_le _ _
  exact { h with
    status := State.statusConsistent_complete s
    latched := fun hw => by simp [State.Working] at hw
    pads_bound := hpads
    not_locked := nofun
    out_len_bound := hle.trans hfit
    output_written := fun k hk => hw k (hk.trans_le hle)
    run_ready := nofun }

/-! ## The CHECK step -/

/-- A pad count that passes the defensive check is 0, 1 or 2 (R126). -/
theorem ne_three_of_padsOutOfRange_eq_false {p : BitVec 2} (h : padsOutOfRange p = false) : p ≠ 3#2 := by
  rintro rfl
  cases h

/-- A command that has no group completes with no output; one that has groups keeps the invariant where the CHECK step
has established what RUN needs (R110). -/
theorem State.Inv.beginRun {c : Config} {s : State} (h : s.Inv c) (hp : s.phase = .check) {pads : BitVec 2} {n : Nat}
    (hn : n < 2 ^ 17) (hpads : pads ≠ 3#2)
    (hready : n ≠ 0 → State.RunReady c { s with padsI := pads, ng := BitVec.ofNat 17 n, gidx := 0#17, phase := .run }) :
    (s.beginRun pads n).Inv c := by
  have hst := h.status.beginRun hp pads n
  obtain ⟨-, e⟩ | ⟨hn0, e⟩ := State.beginRun_cases s pads n hn
  · have hlen : State.outputLength { s with padsI := pads, ng := 0#17, gidx := 0#17 } = 0 := by
      simp [State.outputLength]
    rw [e]
    refine State.BuffersFit.inv_complete ⟨h.canonical, h.in_bounds, h.out_bounds⟩ hpads ?_ ?_
    · exact hlen.le.trans (Nat.zero_le _)
    · exact fun k hk => absurd (hlen ▸ hk) (Nat.not_lt_zero _)
  · rw [e] at hst ⊢
    exact { h with
      status := hst
      latched := fun _ => h.latched (.inl hp)
      not_locked := nofun
      run_ready := fun _ => hready hn0 }

theorem State.Inv.checkStep {c : Config} {s t : State} (h : s.Inv c) (hp : s.phase = .check)
    (hs : checkStep c s = .next t) : t.Inv c := by
  have hnl := s.nl.isLt
  obtain rfl | ⟨cause, pos, rfl, hc⟩ | ⟨hop, hfit, rfl⟩ | ⟨-, -, rfl⟩ | ⟨hop, hfit, h4, hn, hpass, rfl⟩ :=
    checkStep_cases c s t hs
  · exact h.buffersFit.inv_raise (e := .notImplemented) trivial nofun
  · exact h.buffersFit.inv_raise (e := .invalidParameter cause pos) hc nofun
  · have hcount := encodeGroupCount_eq s.nl.toNat
    have hlt : encodeGroupCount s.nl.toNat (encodePads s.nl.toNat) < 2 ^ 17 := by omega
    refine h.beginRun hp hlt (ne_three_of_padsOutOfRange_eq_false (padsOutOfRange_encodePads _)) fun hne => ?_
    exact {
      direction := .inl hop
      fits := hfit
      group_left := by simp only [BitVec.toNat_ofNat, Nat.mod_eq_of_lt hlt]; omega
      encode_counts := fun _ => ⟨rfl, by simp only [BitVec.toNat_ofNat, Nat.mod_eq_of_lt hlt]⟩
      decode_checks := fun h1 => absurd (hop.symm.trans h1) (by decide)
      written := by simp [outputBefore] }
  · exact h.beginRun hp (by decide) (by decide) fun hne => absurd rfl hne
  · have hlt : s.nl.toNat / 4 < 2 ^ 17 := by omega
    refine h.beginRun hp hlt (ne_three_of_padsOutOfRange_eq_false (padsOutOfRange_of_pass c _ _ h4 hn hpass)) fun hne => ?_
    exact {
      direction := .inr hop
      fits := hfit
      group_left := by simp only [BitVec.toNat_ofNat, Nat.mod_eq_of_lt hlt]; omega
      encode_counts := fun h0 => absurd (hop.symm.trans h0) (by decide)
      decode_checks := fun _ => ⟨h4, by simp only [BitVec.toNat_ofNat, Nat.mod_eq_of_lt hlt], hpass, rfl⟩
      written := by simp [outputBefore] }

/-! ## The RUN step -/

theorem State.lastGroup_iff (s : State) : s.lastGroup = true ↔ s.gidx.toNat + 1 = s.ng.toNat := beq_iff_eq

/-- After its last group a command completes (R111). -/
theorem State.finishGroup_of_lastGroup {s : State} (hl : s.lastGroup = true) :
    s.finishGroup = State.complete { s with gidx := s.ng } := by
  have hlast := s.lastGroup_iff.mp hl
  obtain ⟨hleft, -⟩ | ⟨-, e⟩ := State.finishGroup_cases s (by omega)
  · exact absurd hlast hleft.ne
  · exact e

/-- After any other group the next one is left (R111). -/
theorem State.finishGroup_of_not_lastGroup {s : State} (hg : s.gidx.toNat < s.ng.toNat) (hl : s.lastGroup = false) :
    s.finishGroup = { s with gidx := s.gidx + 1#17 } ∧ (s.gidx + 1#17).toNat = s.gidx.toNat + 1 ∧
      s.gidx.toNat + 1 < s.ng.toNat := by
  have hng := s.ng.isLt
  obtain ⟨hleft, e⟩ | ⟨hlast, -⟩ := State.finishGroup_cases s hg
  · refine ⟨e, ?_, hleft⟩
    rw [BitVec.toNat_add]
    exact Nat.mod_eq_of_lt (hleft.trans hng)
  · exact absurd (s.lastGroup_iff.mpr hlast) (Bool.eq_false_iff.mp hl)

/-- How many output bytes stand in `OUT_BUF` when the group `GIDX` is done: the whole output after the last group
(R81, R97, R112). -/
def State.outputAfterGroup (s : State) : Nat :=
  if s.lastGroup then s.outputLength else outputBefore s.opl (s.gidx.toNat + 1)

/-- A group of ENCODE has its symbols behind those of the groups before it (R81, R82). -/
theorem encodeGroup_end (c : Config) {s : State} (h0 : s.opl = 0#2) (acc : Accum) :
    outputBefore s.opl s.gidx.toNat + (encodeGroup c acc s.lastGroup s.padsI).length = s.outputAfterGroup := by
  cases hl : s.lastGroup with
  | false => simp [State.outputAfterGroup, hl, outputBefore, h0]; omega
  | true => simp [State.outputAfterGroup, hl, State.outputLength, outputBefore, h0, ← s.lastGroup_iff.mp hl]; omega

/-- A group of DECODE has its kept bytes behind those of the groups before it (R97, R98). -/
theorem decodeGroup_end {s : State} (h0 : s.opl ≠ 0#2) (acc : Accum) :
    outputBefore s.opl s.gidx.toNat + (decodeGroup acc s.lastGroup s.padsI).length = s.outputAfterGroup := by
  have hpads := s.padsI.isLt
  rw [decodeGroup_length]
  cases hl : s.lastGroup with
  | false => simp [State.outputAfterGroup, hl, outputBefore, h0]; omega
  | true => simp [State.outputAfterGroup, hl, State.outputLength, outputBefore, h0, ← s.lastGroup_iff.mp hl]; omega

/-- A RUN step's writes of one group, and its end (R111). -/
def State.withGroup (s : State) (acc : Accum) (bs : List Byte) : State :=
  (({ s with acc := acc } : State).outWrite (outputBefore s.opl s.gidx.toNat) bs).finishGroup

/-- A RUN step writes one group's output behind that of the groups before it, up to `outputAfterGroup` (R81, R97). -/
theorem runStep_withGroup {c : Config} {s t : State} (h : runStep c s = .next t) :
    ∃ acc bs, outputBefore s.opl s.gidx.toNat + bs.length = s.outputAfterGroup ∧ t = s.withGroup acc bs := by
  obtain ⟨h0, acc, -, rfl⟩ | ⟨h0, acc, -, rfl⟩ := runStep_cases c s t h
  · exact ⟨acc, _, encodeGroup_end c h0 acc, by rw [State.withGroup, outputBefore, if_pos h0]⟩
  · exact ⟨acc, _, decodeGroup_end h0 acc, by rw [State.withGroup, outputBefore, if_neg h0]⟩

/-- The state after the last group: the command is complete. -/
theorem State.withGroup_of_lastGroup {s : State} (hl : s.lastGroup = true) (acc : Accum) (bs : List Byte) :
    s.withGroup acc bs = State.complete { s with
      acc := acc, gidx := s.ng, outBuf := s.outBuf.writeFrom (outputBefore s.opl s.gidx.toNat) bs } :=
  State.finishGroup_of_lastGroup hl

/-- The state after any other group: RUN goes on with the next. -/
theorem State.withGroup_of_not_lastGroup {s : State} (hg : s.gidx.toNat < s.ng.toNat) (hl : s.lastGroup = false)
    (acc : Accum) (bs : List Byte) :
    s.withGroup acc bs = { s with
      acc := acc, gidx := s.gidx + 1#17, outBuf := s.outBuf.writeFrom (outputBefore s.opl s.gidx.toNat) bs } :=
  (State.finishGroup_of_not_lastGroup
    (s := ({ s with acc := acc } : State).outWrite (outputBefore s.opl s.gidx.toNat) bs) hg hl).1

/-- Consecutive writes behind written cells leave every cell up to their end written. -/
theorem Memory.read_writeFrom_ne_none {m : Memory} {i : Nat} (hm : ∀ k, k < i → m.read k ≠ none) (bs : List Byte) :
    ∀ k, k < i + bs.length → (m.writeFrom i bs).read k ≠ none := by
  intro k hk
  rw [Memory.read_writeFrom]
  by_cases hik : i ≤ k
  · rw [if_pos ⟨hik, hk⟩, List.getElem?_eq_getElem (by omega)]
    exact Option.some_ne_none _
  · rw [if_neg fun hh => hik hh.1]
    exact hm k (by omega)

/-- In RUN the pad count is 0, 1 or 2 (R74, R92). -/
theorem State.RunReady.padsI_ne_three {c : Config} {s : State} (h : s.RunReady c) : s.padsI ≠ 3#2 := by
  rcases h.direction with h0 | h1
  · rw [(h.encode_counts h0).1]
    exact ne_three_of_padsOutOfRange_eq_false (padsOutOfRange_encodePads _)
  · obtain ⟨h4, hng, hpass, hpads⟩ := h.decode_checks h1
    have := h.group_left
    rw [hpads]
    exact ne_three_of_padsOutOfRange_eq_false (padsOutOfRange_of_pass c _ _ h4 (by omega) hpass)

/-- The output up to any group of the command fits `OUT_BUF`: `4 * ceil(N / 3)` symbols (R82), or at most `N` bytes
(R98). -/
theorem State.RunReady.outputBefore_le {c : Config} {s : State} (h : s.RunReady c) {g : Nat} (hg : g ≤ s.ng.toNat) :
    outputBefore s.opl g ≤ c.outCap := by
  have hfit := h.fits
  unfold outputBefore Config.outCap
  rcases h.direction with h0 | h1
  · obtain ⟨hpads, hng⟩ := h.encode_counts h0
    rw [hpads, encodeGroupCount_eq] at hng
    rw [if_pos h0]
    omega
  · obtain ⟨-, hng, -, -⟩ := h.decode_checks h1
    rw [if_neg (by rw [h1]; decide)]
    omega

theorem State.outputLength_le_outputBefore (s : State) : s.outputLength ≤ outputBefore s.opl s.ng.toNat := by
  unfold State.outputLength outputBefore
  split
  · exact le_refl _
  · exact Nat.sub_le _ _

theorem State.RunReady.outputAfterGroup_le {c : Config} {s : State} (h : s.RunReady c) :
    s.outputAfterGroup ≤ c.outCap := by
  unfold State.outputAfterGroup
  split
  · exact s.outputLength_le_outputBefore.trans (h.outputBefore_le (le_refl _))
  · exact h.outputBefore_le h.group_left

/-- A group's writes and the end of its RUN step keep the invariant (R111). -/
theorem State.Inv.runStep {c : Config} {s t : State} (h : s.Inv c) (hp : s.phase = .run)
    (hs : runStep c s = .next t) : t.Inv c := by
  have hr := h.run_ready hp
  have hst := runStep_statusConsistent h.status hs
  obtain ⟨acc, bs, hlen, rfl⟩ := runStep_withGroup hs
  have hfit : outputBefore s.opl s.gidx.toNat + bs.length ≤ c.outCap := hlen ▸ hr.outputAfterGroup_le
  have hcanon := Memory.writeFrom_wf bs s.outBuf (outputBefore s.opl s.gidx.toNat) h.canonical.2
  have hbound := Memory.writeFrom_within c.outCap bs s.outBuf _ h.out_bounds hfit
  have hwritten := Memory.read_writeFrom_ne_none hr.written bs
  rw [hlen] at hwritten hfit
  cases hl : s.lastGroup with
  | true =>
    rw [State.outputAfterGroup, if_pos hl] at hwritten hfit
    rw [State.withGroup_of_lastGroup hl]
    exact State.BuffersFit.inv_complete ⟨⟨h.canonical.1, hcanon⟩, h.in_bounds, hbound⟩ hr.padsI_ne_three hfit hwritten
  | false =>
    obtain ⟨-, hnext, hleft⟩ := State.finishGroup_of_not_lastGroup hr.group_left hl
    rw [State.outputAfterGroup, if_neg (Bool.eq_false_iff.mp hl), ← hnext] at hwritten
    rw [← hnext] at hleft
    rw [State.withGroup_of_not_lastGroup hr.group_left hl] at hst ⊢
    exact { h with
      canonical := ⟨h.canonical.1, hcanon⟩
      out_bounds := hbound
      status := hst
      output_written := fun k hk => by
        obtain ⟨-, ho, -⟩ := h.status.while_busy (.inr hp)
        simp [ho] at hk
      run_ready := fun _ => { hr with group_left := hleft, written := hwritten } }

/-! ## Every step -/

/-- Every step keeps the invariant, for every configuration. -/
theorem stepWith_inv {c : Config} {s t : State} (hs : s.Inv c) (h : stepWith c s = .next t) : t.Inv c :=
  stepWith_preserves (P := State.Inv c) (fun s es hs => hs.of_sameBlock (s.sameBlock_setPending es))
    (fun _ _ => (invariantHoldsAtReset c).of_sameBlock rfl) (fun _ _ hs he => he.inv hs)
    (fun _ _ hs hp h => hs.checkStep hp h) (fun _ _ hs hp h => hs.runStep hp h) hs h

/-- Settles O53: the host changes only what the invariant leaves free or starts a command, CHECK establishes what RUN
needs, each RUN step writes its group behind the groups before it, and a completion offers what has been written. -/
theorem invariantIsKeptByEveryStep : Obligations.InvariantIsKeptByEveryStep :=
  fun _ _ hs h => stepWith_inv hs h

/-! ## The values of `STATUS` -/

/-- `DONE` is set in a block at rest only (R26). -/
theorem State.StatusConsistent.busy_eq_false_of_done {s : State} (h : s.StatusConsistent) (hd : s.status.done = true) :
    s.status.busy = false := by
  rw [Bool.eq_false_iff]
  intro hb
  rw [(h.while_busy (h.busy_iff.mp hb)).1] at hd
  cases hd

/-- The `STATUS` words of a successful completion (R112). -/
theorem Status.word_success_mem {pads : BitVec 2} (h : pads ≠ 3#2) :
    (Status.success pads).word ∈ [0x002#32, 0x102#32, 0x202#32] := by
  revert pads; decide

/-- The `STATUS` words of an INVALID_PARAMETER, by its cause (R123, R127). -/
theorem Status.word_invalidParameter_mem {cause : Cause} (h : cause ≠ .none) (pos : Nat) :
    (Status.failed (.invalidParameter cause pos)).word ∈ [0x016#32, 0x026#32, 0x036#32, 0x046#32, 0x056#32] := by
  cases cause with
  | none => exact absurd rfl h
  | _ => simp only [Status.failed, EngineError.errClass, EngineError.cause]; decide

/-- Where `DONE` is set, the class of `STATUS` fixes the rest: no error and no cause, or an error that is reported with its
cause and no pads (R26, R123, R127). -/
theorem State.StatusConsistent.eq_success_or_eq_failed {s : State} (h : s.StatusConsistent)
    (hd : s.status.done = true) :
    (∃ pads, s.status = Status.success pads) ∨ ∃ e : EngineError, e.Reported ∧ s.status = Status.failed e := by
  have hb := h.busy_eq_false_of_done hd
  have hcause := h.cause_iff
  have herr := h.on_error
  generalize s.status = st at hd hb hcause herr ⊢
  obtain ⟨busy, done, err, cause, pads⟩ := st
  dsimp only at hd hb hcause herr
  subst hd hb
  cases err with
  | none =>
    obtain rfl : cause = .none := by simpa using hcause
    exact .inl ⟨pads, rfl⟩
  | invalidParameter =>
    obtain ⟨-, -, rfl⟩ := herr nofun
    exact .inr ⟨.invalidParameter cause 0, hcause.mpr rfl, rfl⟩
  | invalidInternalState =>
    obtain ⟨-, -, rfl⟩ := herr nofun
    obtain rfl : cause = .none := by simpa using hcause
    exact .inr ⟨.invalidInternalState, trivial, rfl⟩
  | notImplemented =>
    obtain ⟨-, -, rfl⟩ := herr nofun
    obtain rfl : cause = .none := by simpa using hcause
    exact .inr ⟨.notImplemented, trivial, rfl⟩

/-- Settles O58: a completed command has succeeded with 0, 1 or 2 pads or failed with a reported error, which is not
INVALID_INTERNAL_STATE since the block is not LOCKED. -/
theorem statusReadsAsOneOfTheListedValues : Obligations.StatusReadsAsOneOfTheListedValues := by
  intro c s h
  refine ⟨fun hd => ?done, fun hw => ?working, fun hw hd => ?first⟩
  case done =>
    obtain ⟨pads, hst⟩ | ⟨e, he, hst⟩ := h.status.eq_success_or_eq_failed hd
    · have hmem := Status.word_success_mem (pads := pads) (by simpa [hst, Status.success] using h.pads_bound)
      rw [hst]
      exact List.mem_append_left [0x016#32, 0x026#32, 0x036#32, 0x046#32, 0x056#32, 0x00E#32] hmem
    · rw [hst]
      cases e with
      | invalidParameter cause pos =>
        exact List.mem_append_right [0x002#32, 0x102#32, 0x202#32]
          (List.mem_append_left [0x00E#32] (Status.word_invalidParameter_mem he pos))
      | invalidInternalState => exact absurd (h.status.locked_iff.mp (by rw [hst]; rfl)) h.not_locked
      | notImplemented => decide
  case working => rw [(h.status.while_busy hw).1]; rfl
  case first => rw [(h.status.before_first hw hd).1]; rfl

end Sys2Proof.Machine
end

section
/-! The register region (R25 to R31, R40, R41): what each word reads, at reset too (R38, R140), and what a write stores
(R27, R113). -/

namespace Sys2Proof.Machine

/-! ## The words of the register region -/

/-- `ALPHA[v]` is the word at 0x100 + 4 * v (R31). -/
theorem Reg.addr_alpha_toNat (v : Seg) : (Reg.alpha v).addr.toNat = 0x100 + 4 * v.toNat := by
  revert v; decide

theorem readRegister_ctrl (c : Config) (s : State) : readRegister c s Reg.ctrl.addr = 0#29 ++ s.ctrlOp ++ 0#1 := rfl

theorem readRegister_status (c : Config) (s : State) : readRegister c s Reg.status.addr = s.status.word := rfl

theorem readRegister_inLen (c : Config) (s : State) : readRegister c s Reg.inLen.addr = s.inLen.setWidth 32 := rfl

theorem readRegister_outLen (c : Config) (s : State) : readRegister c s Reg.outLen.addr = s.outLen.setWidth 32 := rfl

theorem readRegister_errPos (c : Config) (s : State) : readRegister c s Reg.errPos.addr = s.errPos.setWidth 32 := rfl

theorem readRegister_caps (c : Config) (s : State) :
    readRegister c s Reg.caps.addr = (BitVec.ofNat 17 c.inCap).setWidth 32 := rfl

theorem readRegister_padSym (c : Config) (s : State) : readRegister c s Reg.padSym.addr = 0x3D#32 := rfl

/-- Past the registers at the low addresses only the alphabet's words read as something else than 0 (R31, R41). -/
theorem readRegister_of_gt {c : Config} {s : State} {a : Addr} (h : 0x018 < a.toNat) :
    readRegister c s a = if 0x100 ≤ a.toNat ∧ a.toNat ≤ 0x1FC then
      (c.symbol (BitVec.ofNat 6 ((a.toNat - 0x100) / 4))).setWidth 32 else 0#32 := by
  have hne (b : Addr) (hb : b.toNat ≤ 0x018) : a ≠ b := by
    rintro rfl
    omega
  rw [readRegister, if_neg (hne ctrlAddr (by decide)), if_neg (hne 0x00004#18 (by decide)),
    if_neg (hne inLenAddr (by decide)), if_neg (hne 0x0000C#18 (by decide)), if_neg (hne 0x00010#18 (by decide)),
    if_neg (hne 0x00014#18 (by decide)), if_neg (hne 0x00018#18 (by decide))]

theorem readRegister_alpha (c : Config) (s : State) (v : Seg) :
    readRegister c s (Reg.alpha v).addr = (c.symbol v).setWidth 32 := by
  have hv := v.isLt
  have ha := Reg.addr_alpha_toNat v
  have hi : ((Reg.alpha v).addr.toNat - 0x100) / 4 = v.toNat := by omega
  rw [readRegister_of_gt (by omega), if_pos (by omega), hi, BitVec.ofNat_toNat, BitVec.setWidth_eq]

theorem readRegister_of_no_register {c : Config} {s : State} {a : Addr} (h : 0x018 < a.toNat)
    (hgap : a.toNat < 0x100 ∨ 0x1FC < a.toNat) : readRegister c s a = 0#32 := by
  rw [readRegister_of_gt h, if_neg (by omega)]

/-! ## Their values, field by field -/

/-- The value of two fields side by side. -/
theorem toNat_append_eq_add {m n : Nat} (x : BitVec m) (y : BitVec n) :
    (x ++ y).toNat = x.toNat * 2 ^ n + y.toNat := by
  rw [BitVec.toNat_append, ← Nat.shiftLeft_add_eq_or_of_lt y.isLt, Nat.shiftLeft_eq]

/-- `CTRL` reads `OP << 1` (R25). -/
theorem ctrl_word_toNat (op : BitVec 2) : (0#29 ++ op ++ 0#1 : Word).toNat = 2 * op.toNat := by
  simp only [toNat_append_eq_add, BitVec.toNat_ofNat]
  omega

/-- Each field of `STATUS` at its bits (R26). -/
theorem Status.word_toNat (st : Status) : st.word.toNat = st.busy.toNat + 2 * st.done.toNat + 4 * st.err.code.toNat +
    16 * st.cause.code.toNat + 256 * st.pads.toNat := by
  simp only [Status.word, toNat_append_eq_add, BitVec.toNat_ofNat, BitVec.toNat_ofBool]
  omega

/-- `CAPS` reads `IN_CAP`, which fits its 17 bits (R6, R30). -/
theorem caps_word_toNat {c : Config} (h : c.capacityLegal = true) :
    ((BitVec.ofNat 17 c.inCap).setWidth 32).toNat = c.inCap := by
  obtain ⟨-, hcap⟩ := c.capacityLegal_iff.mp h
  rw [BitVec.toNat_setWidth, BitVec.toNat_ofNat]
  omega

/-! ## The host's 32-bit accesses -/

theorem stepWith_of_access {c : Config} {s : State} {tr : Transaction} {es : List Event} {a : Access}
    (hp : s.pending = .access tr :: es) (hd : decodeAccess tr = .ok a) :
    stepWith c s = performAccess c (s.setPending es) a :=
  (stepWith_of_cons c s _ es hp).trans (performTransaction_of_ok c _ tr a hd)

/-- An aligned 32-bit transaction of the register region is an admitted access (R45). -/
theorem decodeAccess_register {a : Addr} (hr : a.toNat < 0x10000) (h4 : a.toNat % 4 = 0) (d : Word) :
    decodeAccess ⟨.read, 4, a, d⟩ = .ok (.rd32 a) ∧ decodeAccess ⟨.write, 4, a, d⟩ = .ok (.wr32 a d) := by
  simp [decodeAccess, Addr.inRegisters, Addr.aligned, hr, h4]

/-- Settles O16: the read records `readRegister`, whose value at each register is the register's. -/
theorem registerReadsReturnTheirFields : Obligations.RegisterReadsReturnTheirFields := by
  intro c s a d es hcap hp hr h4
  have hstep := stepWith_of_access (c := c) hp (decodeAccess_register hr h4 d).1
  refine ⟨readRegister c s a, hstep, ?ctrl, ?status, ?inLen, ?outLen, ?errPos, ?caps, ?padSym, ?alpha, ?gap⟩
  case ctrl =>
    intro ha
    obtain rfl : a = Reg.addr .ctrl := BitVec.eq_of_toNat_eq ha
    rw [readRegister_ctrl, ctrl_word_toNat]
  case status =>
    intro ha
    obtain rfl : a = Reg.addr .status := BitVec.eq_of_toNat_eq ha
    rw [readRegister_status, Status.word_toNat]
  case inLen =>
    intro ha
    obtain rfl : a = Reg.addr .inLen := BitVec.eq_of_toNat_eq ha
    rw [readRegister_inLen, BitVec.toNat_setWidth_of_le (by decide)]
  case outLen =>
    intro ha
    obtain rfl : a = Reg.addr .outLen := BitVec.eq_of_toNat_eq ha
    rw [readRegister_outLen, BitVec.toNat_setWidth_of_le (by decide)]
  case errPos =>
    intro ha
    obtain rfl : a = Reg.addr .errPos := BitVec.eq_of_toNat_eq ha
    rw [readRegister_errPos, BitVec.toNat_setWidth_of_le (by decide)]
  case caps =>
    intro ha
    obtain rfl : a = Reg.addr .caps := BitVec.eq_of_toNat_eq ha
    rw [readRegister_caps, caps_word_toNat hcap]
  case padSym =>
    intro ha
    obtain rfl : a = Reg.addr .padSym := BitVec.eq_of_toNat_eq ha
    rw [readRegister_padSym]
    rfl
  case alpha =>
    intro k ha
    obtain rfl : a = Reg.addr (.alpha k) := BitVec.eq_of_toNat_eq (ha.trans (Reg.addr_alpha_toNat k).symm)
    rw [readRegister_alpha, BitVec.toNat_setWidth_of_le (by decide)]
  case gap => exact fun h hgap => readRegister_of_no_register h hgap

/-- Settles O3: each register of the reset state reads its reset value, and an empty buffer holds no byte. -/
theorem resetStateReadsAsSpecified : Obligations.ResetStateReadsAsSpecified := by
  refine ⟨rfl, Memory.read_nil, fun c hcap => ⟨rfl, rfl, rfl, rfl, rfl, ?_, rfl, readRegister_alpha c State.reset⟩⟩
  rw [readRegister_caps, caps_word_toNat hcap]

/-- Settles O17: no register but `CTRL` and `IN_LEN` takes a write, and `IN_LEN` takes one in IDLE only. -/
theorem registerWritesStoreOnlyInLen : Obligations.RegisterWritesStoreOnlyInLen := by
  intro c s a w es hp hr h4 h0
  have hctrl : a ≠ ctrlAddr := fun e => h0 (by rw [e]; rfl)
  have hlen : a = inLenAddr ↔ a.toNat = 8 := ⟨fun e => by rw [e]; rfl, fun h => BitVec.eq_of_toNat_eq h⟩
  rw [stepWith_of_access hp (decodeAccess_register hr h4 w).2, performAccess, writeRegister, if_neg hctrl]
  by_cases h8 : a.toNat = 8
  · rw [if_pos (hlen.mpr h8)]
    by_cases hi : s.phase = .idle
    · rw [State.writeInLen_of_idle (s.setPending es) w hi, if_pos ⟨h8, hi⟩]
      rfl
    · rw [State.writeInLen_of_not_idle (s.setPending es) w hi, if_neg fun h => hi h.2]
      rfl
  · rw [if_neg (hlen.not.mpr h8), if_neg fun h => h8 h.1]
    rfl

end Sys2Proof.Machine
end

section
/-! The two tables (R21, R22): the reverse lookup of a legal alphabet, entry by entry, and how many codes of each kind it
has (R23, log 11). -/

namespace Sys2Proof

/-- A legal alphabet (R9) has 64 distinct entries, none of them `PAD`. -/
theorem Config.entries_of_alphabetLegal {c : Config} (h : c.alphabetLegal = true) :
    c.alphabet.length = 64 ∧ c.alphabet.Nodup ∧ padCode ∉ c.alphabet := by
  simp only [Config.alphabetLegal, Bool.and_eq_true] at h
  obtain ⟨⟨⟨hlength, hdistinct⟩, hpad⟩, -⟩ := h
  refine ⟨of_decide_eq_true hlength, of_decide_eq_true hdistinct, fun hmem => ?_⟩
  simpa using List.all_eq_true.mp hpad padCode hmem

theorem Config.rev_eq_padSym_iff (c : Config) (code : Byte) : c.rev code = .padSym ↔ code = padCode := by
  unfold Config.rev
  split
  · simp [*]
  · cases c.alphabet.findIdx? (· == code) <;> simp [*]

/-- The codes that are neither `PAD` nor in the alphabet are the `INVALID` ones (R22). -/
theorem Config.rev_eq_invalid_iff (c : Config) (code : Byte) :
    c.rev code = .invalid ↔ code ≠ padCode ∧ code ∉ c.alphabet := by
  unfold Config.rev
  split
  case isTrue h => simp [h]
  case isFalse h =>
    cases hf : c.alphabet.findIdx? (· == code) with
    | some v =>
      obtain ⟨hv, hc, -⟩ := List.findIdx?_eq_some_iff_getElem.mp hf
      have hmem : code ∈ c.alphabet := eq_of_beq hc ▸ List.getElem_mem hv
      simp [hmem]
    | none =>
      have hmem : code ∉ c.alphabet := fun hmem => by
        simpa using List.findIdx?_eq_none_iff.mp hf code hmem
      simp [h, hmem]

/-- Segment value `v` names entry `v` of the alphabet (R8). -/
theorem Config.symbol_eq_getElem {c : Config} (hlen : c.alphabet.length = 64) (v : Seg) :
    c.symbol v = c.alphabet[v.toNat]'(hlen ▸ v.isLt) :=
  List.getD_eq_getElem _ _ _

/-- In a legal alphabet the reverse lookup inverts the symbols (R22). -/
theorem Config.rev_symbol {c : Config} (h : c.alphabetLegal = true) (v : Seg) : c.rev (c.symbol v) = .data v := by
  obtain ⟨hlen, hnodup, hpad⟩ := Config.entries_of_alphabetLegal h
  have hv : v.toNat < c.alphabet.length := hlen ▸ v.isLt
  have hsym := Config.symbol_eq_getElem hlen v
  have hne : c.symbol v ≠ padCode := fun e => hpad (e ▸ hsym ▸ List.getElem_mem hv)
  have hidx : c.alphabet.findIdx? (· == c.symbol v) = some v.toNat := by
    refine List.findIdx?_eq_some_iff_getElem.mpr ⟨hv, beq_iff_eq.mpr hsym.symm, fun j hj hc => ?_⟩
    exact hj.ne ((hnodup.getElem_inj_iff).mp ((eq_of_beq hc).trans hsym))
  simp [Config.rev, hne, hidx]

/-- Every code of the alphabet is the symbol of some segment value (R8). -/
theorem Config.exists_symbol_eq {c : Config} (hlen : c.alphabet.length = 64) {code : Byte} (h : code ∈ c.alphabet) :
    ∃ v, c.symbol v = code := by
  obtain ⟨i, hi, rfl⟩ := List.getElem_of_mem h
  have hv : (BitVec.ofNat 6 i).toNat = i := by
    rw [BitVec.toNat_ofNat]
    exact Nat.mod_eq_of_lt (hi.trans_eq hlen)
  exact ⟨BitVec.ofNat 6 i, by simp only [Config.symbol_eq_getElem hlen, hv]⟩

theorem Config.symbol_of_rev_eq_data {c : Config} (h : c.alphabetLegal = true) {code : Byte} {v : Seg}
    (hd : c.rev code = .data v) : c.symbol v = code := by
  have hmem : code ∈ c.alphabet := by
    by_contra hmem
    by_cases hp : code = padCode
    · rw [(c.rev_eq_padSym_iff code).mpr hp] at hd
      cases hd
    · rw [(c.rev_eq_invalid_iff code).mpr ⟨hp, hmem⟩] at hd
      cases hd
  obtain ⟨w, rfl⟩ := Config.exists_symbol_eq (Config.entries_of_alphabetLegal h).1 hmem
  rw [Config.rev_symbol h] at hd
  cases hd
  rfl

/-! ## Counting codes -/

/-- The codes with a property are, in some order, those of any list without repetition that has just them. -/
theorem filter_codes_perm {p : Byte → Bool} {codes : List Byte} (hnodup : codes.Nodup)
    (hp : ∀ code, p code = true ↔ code ∈ codes) :
    ((List.range 256).filter fun n => p (BitVec.ofNat 8 n)).Perm (codes.map BitVec.toNat) := by
  refine (List.perm_ext_iff_of_nodup (List.nodup_range.filter _)
    (hnodup.map fun _ _ => BitVec.eq_of_toNat_eq)).mpr fun n => ?_
  rw [List.mem_filter, List.mem_range, hp, List.mem_map]
  constructor
  · rintro ⟨hn, hmem⟩
    exact ⟨_, hmem, by rw [BitVec.toNat_ofNat]; exact Nat.mod_eq_of_lt hn⟩
  · rintro ⟨code, hmem, rfl⟩
    exact ⟨code.isLt, by rwa [BitVec.ofNat_toNat, BitVec.setWidth_eq]⟩

/-- Settles O2: the reverse lookup inverts the symbols of a legal alphabet, so the codes of a kind are those of a list
whose length is known. -/
theorem tablesAreConsistent : Obligations.TablesAreConsistent := by
  intro c h
  obtain ⟨hlen, hnodup, hpad⟩ := Config.entries_of_alphabetLegal h
  refine ⟨Config.rev_symbol h, fun code v => Config.symbol_of_rev_eq_data h, ?data, ?pad, ?invalid⟩
  case data =>
    have hp (code : Byte) : (c.rev code != .invalid && c.rev code != .padSym) = true ↔ code ∈ c.alphabet := by
      simp only [Bool.and_eq_true, bne_iff_ne, ne_eq, c.rev_eq_invalid_iff, c.rev_eq_padSym_iff, not_and_not_right]
      exact ⟨fun ⟨h1, h2⟩ => h1 h2, fun hmem => ⟨fun _ => hmem, fun e => hpad (e ▸ hmem)⟩⟩
    rw [(filter_codes_perm hnodup hp).length_eq, List.length_map, hlen]
  case pad =>
    have hp (code : Byte) : (c.rev code == .padSym) = true ↔ code ∈ [padCode] := by
      rw [beq_iff_eq, c.rev_eq_padSym_iff, List.mem_singleton]
    exact List.perm_singleton.mp (filter_codes_perm (List.nodup_singleton padCode) hp)
  case invalid =>
    have hp (code : Byte) : (!(c.rev code == .invalid)) = true ↔ code ∈ padCode :: c.alphabet := by
      rw [Bool.not_eq_true', beq_eq_false_iff_ne, ne_eq, c.rev_eq_invalid_iff, List.mem_cons]
      tauto
    have hvalid := (filter_codes_perm (List.nodup_cons.mpr ⟨hpad, hnodup⟩) hp).length_eq
    rw [List.length_map, List.length_cons, hlen] at hvalid
    have hall := (List.range 256).length_eq_length_filter_add fun n => c.rev (BitVec.ofNat 8 n) == .invalid
    rw [List.length_range, hvalid] at hall
    omega

end Sys2Proof
end

section
/-! A command's outcome depends on its operands alone (R36): two blocks with the same operands go through the engine's
steps in step. -/

namespace Sys2Proof.Machine

/-! ## Two outcomes in relation -/

/-- Two outcomes agree: both are next states in relation `R`, or both the same fault. -/
def OutcomesAgree (R : State → State → Prop) :
    Host.Outcome State Fault Refusal → Host.Outcome State Fault Refusal → Prop
  | .next u, .next u' => R u u'
  | .fault f, .fault f' => f = f'
  | _, _ => False

theorem OutcomesAgree.ite {R : State → State → Prop} {p : Prop} [Decidable p]
    {a b a' b' : Host.Outcome State Fault Refusal} (ha : p → OutcomesAgree R a a') (hb : ¬p → OutcomesAgree R b b') :
    OutcomesAgree R (if p then a else b) (if p then a' else b') := by
  by_cases h : p
  · rw [if_pos h, if_pos h]
    exact ha h
  · rw [if_neg h, if_neg h]
    exact hb h

/-! ## Two blocks in step -/

/-- What two working engines share of the command's operands (R36). -/
structure State.SameOperands (s s' : State) : Prop where
  opl : s.opl = s'.opl
  nl : s.nl = s'.nl
  input : ∀ k, k < s.nl.toNat → s.inRead k = s'.inRead k

/-- What two engines in RUN share of the groups' registers and of the output written so far.  Each group of a DECODE lies
within the input (R89). -/
structure State.SameGroups (s s' : State) : Prop where
  ng : s.ng = s'.ng
  padsI : s.padsI = s'.padsI
  gidx : s.gidx = s'.gidx
  group_left : s.gidx.toNat < s.ng.toNat
  within_input : s.opl ≠ 0#2 → 4 * s.ng.toNat ≤ s.nl.toNat
  written : ∀ k, k < outputBefore s.opl s.gidx.toNat → s.outBuf.read k = s'.outBuf.read k

/-- Two blocks show the same outcome, or work on the same operands and have come equally far. -/
structure State.InStep (s s' : State) : Prop where
  phase : s.phase = s'.phase
  status : s.status = s'.status
  outLen : s.outLen = s'.outLen
  errPos : s.errPos = s'.errPos
  output : ∀ k, k < s.outLen.toNat → s.outBuf.read k = s'.outBuf.read k
  pending : s.pending = [] ∧ s'.pending = []
  no_output : s.Working → s.outLen = 0#17
  operands : s.Working → s.SameOperands s'
  groups : s.phase = .run → s.SameGroups s'

theorem State.InStep.raise {s s' : State} (h : s.InStep s') (e : EngineError) : (s.raise e).InStep (s'.raise e) := by
  have hp : e.phaseAfter ≠ .check ∧ e.phaseAfter ≠ .run := by cases e <;> exact ⟨nofun, nofun⟩
  exact {
    phase := rfl
    status := rfl
    outLen := rfl
    errPos := rfl
    output := fun _ hk => absurd hk (Nat.not_lt_zero _)
    pending := h.pending
    no_output := fun _ => rfl
    operands := fun hw => absurd hw (not_or.mpr hp)
    groups := fun hr => absurd hr hp.2 }

/-- Completions of the same command agree where its output does. -/
theorem State.inStep_complete {s s' : State} (hpending : s.pending = [] ∧ s'.pending = []) (hopl : s.opl = s'.opl)
    (hng : s.ng = s'.ng) (hpads : s.padsI = s'.padsI)
    (hout : ∀ k, k < s.outputLength → s.outBuf.read k = s'.outBuf.read k) : s.complete.InStep s'.complete where
  phase := rfl
  status := by simp [hpads]
  outLen := by simp [State.outputLength, hopl, hng, hpads]
  errPos := rfl
  output k hk := hout k (hk.trans_le (by rw [State.complete_outLen, BitVec.toNat_ofNat]; exact Nat.mod_le _ _))
  pending := hpending
  no_output hw := by simp [State.Working] at hw
  operands hw := by simp [State.Working] at hw
  groups := nofun

/-! ## The CHECK step -/

theorem State.InStep.beginRun {s s' : State} (h : s.InStep s') (hp : s.phase = .check) (pads : BitVec 2) {n : Nat}
    (hn : n < 2 ^ 17) (hwithin : s.opl ≠ 0#2 → 4 * n ≤ s.nl.toNat) :
    (s.beginRun pads n).InStep (s'.beginRun pads n) := by
  have hop := h.operands (.inl hp)
  obtain ⟨rfl, e⟩ | ⟨hn0, e⟩ := State.beginRun_cases s pads n hn
  · refine State.inStep_complete h.pending hop.opl rfl rfl fun k hk => ?_
    simp [State.outputLength] at hk
  · obtain ⟨rfl, -⟩ | ⟨-, e'⟩ := State.beginRun_cases s' pads n hn
    · exact absurd rfl hn0
    have hcount : (BitVec.ofNat 17 n).toNat = n := by
      rw [BitVec.toNat_ofNat]
      exact Nat.mod_eq_of_lt hn
    rw [e, e']
    exact { h with
      phase := rfl
      no_output := fun _ => h.no_output (.inl hp)
      operands := fun _ => ⟨hop.opl, hop.nl, hop.input⟩
      groups := fun _ => {
        ng := rfl
        padsI := rfl
        gidx := rfl
        group_left := hcount.symm ▸ Nat.pos_of_ne_zero hn0
        within_input := fun h0 => hcount.symm ▸ hwithin h0
        written := by simp [outputBefore] } }

/-- The pad count of DECODE looks at the final group alone (R92). -/
theorem decodePads_congr (c : Config) {read read' : Nat → Option Byte} {final : Nat}
    (h : ∀ k, k < 4 * final + 4 → read k = read' k) : decodePads c read final = decodePads c read' final := by
  unfold decodePads
  congr 2
  refine List.filter_congr fun k hk => ?_
  have hk4 := List.mem_range.mp hk
  rw [isPad, isPad, h _ (by omega)]

theorem State.InStep.checkStep {s s' : State} (h : s.InStep s') (hp : s.phase = .check) (c : Config) :
    OutcomesAgree State.InStep (checkStep c s) (checkStep c s') := by
  obtain ⟨hopl, hnl, hinput⟩ := h.operands (.inl hp)
  have hlt := s.nl.isLt
  unfold Machine.checkStep
  rw [← hopl, ← hnl]
  refine .ite (fun _ => h.raise _) fun _ => .ite (fun _ => h.raise _) fun _ => .ite (fun h0 => ?encode) fun h0 => ?decode
  case encode =>
    unfold checkEncode
    rw [← hnl]
    have hcount := encodeGroupCount_eq s.nl.toNat
    exact .ite (fun _ => h.raise _) fun _ => h.beginRun hp _ (by omega) fun hne => absurd h0 hne
  case decode =>
    have hscan := scanFrom_congr c s.inRead s'.inRead (s.nl.toNat / 4 - 1) s.nl.toNat 0
      fun j hj => hinput j (by omega)
    unfold checkDecode
    rw [← hnl]
    refine .ite (fun _ => h.raise _) fun h4 => .ite (fun _ => ?empty) fun hg => ?scan
    case empty => exact h.beginRun hp 0#2 (by decide) fun _ => Nat.zero_le _
    case scan =>
      rw [← hscan, decodePads_congr c fun k hk => (hinput k (by omega)).symm]
      cases scanFrom c s.inRead (s.nl.toNat / 4 - 1) s.nl.toNat 0 with
      | unwritten => exact rfl
      | bad cause pos => exact h.raise _
      | pass => exact .ite (fun _ => h.raise _) fun _ => h.beginRun hp _ (by omega) fun _ => by omega

/-! ## The RUN step -/

/-- A group of ENCODE looks at the input alone (R76). -/
theorem encodeAcc_congr {read read' : Nat → Option Byte} {n : Nat} (h : ∀ k, k < n → read k = read' k) (g : Nat) :
    encodeAcc read n g = encodeAcc read' n g := by
  have hext : extended read n = extended read' n := by
    funext i
    unfold extended
    split
    · exact h i ‹_›
    · rfl
  unfold encodeAcc
  rw [hext]

/-- A group of DECODE looks at its four symbols alone (R93). -/
theorem decodeAcc_congr (c : Config) {read read' : Nat → Option Byte} {g : Nat}
    (h : ∀ k, k < 4 * g + 4 → read k = read' k) : decodeAcc c read g = decodeAcc c read' g := by
  unfold decodeAcc
  rw [h _ (by omega), h _ (by omega), h _ (by omega), h _ (by omega)]

/-- Writing the same bytes at the same place keeps what two buffers share, and adds the bytes to it. -/
theorem Memory.read_writeFrom_congr {m m' : Memory} {i : Nat} (h : ∀ k, k < i → m.read k = m'.read k)
    (bs : List Byte) : ∀ k, k < i + bs.length → (m.writeFrom i bs).read k = (m'.writeFrom i bs).read k := by
  intro k hk
  rw [Memory.read_writeFrom, Memory.read_writeFrom]
  by_cases hik : i ≤ k
  · rw [if_pos ⟨hik, hk⟩, if_pos ⟨hik, hk⟩]
  · rw [if_neg fun hh => hik hh.1, if_neg fun hh => hik hh.1]
    exact h k (by omega)

theorem State.SameGroups.lastGroup {s s' : State} (h : s.SameGroups s') : s.lastGroup = s'.lastGroup := by
  rw [State.lastGroup, State.lastGroup, h.gidx, h.ng]

/-- The same output of a group keeps two blocks in step (R111). -/
theorem State.InStep.withGroup {s s' : State} (h : s.InStep s') (hp : s.phase = .run) (acc : Accum) {bs : List Byte}
    (hlen : outputBefore s.opl s.gidx.toNat + bs.length = s.outputAfterGroup) :
    (s.withGroup acc bs).InStep (s'.withGroup acc bs) := by
  obtain ⟨hopl, hnl, hinput⟩ := h.operands (.inr hp)
  obtain ⟨hng, hpads, hgidx, hleft, hwithin, hwritten⟩ := h.groups hp
  have hlast := (h.groups hp).lastGroup
  have hplace : outputBefore s'.opl s'.gidx.toNat = outputBefore s.opl s.gidx.toNat := by rw [hopl, hgidx]
  have hwritten := Memory.read_writeFrom_congr hwritten bs
  rw [hlen] at hwritten
  cases hl : s.lastGroup with
  | true =>
    rw [State.outputAfterGroup, if_pos hl] at hwritten
    rw [State.withGroup_of_lastGroup hl, State.withGroup_of_lastGroup (hlast ▸ hl), hplace]
    exact State.inStep_complete h.pending hopl hng hpads hwritten
  | false =>
    obtain ⟨-, hnext, hleft'⟩ := State.finishGroup_of_not_lastGroup hleft hl
    rw [State.outputAfterGroup, if_neg (Bool.eq_false_iff.mp hl), ← hnext] at hwritten
    rw [← hnext] at hleft'
    rw [State.withGroup_of_not_lastGroup hleft hl,
      State.withGroup_of_not_lastGroup (hgidx ▸ hng ▸ hleft) (hlast ▸ hl), hplace]
    exact { h with
      output := fun k hk => by
        have hk : k < s.outLen.toNat := hk
        simp [h.no_output (.inr hp)] at hk
      operands := fun _ => ⟨hopl, hnl, hinput⟩
      groups := fun _ => ⟨hng, hpads, congrArg (· + 1#17) hgidx, hleft', hwithin, hwritten⟩ }

/-- A RUN step of ENCODE writes the group's symbols, where its input is written (R111, R115). -/
theorem runEncode_eq (c : Config) {s : State} (h0 : s.opl = 0#2) :
    runEncode c s = match encodeAcc s.inRead s.nl.toNat s.gidx.toNat with
      | none => .fault .uninitInput
      | some acc => .next (s.withGroup acc (encodeGroup c acc s.lastGroup s.padsI)) := by
  unfold State.withGroup
  rw [outputBefore, if_pos h0]
  rfl

/-- A RUN step of DECODE writes the group's kept bytes, where its symbols are written (R111, R115). -/
theorem runDecode_eq (c : Config) {s : State} (h0 : s.opl ≠ 0#2) :
    runDecode c s = match decodeAcc c s.inRead s.gidx.toNat with
      | none => .fault .uninitInput
      | some acc => .next (s.withGroup acc (decodeGroup acc s.lastGroup s.padsI)) := by
  unfold State.withGroup
  rw [outputBefore, if_neg h0]
  rfl

theorem State.InStep.runStep {s s' : State} (h : s.InStep s') (hp : s.phase = .run) (c : Config) :
    OutcomesAgree State.InStep (runStep c s) (runStep c s') := by
  obtain ⟨hopl, hnl, hinput⟩ := h.operands (.inr hp)
  obtain ⟨hng, hpads, hgidx, hleft, hwithin, -⟩ := h.groups hp
  have hlast := (h.groups hp).lastGroup
  unfold Machine.runStep
  rw [← hopl]
  refine .ite (fun h0 => ?encode) fun h0 => ?decode
  case encode =>
    rw [runEncode_eq c h0, runEncode_eq c (hopl ▸ h0), ← hnl, ← hgidx, ← hlast, ← hpads, ← encodeAcc_congr hinput]
    cases encodeAcc s.inRead s.nl.toNat s.gidx.toNat with
    | none => exact rfl
    | some acc => exact h.withGroup hp acc (encodeGroup_end c h0 acc)
  case decode =>
    have hin := hwithin h0
    rw [runDecode_eq c h0, runDecode_eq c (hopl ▸ h0), ← hgidx, ← hlast, ← hpads,
      ← decodeAcc_congr c fun k hk => hinput k (by omega)]
    cases decodeAcc c s.inRead s.gidx.toNat with
    | none => exact rfl
    | some acc => exact h.withGroup hp acc (decodeGroup_end h0 acc)

/-! ## Whole commands -/

theorem State.InStep.engineStep {s s' : State} (h : s.InStep s') (c : Config) :
    OutcomesAgree State.InStep (engineStep c s) (engineStep c s') := by
  by_cases hw : s.Working
  · rcases hw with hp | hp
    · rw [engineStep_of_check c s hp, engineStep_of_check c s' (h.phase ▸ hp)]
      exact h.checkStep hp c
    · rw [engineStep_of_run c s hp, engineStep_of_run c s' (h.phase ▸ hp)]
      exact h.runStep hp c
  · have hw' : ¬s'.Working := by rwa [State.Working, ← h.phase]
    rw [engineStep_of_not_working c s hw, engineStep_of_not_working c s' hw']
    exact h

/-- Any number of engine steps keeps two blocks in step, or stops both with the same fault. -/
theorem State.InStep.run (c : Config) (n : Nat) :
    ∀ {s s' : State}, s.InStep s' → OutcomesAgree State.InStep ((machineOf c).run n s) ((machineOf c).run n s') := by
  induction n with
  | zero => exact fun h => h
  | succ n ih =>
    intro s s' h
    have hstep := h.engineStep c
    rw [← stepWith_of_nil c s h.pending.1, ← stepWith_of_nil c s' h.pending.2] at hstep
    simp only [Host.Core.run, machineOf]
    cases hs : stepWith c s <;> cases hs' : stepWith c s' <;> rw [hs, hs'] at hstep
    case next.next u u' => exact ih hstep
    case fault.fault f f' => exact hstep
    all_goals exact False.elim hstep

/-- The command words other than SETOP start a command (R106 to R108). -/
theorem exec_eq_start {i : Instr} (hi : ∀ op, i ≠ .setop op) : ∃ op, ∀ s, exec i s = .next (s.start op) := by
  cases i with
  | setop op => exact absurd rfl (hi op)
  | encode => exact ⟨0#2, fun _ => rfl⟩
  | decode => exact ⟨1#2, fun _ => rfl⟩
  | rsvd2 => exact ⟨2#2, fun _ => rfl⟩
  | rsvd3 => exact ⟨3#2, fun _ => rfl⟩

/-- A START puts two idle blocks with the same input in step (R105). -/
theorem State.inStep_start {s s' : State} (hp : s.phase = .idle) (hp' : s'.phase = .idle)
    (hpending : s.pending = [] ∧ s'.pending = []) (hlen : s.inLen = s'.inLen)
    (hin : ∀ k, k < s.inLen.toNat → s.inBuf.read k = s'.inBuf.read k) (op : BitVec 2) :
    (s.start op).InStep (s'.start op) := by
  rw [State.start_of_idle s op hp, State.start_of_idle s' op hp']
  exact {
    phase := rfl
    status := rfl
    outLen := rfl
    errPos := rfl
    output := fun _ hk => absurd hk (Nat.not_lt_zero _)
    pending := hpending
    no_output := fun _ => rfl
    operands := fun _ => ⟨rfl, hlen, hin⟩
    groups := nofun }

/-- Settles O44: a START puts the two blocks in step, and every engine step keeps them so, since CHECK and RUN read the
latched operands, the input below `NL` and what the command itself has written, and nothing else. -/
theorem outcomeDependsOnlyOnTheOperands : Obligations.OutcomeDependsOnlyOnTheOperands := by
  intro c s s' t t' i n hp hp' hes hes' hlen hin hi ht ht'
  obtain ⟨op, hexec⟩ := exec_eq_start hi
  cases (hexec s).symm.trans ht
  cases (hexec s').symm.trans ht'
  have hrun := (State.inStep_start hp hp' ⟨hes, hes'⟩ hlen hin op).run c n
  generalize (machineOf c).run n (s.start op) = o at hrun ⊢
  generalize (machineOf c).run n (s'.start op) = o' at hrun ⊢
  cases o <;> cases o'
  case next.next u u' => exact ⟨hrun.phase, hrun.status, hrun.outLen, hrun.errPos, hrun.output⟩
  all_goals exact hrun

end Sys2Proof.Machine
end

section
/-! Which bus transactions are host accesses (R45 to R47, R70), and that host programs and lists of transactions encode
and decode to each other (R72). -/

namespace Sys2Proof

/-- What of a transaction the host decides: a read's data is the block's answer, and counts as 0 (log 8). -/
def Transaction.asSent (t : Transaction) : Transaction :=
  match t.dir with
  | .read => { t with data := 0#32 }
  | .write => t

theorem Transaction.asSent_of_read {t : Transaction} (h : t.dir = .read) : t.asSent = { t with data := 0#32 } := by
  rw [Transaction.asSent, h]

theorem Transaction.asSent_of_write {t : Transaction} (h : t.dir = .write) : t.asSent = t := by
  rw [Transaction.asSent, h]

theorem Transaction.asSent_form (t : Transaction) :
    t.asSent.dir = t.dir ∧ t.asSent.width = t.width ∧ t.asSent.addr = t.addr := by
  cases h : t.dir with
  | read => rw [Transaction.asSent_of_read h, ← h]; exact ⟨rfl, rfl, rfl⟩
  | write => rw [Transaction.asSent_of_write h, ← h]; exact ⟨rfl, rfl, rfl⟩

theorem Transaction.asSent_encodeAccess (a : Access) : (encodeAccess a).asSent = encodeAccess a := by
  cases a <;> rfl

/-! ## One transaction -/

theorem Addr.inRegisters_iff (a : Addr) : a.inRegisters = true ↔ a.toNat < 0x10000 := decide_eq_true_iff

theorem Addr.aligned_iff (a : Addr) : a.aligned = true ↔ a.toNat % 4 = 0 := decide_eq_true_iff

/-- A word that fits 8 bits is the zero extension of its low byte. -/
theorem setWidth_setWidth_of_lt {w : Word} (h : w.toNat < 256) : (w.setWidth 8).setWidth 32 = w := by
  apply BitVec.eq_of_toNat_eq
  simp only [BitVec.toNat_setWidth]
  omega

/-- The decoder ignores the data of a read (log 8). -/
theorem decodeAccess_asSent (t : Transaction) : decodeAccess t.asSent = decodeAccess t := by
  cases h : t.dir with
  | read => simp only [Transaction.asSent_of_read h, decodeAccess, h]
  | write => rw [Transaction.asSent_of_write h]

theorem decodeAccess_encodeAccess {a : Access} (h : a.wellFormed = true) : decodeAccess (encodeAccess a) = .ok a := by
  cases a with
  | rd32 addr | wr32 addr w =>
    obtain ⟨hr, h4⟩ := (Bool.and_eq_true_iff).mp h
    simp [decodeAccess, encodeAccess, hr, h4]
  | rd8 addr =>
    have hr := (Bool.not_eq_true' _).mp h
    simp [decodeAccess, encodeAccess, hr]
  | wr8 addr b =>
    have hr := (Bool.not_eq_true' _).mp h
    have hb : (b.setWidth 32).toNat < 256 := by
      rw [BitVec.toNat_setWidth_of_le (by decide)]
      exact b.isLt
    simp only [decodeAccess, encodeAccess, hr, hb, Bool.false_eq_true, ne_eq, not_true_eq_false, if_false, if_true]
    rw [BitVec.setWidth_setWidth_of_le _ (by decide), BitVec.setWidth_eq]

/-- What decodes is an access in the form of R45 or R46, and a transaction is its encoding, the data of a read apart. -/
theorem wellFormed_and_encodeAccess_of_decodeAccess {t : Transaction} {a : Access} (h : decodeAccess t = .ok a) :
    a.wellFormed = true ∧ encodeAccess a = t.asSent := by
  obtain ⟨dir, width, addr, data⟩ := t
  unfold decodeAccess at h
  dsimp only at h
  split at h
  case isTrue hr =>
    split at h
    case isTrue => cases h
    case isFalse hw =>
    split at h
    case isTrue => cases h
    case isFalse h4 =>
    obtain rfl : width = 4 := not_not.mp hw
    have hwf : (addr.inRegisters && addr.aligned) = true := by simp [hr, h4]
    cases dir <;> cases h <;> exact ⟨hwf, rfl⟩
  case isFalse hr =>
    split at h
    case isTrue => cases h
    case isFalse hw =>
    obtain rfl : width = 1 := not_not.mp hw
    have hwf : (!addr.inRegisters) = true := by simp [hr]
    cases dir with
    | read => cases h; exact ⟨hwf, rfl⟩
    | write =>
      dsimp only at h
      split at h
      case isFalse => cases h
      case isTrue hb =>
      cases h
      exact ⟨hwf, by rw [encodeAccess, setWidth_setWidth_of_lt hb]; rfl⟩

/-- A transaction stands for the access that is well-formed and encodes to it, the data of a read apart (R45, R46, R70). -/
theorem decodeAccess_eq_ok_iff (t : Transaction) (a : Access) :
    decodeAccess t = .ok a ↔ a.wellFormed = true ∧ encodeAccess a = t.asSent := by
  refine ⟨wellFormed_and_encodeAccess_of_decodeAccess, fun ⟨hwf, he⟩ => ?_⟩
  rw [← decodeAccess_asSent, ← he, decodeAccess_encodeAccess hwf]

/-- A transaction is refused exactly in the forms R47 names, or where the data of an 8-bit write is too wide (log 8). -/
theorem exists_decodeAccess_eq_error_iff (t : Transaction) : (∃ e, decodeAccess t = .error e) ↔
    (t.addr.toNat < 0x10000 ∧ (t.width ≠ 4 ∨ t.addr.toNat % 4 ≠ 0)) ∨
    (0x10000 ≤ t.addr.toNat ∧ (t.width ≠ 1 ∨ (t.dir = .write ∧ 256 ≤ t.data.toNat))) := by
  unfold decodeAccess
  split
  case isTrue hr =>
    have hr := (Addr.inRegisters_iff _).mp hr
    have hlow : ¬0x10000 ≤ t.addr.toNat := by omega
    simp only [hr, hlow, true_and, false_and, or_false]
    split
    case isTrue hw => exact iff_of_true ⟨_, rfl⟩ (.inl hw)
    case isFalse hw =>
    split
    case isTrue h4 => exact iff_of_true ⟨_, rfl⟩ (.inr ((Addr.aligned_iff _).not.mp (Bool.eq_false_iff.mp h4)))
    case isFalse h4 =>
    have h4 := (Addr.aligned_iff _).mp (Bool.not_eq_false _ ▸ h4)
    refine iff_of_false ?_ (not_or.mpr ⟨hw, not_not.mpr h4⟩)
    cases t.dir <;> nofun
  case isFalse hr =>
    have hr := (Addr.inRegisters_iff _).not.mp hr
    simp only [hr, Nat.le_of_not_lt hr, true_and, false_and, false_or]
    split
    case isTrue hw => exact iff_of_true ⟨_, rfl⟩ (.inl hw)
    case isFalse hw =>
    cases hd : t.dir with
    | read => exact iff_of_false nofun (not_or.mpr ⟨hw, nofun⟩)
    | write =>
      dsimp only
      split
      case isTrue hb => exact iff_of_false nofun (not_or.mpr ⟨hw, fun h => by omega⟩)
      case isFalse hb => exact iff_of_true ⟨_, rfl⟩ (.inr ⟨rfl, by omega⟩)

/-! ## Host programs -/

theorem decodeProgram_cons_ne_nil (t : Transaction) (ts : List Transaction) : decodeProgram (t :: ts) ≠ .ok [] := by
  rw [decodeProgram]
  cases decodeAccess t with
  | error e => nofun
  | ok a => cases decodeProgram ts <;> nofun

theorem decodeProgram_cons_eq_ok_iff (t : Transaction) (ts : List Transaction) (a : Access) (p : List Access) :
    decodeProgram (t :: ts) = .ok (a :: p) ↔ decodeAccess t = .ok a ∧ decodeProgram ts = .ok p := by
  rw [decodeProgram]
  cases decodeAccess t with
  | error e => simp
  | ok a' => cases decodeProgram ts <;> simp

/-- A list of transactions is the encoding of the program it decodes to, the data of reads apart (R72). -/
theorem decodeProgram_eq_ok_iff (ts : List Transaction) : ∀ p : List Access, decodeProgram ts = .ok p ↔
    (∀ a ∈ p, a.wellFormed = true) ∧ encodeProgram p = ts.map Transaction.asSent := by
  induction ts with
  | nil => intro p; cases p <;> simp [decodeProgram, encodeProgram]
  | cons t ts ih =>
    intro p
    cases p with
    | nil => simp [decodeProgram_cons_ne_nil, encodeProgram]
    | cons a p =>
      rw [decodeProgram_cons_eq_ok_iff, decodeAccess_eq_ok_iff, ih p]
      simp only [encodeProgram, List.map_cons, List.cons.injEq, List.forall_mem_cons]
      tauto

theorem map_asSent_encodeProgram (p : List Access) : (encodeProgram p).map Transaction.asSent = encodeProgram p := by
  simp only [encodeProgram, List.map_map]
  exact List.map_congr_left fun a _ => Transaction.asSent_encodeAccess a

/-- The writes of a list are sent as they stand. -/
theorem filter_write_map_asSent (ts : List Transaction) :
    ((ts.map Transaction.asSent).filter fun t => t.dir == .write) = ts.filter fun t => t.dir == .write := by
  induction ts with
  | nil => rfl
  | cons t ts ih =>
    rw [List.map_cons, List.filter_cons, List.filter_cons, t.asSent_form.1, ih]
    split
    · rw [Transaction.asSent_of_write (eq_of_beq ‹_›)]
    · rfl

/-- Settles O9: a list decodes to exactly the admitted program whose encoding it is, the data of reads apart, which
neither the forms nor the writes of the list show. -/
theorem hostProgramsRoundTrip : Obligations.HostProgramsRoundTrip := by
  refine ⟨fun p hp => (decodeProgram_eq_ok_iff _ p).mpr ⟨hp, (map_asSent_encodeProgram p).symm⟩, fun ts p h => ?_⟩
  obtain ⟨hwf, he⟩ := (decodeProgram_eq_ok_iff ts p).mp h
  refine ⟨hwf, ?forms, ?writes⟩
  case forms =>
    rw [he, List.map_map]
    refine List.map_congr_left fun t _ => ?_
    obtain ⟨hdir, hwidth, haddr⟩ := t.asSent_form
    simp only [Function.comp_apply, hdir, hwidth, haddr]
  case writes => rw [he, filter_write_map_asSent]

end Sys2Proof
end

section
/-! The host's accesses: which transactions are refused (R47), what a read and a write of each buffer do (R42, R43), and
what an access leaves unchanged (R49, R54, R55, R113). -/

namespace Sys2Proof.Machine

/-! ## Which transactions are performed -/

theorem stepWith_access_refused_iff (c : Config) {s : State} {t : Transaction} {es : List Event}
    (hp : s.pending = .access t :: es) : (∃ r, stepWith c s = .refused r) ↔ ∃ e, decodeAccess t = .error e := by
  rw [stepWith_of_cons c s _ es hp, performEvent]
  cases hd : decodeAccess t with
  | error e => simp [performTransaction_of_error c _ t e hd]
  | ok a =>
    obtain ⟨u, hu, -⟩ := performAccess_effect c (s.setPending es) a
    simp [performTransaction_of_ok c _ t a hd, hu]

/-- Settles O15: a step whose next event is a transaction is refused exactly where the transaction does not decode. -/
theorem refusedExactlyForUnadmittedForms : Obligations.RefusedExactlyForUnadmittedForms :=
  fun c _ t _ hp => (stepWith_access_refused_iff c hp).trans (exists_decodeAccess_eq_error_iff t)

/-! ## The buffer windows -/

/-- An 8-bit transaction of a buffer window is an admitted access (R46). -/
theorem decodeAccess_buffer {a : Addr} (ha : 0x10000 ≤ a.toNat) (d : Word) (b : Byte) :
    decodeAccess ⟨.read, 1, a, d⟩ = .ok (.rd8 a) ∧ decodeAccess ⟨.write, 1, a, b.setWidth 32⟩ = .ok (.wr8 a b) := by
  have hr : (!a.inRegisters) = true := by simp [Addr.inRegisters, ha]
  exact ⟨(decodeAccess_eq_ok_iff _ _).mpr ⟨hr, rfl⟩, (decodeAccess_eq_ok_iff _ _).mpr ⟨hr, rfl⟩⟩

theorem inBuf_addr_toNat {i : Nat} (hi : i < 0x10000) : (BitVec.ofNat 18 (0x10000 + i)).toNat = 0x10000 + i := by
  rw [BitVec.toNat_ofNat]
  omega

theorem outBuf_addr_toNat {i : Nat} (hi : i < 0x20000) : (BitVec.ofNat 18 (0x20000 + i)).toNat = 0x20000 + i := by
  rw [BitVec.toNat_ofNat]
  omega

/-- The window at 0x10000 is `IN_BUF`'s (R40). -/
theorem buffer_inBuf (c : Config) (s : State) {i : Nat} (hi : i < 0x10000) (b : Byte) :
    readBuffer c s (BitVec.ofNat 18 (0x10000 + i)) = readInBuf c s i ∧
    writeBuffer c s (BitVec.ofNat 18 (0x10000 + i)) b = s.writeInBuf c.inCap i b := by
  have ha := inBuf_addr_toNat hi
  have hlt : 0x10000 + i < 0x20000 := by omega
  simp only [readBuffer, writeBuffer, ha, outBufBase, if_pos hlt, inBufBase, Nat.add_sub_cancel_left, and_self]

/-- The window at 0x20000 is `OUT_BUF`'s, and takes no write (R40, R43, log 12). -/
theorem buffer_outBuf (c : Config) (s : State) {i : Nat} (hi : i < 0x20000) (b : Byte) :
    readBuffer c s (BitVec.ofNat 18 (0x20000 + i)) = readOutBuf c s i ∧
    writeBuffer c s (BitVec.ofNat 18 (0x20000 + i)) b = s := by
  have ha := outBuf_addr_toNat hi
  have hge : ¬0x20000 + i < 0x20000 := by omega
  simp only [readBuffer, writeBuffer, ha, outBufBase, if_neg hge, Nat.add_sub_cancel_left, and_self]

/-- A write of `IN_BUF` changes one cell, and that in IDLE and below the capacity only (R42, R113). -/
theorem State.read_inBuf_writeInBuf (s : State) (cap i : Nat) (b : Byte) (j : Nat) :
    (s.writeInBuf cap i b).inBuf.read j = if j = i ∧ i < cap ∧ s.phase = .idle then some b else s.inBuf.read j := by
  by_cases h : s.phase = .idle ∧ i < cap
  · rw [State.writeInBuf_of_idle s cap i b h.1 h.2, Memory.read_write]
    simp only [h.1, h.2, and_true]
  · rw [if_neg fun hh => h ⟨hh.2.2, hh.2.1⟩, State.writeInBuf, if_neg]
    simpa using h

/-- Settles O18: the access decodes to the buffer's, whose index is `i`. -/
theorem inBufAccesses : Obligations.InBufAccesses := by
  intro c s i d b es hi
  have hdecode := decodeAccess_buffer (a := BitVec.ofNat 18 (0x10000 + i)) (by rw [inBuf_addr_toNat hi]; omega) d b
  obtain ⟨hread, hwrite⟩ := buffer_inBuf c (s.setPending es) hi b
  constructor
  · intro hp
    rw [stepWith_of_access hp hdecode.1, performAccess, hread, readInBuf, State.setPending_inBuf]
    cases (if i < c.inCap then s.inBuf.read i else some 0x00#8) <;> rfl
  · intro hp
    rw [stepWith_of_access hp hdecode.2, performAccess, hwrite]
    refine ⟨_, rfl, ?_, State.read_inBuf_writeInBuf (s.setPending es) c.inCap i b⟩
    unfold State.writeInBuf
    split <;> rfl

/-- Settles O19: the access decodes to the buffer's, whose index is `i`. -/
theorem outBufAccesses : Obligations.OutBufAccesses := by
  intro c s i d b es hi
  have hdecode := decodeAccess_buffer (a := BitVec.ofNat 18 (0x20000 + i)) (by rw [outBuf_addr_toNat hi]; omega) d b
  obtain ⟨hread, hwrite⟩ := buffer_outBuf c (s.setPending es) hi b
  refine ⟨fun hp => ?write, fun hp => ?read⟩
  case write =>
    rw [stepWith_of_access hp hdecode.2, performAccess, hwrite]
    rfl
  case read =>
    rw [stepWith_of_access hp hdecode.1, performAccess, hread, readOutBuf]
    refine ⟨fun hcap => ?unmapped, fun v hcap hbusy hlen hv => ?output, fun hcap hno => ?draw⟩
    case unmapped =>
      rw [if_pos hcap]
      rfl
    case output =>
      rw [if_neg (Nat.not_le.mpr hcap), if_pos ⟨hbusy, hlen⟩, State.setPending_outBuf, hv]
      rfl
    case draw =>
      have hnone : ¬(s.status.busy = false ∧ i < s.outLen.toNat) := by
        rintro ⟨hbusy, hlen⟩
        rcases hno with h | h
        · exact absurd h (by simp [hbusy])
        · omega
      rw [if_neg (Nat.not_le.mpr hcap), State.setPending_status, State.setPending_outLen, if_neg hnone]
      rfl

/-! ## What an access leaves unchanged -/

theorem HostEffect.pending_eq {c : Config} {s t : State} (h : HostEffect c s t) : t.pending = s.pending := by
  cases h <;> simp

/-- A read gives the host one value and changes nothing of the block (R49). -/
theorem performAccess_sameBlock_of_read (c : Config) (s : State) {a : Access} (ha : (encodeAccess a).dir = .read) :
    ∃ u, performAccess c s a = .next u ∧ s.SameBlock u ∧ ∃ v, u.readLog = s.readLog ++ [v] := by
  cases a with
  | rd32 addr => exact ⟨_, rfl, rfl, _, rfl⟩
  | rd8 addr =>
    refine ⟨_, rfl, ?_⟩
    cases readBuffer c s addr <;> exact ⟨rfl, _, rfl⟩
  | wr32 addr w | wr8 addr b => cases ha

/-- In a phase other than IDLE an admitted access changes nothing of the block (R54, R113). -/
theorem stepWith_access_of_not_idle (c : Config) {s : State} {t : Transaction} {a : Access} {es : List Event}
    (hp : s.pending = .access t :: es) (hidle : s.phase ≠ .idle) (hd : decodeAccess t = .ok a) :
    ∃ u, stepWith c s = .next u ∧ s.SameBlock u ∧ u.pending = es := by
  obtain ⟨u, hu, he⟩ := performAccess_effect c (s.setPending es) a
  have hb := (s.sameBlock_setPending es).trans (he.sameBlock_of_not_idle hidle)
  exact ⟨u, (stepWith_of_access hp hd).trans hu, hb, he.pending_eq⟩

/-- Settles O21: an access that decodes from a read is a read. -/
theorem readsHaveNoSideEffect : Obligations.ReadsHaveNoSideEffect := by
  intro c s t a es hp hdir hd
  have hread : (encodeAccess a).dir = .read := by
    rw [(wellFormed_and_encodeAccess_of_decodeAccess hd).2, t.asSent_form.1, hdir]
  obtain ⟨u, hu, hb, hlog⟩ := performAccess_sameBlock_of_read c (s.setPending es) hread
  obtain ⟨u', hu', he⟩ := performAccess_effect c (s.setPending es) a
  cases hu.symm.trans hu'
  exact ⟨u, (stepWith_of_access hp hd).trans hu, (s.sameBlock_setPending es).trans hb, he.pending_eq, hlog⟩

/-- Settles O22: each write is ignored outside IDLE, and a read changes nothing of the block. -/
theorem noAccessChangesABlockThatIsNotIdle : Obligations.NoAccessChangesABlockThatIsNotIdle :=
  fun c _ _ _ _ hp hidle hd => stepWith_access_of_not_idle c hp hidle hd

/-- The result of the last command stands as it was (R55). -/
structure State.OutputKept (s t : State) : Prop where
  status : t.status = s.status
  outLen : t.outLen = s.outLen
  errPos : t.errPos = s.errPos
  phase : t.phase = s.phase
  outBuf : t.outBuf = s.outBuf

/-- A command word with `START` clear is a SETOP (R64). -/
theorem decodeCtrl_of_start_clear {w : Word} (h : w.getLsbD 0 = false) : decodeCtrl w = .setop (opField w) := by
  have hstart : startField w = 0#1 := by
    apply BitVec.eq_of_getLsbD_eq
    intro k hk
    obtain rfl : k = 0 := by omega
    simpa [startField] using h
  rw [decodeCtrl, if_pos hstart]

/-- An access that is no START keeps the result of the last command (R55). -/
theorem performAccess_outputKept {c : Config} {s t : State} {a : Access} (h : performAccess c s a = .next t)
    (ha : ∀ w, a = .wr32 ctrlAddr w → w.getLsbD 0 = false) : s.OutputKept t := by
  cases a with
  | rd32 addr => cases h; exact ⟨rfl, rfl, rfl, rfl, rfl⟩
  | rd8 addr => cases h; constructor <;> simp
  | wr8 addr b =>
    cases h
    unfold writeBuffer
    split
    · constructor <;> simp
    · exact ⟨rfl, rfl, rfl, rfl, rfl⟩
  | wr32 addr w =>
    simp only [performAccess, writeRegister] at h
    split at h
    case isTrue hctrl =>
      rw [decodeCtrl_of_start_clear (ha w (by rw [hctrl]))] at h
      cases h
      constructor <;> simp
    case isFalse =>
    split at h
    case isTrue => cases h; constructor <;> simp
    case isFalse => cases h; exact ⟨rfl, rfl, rfl, rfl, rfl⟩

/-- Settles O23: only an accepted START changes the result of the last command. -/
theorem outputStaysUntilTheNextStart : Obligations.OutputStaysUntilTheNextStart := by
  intro c s u t es hp hidle hs hstart
  cases hd : decodeAccess t with
  | error e => 
    rw [stepWith_of_cons c s _ es hp, performEvent, performTransaction_of_error c _ t e hd] at hs
    cases hs
  | ok a =>
    rw [stepWith_of_access hp hd] at hs
    have hkept := performAccess_outputKept hs fun w hw => by
      subst hw
      obtain ⟨-, he⟩ := wellFormed_and_encodeAccess_of_decodeAccess hd
      have hdir : t.dir = .write := t.asSent_form.1.symm.trans (congrArg Transaction.dir he.symm)
      rw [Transaction.asSent_of_write hdir] at he
      subst he
      exact Bool.eq_false_iff.mpr fun hbit => hstart ⟨rfl, rfl, hbit⟩
    exact ⟨hkept.status, hkept.outLen, hkept.errPos, hkept.phase.trans hidle, fun k => by rw [hkept.outBuf]; rfl⟩

end Sys2Proof.Machine
end

section
/-! The engine and what is around it: its step looks at the block alone (R48, R53), and host accesses between the steps
of a command do not matter (R116). -/

namespace Sys2Proof.Machine

/-! ## The engine's step depends on the block alone -/

/-- What the engine's step looks at is of the block. -/
theorem State.SameBlock.engine_fields {s t : State} (h : s.SameBlock t) :
    s.opl = t.opl ∧ s.nl = t.nl ∧ s.gidx = t.gidx ∧ s.padsI = t.padsI ∧ s.lastGroup = t.lastGroup ∧
      s.inRead = t.inRead := by
  obtain ⟨es, log, draws, rfl⟩ := h.exists_eq
  exact ⟨rfl, rfl, rfl, rfl, rfl, rfl⟩

theorem State.SameBlock.phase_eq {s t : State} (h : s.SameBlock t) : s.phase = t.phase := by
  obtain ⟨es, log, draws, rfl⟩ := h.exists_eq
  rfl

theorem State.SameBlock.raise {s t : State} (h : s.SameBlock t) (e : EngineError) :
    (s.raise e).SameBlock (t.raise e) := by
  obtain ⟨es, log, draws, rfl⟩ := h.exists_eq
  rfl

theorem State.SameBlock.beginRun {s t : State} (h : s.SameBlock t) (pads : BitVec 2) (n : Nat) :
    (s.beginRun pads n).SameBlock (t.beginRun pads n) := by
  obtain ⟨es, log, draws, rfl⟩ := h.exists_eq
  unfold State.beginRun
  dsimp only
  split <;> rfl

theorem State.SameBlock.finishGroup {s t : State} (h : s.SameBlock t) : s.finishGroup.SameBlock t.finishGroup := by
  obtain ⟨es, log, draws, rfl⟩ := h.exists_eq
  unfold State.finishGroup
  dsimp only
  split <;> rfl

theorem State.SameBlock.withGroup {s t : State} (h : s.SameBlock t) (acc : Accum) (bs : List Byte) :
    (s.withGroup acc bs).SameBlock (t.withGroup acc bs) := by
  obtain ⟨es, log, draws, rfl⟩ := h.exists_eq
  exact State.SameBlock.finishGroup rfl

theorem State.SameBlock.checkStep {s t : State} (h : s.SameBlock t) (c : Config) :
    OutcomesAgree State.SameBlock (checkStep c s) (checkStep c t) := by
  obtain ⟨hopl, hnl, -, -, -, hread⟩ := h.engine_fields
  unfold Machine.checkStep checkEncode checkDecode
  rw [← hopl, ← hnl, ← hread]
  refine .ite (fun _ => h.raise _) fun _ => .ite (fun _ => h.raise _) fun _ => .ite (fun _ => ?encode) fun _ => ?decode
  case encode => exact .ite (fun _ => h.raise _) fun _ => h.beginRun _ _
  case decode =>
    refine .ite (fun _ => h.raise _) fun _ => .ite (fun _ => h.beginRun _ _) fun _ => ?scan
    case scan =>
      cases scanFrom c s.inRead (s.nl.toNat / 4 - 1) s.nl.toNat 0 with
      | unwritten => exact rfl
      | bad cause pos => exact h.raise _
      | pass => exact .ite (fun _ => h.raise _) fun _ => h.beginRun _ _

theorem State.SameBlock.runStep {s t : State} (h : s.SameBlock t) (c : Config) :
    OutcomesAgree State.SameBlock (runStep c s) (runStep c t) := by
  obtain ⟨hopl, hnl, hgidx, hpads, hlast, hread⟩ := h.engine_fields
  unfold Machine.runStep
  rw [← hopl]
  refine .ite (fun h0 => ?encode) fun h0 => ?decode
  case encode =>
    rw [runEncode_eq c h0, runEncode_eq c (hopl ▸ h0), ← hnl, ← hgidx, ← hpads, ← hlast, ← hread]
    cases encodeAcc s.inRead s.nl.toNat s.gidx.toNat with
    | none => exact rfl
    | some acc => exact h.withGroup _ _
  case decode =>
    rw [runDecode_eq c h0, runDecode_eq c (hopl ▸ h0), ← hgidx, ← hpads, ← hlast, ← hread]
    cases decodeAcc c s.inRead s.gidx.toNat with
    | none => exact rfl
    | some acc => exact h.withGroup _ _

/-- From two states of one block the engine comes to two states of one block, or to the same fault (R48). -/
theorem State.SameBlock.engineStep {s t : State} (h : s.SameBlock t) (c : Config) :
    OutcomesAgree State.SameBlock (engineStep c s) (engineStep c t) := by
  have hphase := h.phase_eq
  unfold Machine.engineStep
  rw [← hphase]
  cases s.phase with
  | idle | locked => exact h
  | check => exact h.checkStep c
  | run => exact h.runStep c

/-- The engine leaves what is around the block as it was (R48). -/
theorem engineStep_surroundings {c : Config} {s t : State} (h : engineStep c s = .next t) :
    t.pending = s.pending ∧ t.readLog = s.readLog ∧ t.draws = s.draws := by
  by_cases hw : s.Working
  · rcases hw with hp | hp
    · rw [engineStep_of_check c s hp] at h
      obtain ⟨e, -, -, rfl⟩ | ⟨pads, n, rfl⟩ := checkStep_raise_or_beginRun h
      · exact ⟨rfl, rfl, rfl⟩
      · simp
    · rw [engineStep_of_run c s hp] at h
      obtain ⟨acc, bs, -, rfl⟩ := runStep_withGroup h
      simp [State.withGroup]
  · rw [engineStep_of_not_working c s hw] at h
    cases h
    exact ⟨rfl, rfl, rfl⟩

theorem OutcomesAgree.next_or_fault {R : State → State → Prop} {o o' : Host.Outcome State Fault Refusal}
    (h : OutcomesAgree R o o') :
    (∃ t t', o = .next t ∧ o' = .next t' ∧ R t t') ∨ ∃ f, o = .fault f ∧ o' = .fault f := by
  cases o <;> cases o'
  case next.next t t' => exact .inl ⟨t, t', rfl, rfl, h⟩
  case fault.fault f f' => exact .inr ⟨f, rfl, congrArg _ (Eq.symm h)⟩
  all_goals exact False.elim h

/-- Settles O59: no guard and no value of the engine's step looks past the block. -/
theorem engineStepDependsOnTheBlockAlone : Obligations.EngineStepDependsOnTheBlockAlone := by
  intro c s s' hb
  obtain ⟨t, t', ht, ht', hb'⟩ | ⟨f, hf, hf'⟩ := (hb.engineStep c).next_or_fault
  · rw [ht, ht']
    exact ⟨hb', engineStep_surroundings ht⟩
  · rw [hf, hf']

/-! ## Host accesses between the engine's steps -/

theorem run_succ_of_next {c : Config} {s t : State} (h : stepWith c s = .next t) (k : Nat) :
    (machineOf c).run (k + 1) s = (machineOf c).run k t := by
  simp only [Host.Core.run, machineOf, h]

theorem run_succ_of_fault {c : Config} {s : State} {f : Fault} (h : stepWith c s = .fault f) (k : Nat) :
    (machineOf c).run (k + 1) s = .fault f := by
  simp only [Host.Core.run, machineOf, h]

/-- An engine event and a step with no event to come are the same step of the block. -/
theorem State.SameBlock.stepWith_engine {s s' : State} {es : List Event} (h : s.SameBlock s')
    (hp : s.pending = .engine :: es) (hp' : s'.pending = []) (c : Config) :
    (∃ u u', stepWith c s = .next u ∧ stepWith c s' = .next u' ∧ u.SameBlock u' ∧
      u.pending = es ∧ u'.pending = []) ∨
    ∃ f, stepWith c s = .fault f ∧ stepWith c s' = .fault f := by
  rw [stepWith_of_cons c s _ es hp, stepWith_of_nil c s' hp', performEvent]
  have hb := (s.sameBlock_setPending es).symm.trans h
  refine (hb.engineStep c).next_or_fault.imp_left ?_
  rintro ⟨u, u', hu, hu', hb'⟩
  exact ⟨u, u', hu, hu', hb', (engineStep_surroundings hu).1, (engineStep_surroundings hu').1.trans hp'⟩

/-- A command with accesses between its engine steps goes as with those engine steps alone (R116). -/
theorem run_interleaved (c : Config) (es fs : List Event) : ∀ {s s' : State}, s.SameBlock s' →
    s.pending = fs ++ .engine :: es → s'.pending = [] →
    (∀ e ∈ fs, e = .engine ∨ ∃ t a, e = .access t ∧ decodeAccess t = .ok a) →
    (∀ k, k ≤ fs.count .engine → ∃ v : State, (machineOf c).run k s' = .next v ∧ v.Working) →
    OutcomesAgree (fun u u' => u'.SameBlock u ∧ u.pending = es)
      ((machineOf c).run (fs.length + 1) s) ((machineOf c).run (fs.count .engine + 1) s') := by
  induction fs with
  | nil =>
    intro s s' hb hp hp' _ _
    obtain ⟨u, u', hu, hu', hb', hes, -⟩ | ⟨f, hf, hf'⟩ := hb.stepWith_engine hp hp' c
    · rw [List.count_nil, List.length_nil, run_succ_of_next hu, run_succ_of_next hu']
      exact ⟨hb'.symm, hes⟩
    · rw [run_succ_of_fault hf, run_succ_of_fault hf']
      exact rfl
  | cons e fs ih =>
    intro s s' hb hp hp' hfs hwork
    obtain ⟨he, hrest⟩ := List.forall_mem_cons.mp hfs
    obtain rfl | ⟨t, a, rfl, hd⟩ := he
    case inl =>
      rw [List.count_cons_self] at hwork ⊢
      obtain ⟨u, u', hu, hu', hb', hes, hes'⟩ | ⟨f, hf, hf'⟩ := hb.stepWith_engine hp hp' c
      · rw [List.length_cons, run_succ_of_next hu, run_succ_of_next hu']
        exact ih hb' hes hes' hrest fun k hk => run_succ_of_next hu' k ▸ hwork (k + 1) (by omega)
      · rw [run_succ_of_fault hf, run_succ_of_fault hf']
        exact rfl
    case inr =>
      obtain ⟨v, hv, hw⟩ := hwork 0 (Nat.zero_le _)
      cases hv
      have hidle : s.phase ≠ .idle := by
        rw [hb.phase_eq]
        rcases hw with h | h <;> simp [h]
      obtain ⟨u, hu, hbu, hes⟩ := stepWith_access_of_not_idle c hp hidle hd
      have hcount : (Event.access t :: fs).count .engine = fs.count .engine := List.count_cons_of_ne (by simp)
      rw [hcount] at hwork ⊢
      rw [List.length_cons, run_succ_of_next hu]
      exact ih (hbu.symm.trans hb) hes hp' hrest hwork

/-- Settles O60: an access of a working block leaves the block as it is, and each engine event is a step of the engine
alone. -/
theorem interleavedAccessesDoNotMatter : Obligations.InterleavedAccessesDoNotMatter := by
  intro c s fs es hfs hp hwork
  have hagree := run_interleaved c es fs (s.sameBlock_setPending []) hp rfl hfs hwork
  generalize (machineOf c).run (fs.length + 1) s = o at hagree ⊢
  generalize (machineOf c).run (fs.count .engine + 1) (s.setPending []) = o' at hagree ⊢
  cases o <;> cases o' <;> exact hagree

end Sys2Proof.Machine
end

section
/-! Where a step faults (R115): the engine's reads of `IN_BUF` cells that nothing has written, and nothing else. -/

namespace Sys2Proof.Machine

/-! ## The CHECK step -/

theorem checkEncode_ne_fault (s : State) (f : Fault) : checkEncode s ≠ .fault f := by
  simp [checkEncode]

/-- The CHECK part of DECODE faults exactly where its scan comes to an unwritten cell (R115, R129). -/
theorem checkDecode_fault_iff (c : Config) (s : State) : checkDecode c s = .fault .uninitInput ↔
    s.nl.toNat % 4 = 0 ∧ scanFrom c s.inRead (s.nl.toNat / 4 - 1) s.nl.toNat 0 = .unwritten := by
  unfold checkDecode
  split
  case isTrue h4 => exact iff_of_false nofun fun h => h4 h.1
  case isFalse h4 =>
  dsimp only
  split
  case isTrue hg =>
    have hn : s.nl.toNat = 0 := by omega
    exact iff_of_false nofun fun h => by simp [hn, scanFrom] at h
  case isFalse hg =>
  cases scanFrom c s.inRead (s.nl.toNat / 4 - 1) s.nl.toNat 0 with
  | unwritten => exact iff_of_true rfl ⟨not_not.mp h4, rfl⟩
  | bad cause pos => exact iff_of_false nofun fun h => by cases h.2
  | pass =>
    dsimp only
    split <;> exact iff_of_false nofun fun h => by cases h.2

/-- `OPL` has the two commands and the two reserved codes (R64). -/
theorem opl_eq_one_iff (op : BitVec 2) : op = 1#2 ↔ ¬(op = 2#2 ∨ op = 3#2) ∧ op ≠ 0#2 := by
  revert op; decide

theorem checkStep_fault_iff (c : Config) (s : State) : checkStep c s = .fault .uninitInput ↔
    s.opl = 1#2 ∧ s.nl.toNat ≤ c.inCap ∧ s.nl.toNat % 4 = 0 ∧
      scanFrom c s.inRead (s.nl.toNat / 4 - 1) s.nl.toNat 0 = .unwritten := by
  unfold checkStep
  rw [opl_eq_one_iff]
  split
  case isTrue h => exact iff_of_false nofun fun hh => hh.1.1 h
  case isFalse hop =>
  split
  case isTrue h => exact iff_of_false nofun fun hh => by omega
  case isFalse hcap =>
  split
  case isTrue h => exact iff_of_false (checkEncode_ne_fault s _) fun hh => hh.1.2 h
  case isFalse h0 =>
  rw [checkDecode_fault_iff]
  exact ⟨fun h => ⟨⟨hop, h0⟩, by omega, h⟩, fun h => h.2.2⟩

/-- A CHECK step faults exactly where the scan of DECODE, with the checks before it passed, comes to an unwritten cell. -/
theorem engineStep_check_fault_iff (c : Config) {s : State} (hp : s.phase = .check) :
    engineStep c s = .fault .uninitInput ↔
      s.opl = 1#2 ∧ s.nl.toNat ≤ c.inCap ∧ s.nl.toNat % 4 = 0 ∧
      ∃ i, i < s.nl.toNat ∧ s.inRead i = none ∧ ∀ j, j < i → Sound c s.inRead (s.nl.toNat / 4 - 1) j := by
  rw [engineStep_of_check c s hp, checkStep_fault_iff, scanFrom_unwritten_iff]
  simp only [Nat.zero_le, Nat.zero_add, true_and, true_imp_iff]

/-! ## The RUN step -/

theorem engineStep_run_encode_fault_iff (c : Config) {s : State} (hp : s.phase = .run) (h0 : s.opl = 0#2) :
    engineStep c s = .fault .uninitInput ↔
      ∃ j, j < 3 ∧ 3 * s.gidx.toNat + j < s.nl.toNat ∧ s.inRead (3 * s.gidx.toNat + j) = none := by
  rw [← encodeAcc_none_iff, engineStep_of_run c s hp, runStep, if_pos h0, runEncode_eq c h0]
  cases encodeAcc s.inRead s.nl.toNat s.gidx.toNat <;> simp

theorem engineStep_run_decode_fault_iff (c : Config) {s : State} (hp : s.phase = .run) (h0 : s.opl ≠ 0#2) :
    engineStep c s = .fault .uninitInput ↔ ∃ k, k < 4 ∧ s.inRead (4 * s.gidx.toNat + k) = none := by
  rw [← decodeAcc_none_iff c, engineStep_of_run c s hp, runStep, if_neg h0, runDecode_eq c h0]
  cases decodeAcc c s.inRead s.gidx.toNat <;> simp

/-- The scan has read every symbol of a DECODE in RUN (R61, R91). -/
theorem State.RunReady.inRead_ne_none {c : Config} {s : State} (h : s.RunReady c) (h1 : s.opl = 1#2) {i : Nat}
    (hi : i < s.nl.toNat) : s.inRead i ≠ none := by
  obtain ⟨-, -, hpass, -⟩ := h.decode_checks h1
  obtain ⟨code, hcode, -⟩ := (scanFrom_pass_iff c s.inRead _ _ 0).mp hpass i (Nat.zero_le _) (by omega)
  simp [hcode]

theorem State.RunReady.engineStep_decode_ne_fault {c : Config} {s : State} (h : s.RunReady c) (hp : s.phase = .run)
    (h1 : s.opl = 1#2) : engineStep c s ≠ .fault .uninitInput := by
  rw [Ne, engineStep_run_decode_fault_iff c hp (by simp [h1])]
  rintro ⟨k, hk, hnone⟩
  obtain ⟨h4, hng, -, -⟩ := h.decode_checks h1
  have hleft := h.group_left
  exact h.inRead_ne_none h1 (by omega) hnone

/-! ## Every step -/

theorem engineStep_ne_refused (c : Config) (s : State) (r : Refusal) : engineStep c s ≠ .refused r := by
  have h := (State.SameBlock.refl s).engineStep c
  intro hr
  rw [hr] at h
  exact h

theorem working_of_engineStep_fault {c : Config} {s : State} {f : Fault} (h : engineStep c s = .fault f) : s.Working := by
  by_contra hw
  rw [engineStep_of_not_working c s hw] at h
  cases h

/-- Only the engine's step can fault: an admitted access answers a next state, an unadmitted one is refused (R47), and a
reset never stops. -/
theorem engineStep_fault_of_stepWith_fault {c : Config} {s : State} {f : Fault} (h : stepWith c s = .fault f) :
    engineStep c s = .fault f ∧ (s.pending = [] ∨ ∃ es, s.pending = .engine :: es) := by
  cases hp : s.pending with
  | nil => exact ⟨stepWith_of_nil c s hp ▸ h, .inl rfl⟩
  | cons e es =>
    rw [stepWith_of_cons c s e es hp] at h
    cases e with
    | engine =>
      obtain ⟨u, u', -, hu, -⟩ | ⟨f', hf', hf⟩ := ((s.sameBlock_setPending es).engineStep c).next_or_fault
      · cases hu.symm.trans h
      · cases hf.symm.trans h
        exact ⟨hf', .inr ⟨es, rfl⟩⟩
    | reset => cases h
    | access t =>
      rw [performEvent] at h
      cases hd : decodeAccess t with
      | error e =>
        rw [performTransaction_of_error c _ t e hd] at h
        cases h
      | ok a =>
        obtain ⟨u, hu, -⟩ := performAccess_effect c (s.setPending es) a
        rw [performTransaction_of_ok c _ t a hd, hu] at h
        cases h

/-- In a block that meets the invariant the cell a fault comes from is one of the command's input (R61). -/
theorem State.Inv.exists_unwritten {c : Config} {s : State} (h : s.Inv c) (hf : engineStep c s = .fault .uninitInput) :
    ∃ i, i < s.nl.toNat ∧ s.inBuf.read i = none := by
  rcases working_of_engineStep_fault hf with hp | hp
  · obtain ⟨-, -, -, i, hi, hnone, -⟩ := (engineStep_check_fault_iff c hp).mp hf
    exact ⟨i, hi, hnone⟩
  · obtain h0 | h1 := (h.run_ready hp).direction
    · obtain ⟨j, -, hj, hnone⟩ := (engineStep_run_encode_fault_iff c hp h0).mp hf
      exact ⟨_, hj, hnone⟩
    · exact absurd hf ((h.run_ready hp).engineStep_decode_ne_fault hp h1)

/-- Settles O47: CHECK and RUN fault where the scan or a group's accumulator meets an unwritten cell, and a DECODE in RUN
has had its symbols scanned. -/
theorem faultsOnlyOnUnwrittenInput : Obligations.FaultsOnlyOnUnwrittenInput := by
  intro c s
  refine ⟨fun f hf => ?fault, engineStep_check_fault_iff c, engineStep_run_encode_fault_iff c,
    engineStep_run_decode_fault_iff c, fun hinv hp h1 => ?decode⟩
  case fault =>
    obtain ⟨he, hp⟩ := engineStep_fault_of_stepWith_fault hf
    exact ⟨working_of_engineStep_fault he, he, hp, fun hinv => hinv.exists_unwritten (by cases f; exact he)⟩
  case decode =>
    cases ht : engineStep c s with
    | next t => exact ⟨t, rfl⟩
    | fault f =>
      cases f
      exact absurd ht ((hinv.run_ready hp).engineStep_decode_ne_fault hp h1)
    | refused r => exact absurd ht (engineStep_ne_refused c s r)

end Sys2Proof.Machine
end

section
/-! Command words (R62 to R68): the decoder and the opcode map look at bits [2:0] of a word alone, and the word with the
others clear is the canonical word of its instruction. -/

namespace Sys2Proof

/-! ## The fields of a command word -/

@[simp] theorem startField_ctrlWord (start : BitVec 1) (op : BitVec 2) : startField (ctrlWord start op) = start :=
  BitVec.extractLsb'_append_eq_right

@[simp] theorem opField_ctrlWord (start : BitVec 1) (op : BitVec 2) : opField (ctrlWord start op) = op := by
  rw [opField, ctrlWord, BitVec.extractLsb'_append_eq_of_le le_rfl]
  exact BitVec.extractLsb'_append_eq_right

/-- Words that agree in bits [2:0] have the same fields (R63). -/
theorem fields_eq_of_low_eq {v w : Word} (h : v.extractLsb' 0 3 = w.extractLsb' 0 3) :
    startField v = startField w ∧ opField v = opField w := by
  have hlow (u : Word) : startField u = (u.extractLsb' 0 3).extractLsb' 0 1 ∧
      opField u = (u.extractLsb' 0 3).extractLsb' 1 2 :=
    ⟨(BitVec.extractLsb'_extractLsb'_of_le (by decide)).symm,
      (BitVec.extractLsb'_extractLsb'_of_le (by decide)).symm⟩
  rw [(hlow v).1, (hlow v).2, h, ← (hlow w).1, ← (hlow w).2]
  exact ⟨rfl, rfl⟩

/-- With its ignored bits clear a word is what its two fields make (R63). -/
theorem and_seven_eq_ctrlWord (w : Word) : w &&& 0x7#32 = ctrlWord (startField w) (opField w) := by
  have hsplit : w.extractLsb' 3 29 ++ w.extractLsb' 0 3 = w := BitVec.extractLsb'_append_extractLsb'
  have hlow : opField w ++ startField w = w.extractLsb' 0 3 :=
    BitVec.extractLsb'_append_extractLsb'_eq_extractLsb' rfl
  calc w &&& 0x7#32 = (w.extractLsb' 3 29 ++ w.extractLsb' 0 3) &&& (0#29 ++ BitVec.allOnes 3) :=
        congrArg₂ (· &&& ·) hsplit.symm (by decide)
    _ = 0#29 ++ w.extractLsb' 0 3 := by rw [BitVec.and_append, BitVec.and_zero, BitVec.and_allOnes]
    _ = 0#29 ++ (opField w ++ startField w) := by rw [hlow]
    _ = ctrlWord (startField w) (opField w) := (BitVec.append_assoc (x₁ := 0#29)).symm

/-! ## The decoder -/

/-- The decoder looks at the two fields alone (R64). -/
theorem decodeCtrl_eq_of_fields_eq {v w : Word} (h : startField v = startField w ∧ opField v = opField w) :
    decodeCtrl v = decodeCtrl w := by
  rw [decodeCtrl, decodeCtrl, h.1, h.2]

theorem decodeCtrl_ctrlWord (w : Word) : decodeCtrl (ctrlWord (startField w) (opField w)) = decodeCtrl w :=
  decodeCtrl_eq_of_fields_eq ⟨startField_ctrlWord _ _, opField_ctrlWord _ _⟩

theorem decodeCtrl_encode (i : Instr) : decodeCtrl (encode i) = i := by
  cases i with
  | setop op => simp [encode, decodeCtrl]
  | encode | decode | rsvd2 | rsvd3 => rfl

theorem encode_decodeCtrl (w : Word) : encode (decodeCtrl w) = w &&& 0x7#32 := by
  have hfields : ∀ (start : BitVec 1) (op : BitVec 2),
      encode (decodeCtrl (ctrlWord start op)) = ctrlWord start op := by decide
  rw [and_seven_eq_ctrlWord, ← hfields, decodeCtrl_ctrlWord]

theorem decodeTableWord_toNat (w : Word) : decodeTableWord 32 w.toNat = some (decodeCtrl w) := by
  rw [decodeTableWord, if_pos le_rfl, Nat.mod_eq_of_lt w.isLt, BitVec.ofNat_toNat, BitVec.setWidth_eq]

/-- Settles O5: the first six words are canonical, and the last two differ from canonical ones in ignored bits only. -/
theorem commandWordsDecodeToTheirInstructions : Obligations.CommandWordsDecodeToTheirInstructions :=
  ⟨decodeCtrl_encode (.setop 0#2), decodeCtrl_encode (.setop 1#2), decodeCtrl_encode .encode,
    decodeCtrl_encode .decode, decodeCtrl_encode .rsvd2, decodeCtrl_encode .rsvd3,
    Laws.IgnoredBits.encode (BitVec.allOnes 29), Laws.IgnoredBits.setop 0#2 (BitVec.allOnes 29)⟩

/-- Settles O8: an instruction's canonical word carries its fields, and every 32-bit word is its own table word. -/
theorem decodeOfEncodeIsTheInstruction : Obligations.DecodeOfEncodeIsTheInstruction :=
  fun i _ => ⟨decodeCtrl_encode i, by rw [decodeTableWord_toNat, decodeCtrl_encode]⟩

/-- Settles O7: bits [31:3] enter neither field of a word, and `CTRL` holds no more than the field `OP`. -/
theorem reservedCommandBitsAreIgnored : Obligations.ReservedCommandBitsAreIgnored := by
  refine ⟨fun v w h => decodeCtrl_eq_of_fields_eq (fields_eq_of_low_eq h), encode_decodeCtrl, fun c s => ?_⟩
  rw [Machine.readRegister_ctrl, BitVec.extractLsb'_append_eq_of_le (by decide)]
  exact BitVec.extractLsb'_append_eq_left

/-! ## The opcode map -/

/-- The rows of the opcode map look at bits [2:0] alone (R64). -/
theorem OpcodeRow.covers_and_seven {r : OpcodeRow} (hr : r ∈ opcodeMap) (w : Word) :
    r.covers (w &&& 0x7#32) = r.covers w := by
  have hmask : ∀ r ∈ opcodeMap, 0x7#32 &&& r.mask = r.mask := by decide
  rw [OpcodeRow.covers, OpcodeRow.covers, BitVec.and_assoc, hmask r hr]

/-- Settles O6: neither the rows nor the decoder look past the two fields, and of the eight pairs of fields each is in
one row. -/
theorem opcodeMapCoversEveryWordOnce : Obligations.OpcodeMapCoversEveryWordOnce := by
  have hfields : ∀ (start : BitVec 1) (op : BitVec 2),
      (opcodeMap.filter fun r => r.covers (ctrlWord start op)).map (·.mnemonic) =
        [mnemonic (decodeCtrl (ctrlWord start op))] := by decide
  intro w
  rw [← List.filter_congr fun r hr => OpcodeRow.covers_and_seven hr w, and_seven_eq_ctrlWord, hfields,
    decodeCtrl_ctrlWord]

end Sys2Proof

namespace Sys2Proof.Machine

/-- Settles O10: a write to `CTRL` decodes to the access that runs its word. -/
theorem stepRunsTheDecodedCommand : Obligations.StepRunsTheDecodedCommand := by
  intro s w es hp
  exact stepWith_of_access hp (decodeAccess_register (by decide) (by decide) w).2

end Sys2Proof.Machine
end

section
/-! `LOADIN` (R71, R144): a run of 8-bit writes to consecutive cells of `IN_BUF`. -/

namespace Sys2Proof.Machine

theorem inAddr_eq_ofNat (i : BitVec 16) : inAddr i = BitVec.ofNat 18 (0x10000 + i.toNat) := by
  rw [inAddr, BitVec.ofNat_add, BitVec.ofNat_toNat]

/-- An idle block stores a byte the host writes to a mapped cell of `IN_BUF` (R42). -/
theorem stepWith_write_inBuf {c : Config} {s : State} {i : Nat} {b : Byte} {es : List Event} (hidle : s.phase = .idle)
    (hi : i < c.inCap) (hcap : c.inCap ≤ 0x10000)
    (hp : s.pending = .access (encodeAccess (.wr8 (BitVec.ofNat 18 (0x10000 + i)) b)) :: es) :
    stepWith c s = .next { s with pending := es, inBuf := s.inBuf.write i b } := by
  have hlt : i < 0x10000 := hi.trans_le hcap
  have haddr : 0x10000 ≤ (BitVec.ofNat 18 (0x10000 + i)).toNat := by rw [inBuf_addr_toNat hlt]; omega
  have hdecode := (decodeAccess_buffer haddr 0#32 b).2
  rw [stepWith_of_access hp hdecode, performAccess, (buffer_inBuf c _ hlt b).2,
    State.writeInBuf_of_idle (s.setPending es) _ _ _ hidle hi]
  rfl

/-- An idle block takes in consecutive writes that fit `IN_BUF`, one in each step (R42, R48). -/
theorem run_writesFrom_inBuf (c : Config) (hcap : c.inCap ≤ 0x10000) (es : List Event) (bs : List Byte) :
    ∀ (s : State) (i : Nat), s.phase = .idle → i + bs.length ≤ c.inCap →
      s.pending = programEvents (writesFrom (BitVec.ofNat 18 (0x10000 + i)) bs) ++ es →
      (machineOf c).run bs.length s = .next { s with pending := es, inBuf := s.inBuf.writeFrom i bs } := by
  induction bs with
  | nil =>
    intro s i _ _ hp
    obtain rfl : s.pending = es := hp
    rfl
  | cons b bs ih =>
    intro s i hidle hfit hp
    rw [List.length_cons] at hfit ⊢
    have hnext : BitVec.ofNat 18 (0x10000 + i) + 1#18 = BitVec.ofNat 18 (0x10000 + (i + 1)) :=
      (BitVec.ofNat_add (0x10000 + i) 1).symm
    rw [writesFrom, hnext] at hp
    rw [run_succ_of_next (stepWith_write_inBuf hidle (by omega) hcap hp)]
    exact ih _ (i + 1) hidle (by omega) rfl

/-- Settles O20: the accesses are writes to consecutive cells, which change nothing else. -/
theorem loadedInputIsStored : Obligations.LoadedInputIsStored := by
  intro c s i bs es hlegal hidle hfit hp
  obtain ⟨-, hcap⟩ := c.capacityLegal_iff.mp hlegal
  rw [loadIn, inAddr_eq_ofNat] at hp
  refine ⟨_, run_writesFrom_inBuf c hcap es bs s i.toNat hidle hfit hp, rfl, fun k hk => ?stored, fun j hj => ?kept⟩
  case stored =>
    rw [Memory.read_writeFrom, if_pos (by omega), Nat.add_sub_cancel_left]
  case kept => rw [Memory.read_writeFrom, if_neg (by omega)]

end Sys2Proof.Machine
end

section
/-! The 24-bit accumulator (R66): it holds the bytes of an encode group, and the segments of a decode group, side by
side, so that each segment and each byte is a field of it. -/

namespace Sys2Proof.Machine

/-! ## How it is assembled -/

/-- The bit-packer puts three bytes side by side (R66, R77). -/
theorem packBytes_eq_append (b0 b1 b2 : Byte) : packBytes b0 b1 b2 = b0 ++ b1 ++ b2 := by
  have h := BitVec.setWidth_append_append_eq_shiftLeft_setWidth_or (w''' := 24) (b := b0) (b' := b1) (b'' := b2)
  rw [packBytes, ← h, BitVec.setWidth_eq]

/-- An assembly step puts a segment below what is there (R66, R94). -/
theorem shiftIn_eq_append {n : Nat} (x : BitVec n) (v : Seg) : shiftIn (x.setWidth 24) v = (x ++ v).setWidth 24 := by
  have hdisjoint : (x.setWidth 24 <<< 6) &&& v.setWidth 24 = 0#24 := by
    apply BitVec.eq_of_getLsbD_eq
    intro i _
    by_cases hi : i < 6
    · simp [hi]
    · simp [BitVec.getLsbD_of_ge v i (Nat.le_of_not_lt hi)]
  rw [shiftIn, BitVec.add_eq_or_of_and_eq_zero _ _ hdisjoint, BitVec.setWidth_append_eq_shiftLeft_setWidth_or]

/-- A decode group puts four segments side by side (R66, R94). -/
theorem packSegments_eq_append (v0 v1 v2 v3 : Seg) : packSegments [v0, v1, v2, v3] = v0 ++ v1 ++ v2 ++ v3 := by
  have h0 : shiftIn 0#24 v0 = v0.setWidth 24 := BitVec.zero_add _
  simp only [packSegments, List.foldl_cons, List.foldl_nil, h0, shiftIn_eq_append, BitVec.setWidth_eq]

/-! ## How it is split -/

/-- A segment is six bits of the accumulator (R66, R78). -/
theorem accSegment_eq_extractLsb' (acc : Accum) (k : Nat) : accSegment acc k = acc.extractLsb' (18 - 6 * k) 6 := by
  have hmask : (0x3F#24).setWidth 6 = BitVec.allOnes 6 := by decide
  rw [accSegment, BitVec.setWidth_and, hmask, BitVec.and_allOnes, BitVec.setWidth_ushiftRight_eq_extractLsb]

/-- A field that reaches over the boundary of two words is the low part of the upper and the high part of the lower. -/
theorem extractLsb'_append_spanning {v w : Nat} (hi : BitVec v) (lo : BitVec w) {start a b : Nat} (h : w = start + b) :
    (hi ++ lo).extractLsb' start (a + b) = hi.extractLsb' 0 a ++ lo.extractLsb' start b := by
  rw [← BitVec.extractLsb'_append_extractLsb'_eq_extractLsb' (start₂ := w) (len₂ := a) (len₁ := b) h,
    BitVec.extractLsb'_append_eq_of_le le_rfl, BitVec.extractLsb'_append_eq_of_add_le h.ge, Nat.sub_self]

/-- The segments of three bytes (R66). -/
theorem extractLsb'_segments_of_bytes (b0 b1 b2 : Byte) :
    (b0 ++ b1 ++ b2 : Accum).extractLsb' 18 6 = b0.extractLsb' 2 6 ∧
    (b0 ++ b1 ++ b2 : Accum).extractLsb' 12 6 = b0.extractLsb' 0 2 ++ b1.extractLsb' 4 4 ∧
    (b0 ++ b1 ++ b2 : Accum).extractLsb' 6 6 = b1.extractLsb' 0 4 ++ b2.extractLsb' 6 2 ∧
    (b0 ++ b1 ++ b2 : Accum).extractLsb' 0 6 = b2.extractLsb' 0 6 := by
  refine ⟨?_, ?_, ?_, BitVec.extractLsb'_append_eq_of_add_le (by decide)⟩
  · rw [BitVec.extractLsb'_append_eq_of_le (by decide)]
    exact BitVec.extractLsb'_append_eq_of_le (by decide)
  · rw [BitVec.extractLsb'_append_eq_of_le (by decide)]
    exact extractLsb'_append_spanning b0 b1 (a := 2) (b := 4) rfl
  · refine (extractLsb'_append_spanning (b0 ++ b1) b2 (a := 4) (b := 2) rfl).trans ?_
    rw [BitVec.extractLsb'_append_eq_of_add_le (by decide)]

/-- The four segments, each in its place (R66). -/
theorem extractLsb'_segments_of_segments (v0 v1 v2 v3 : Seg) :
    (v0 ++ v1 ++ v2 ++ v3 : Accum).extractLsb' 18 6 = v0 ∧ (v0 ++ v1 ++ v2 ++ v3 : Accum).extractLsb' 12 6 = v1 ∧
    (v0 ++ v1 ++ v2 ++ v3 : Accum).extractLsb' 6 6 = v2 ∧ (v0 ++ v1 ++ v2 ++ v3 : Accum).extractLsb' 0 6 = v3 := by
  refine ⟨?_, ?_, ?_, BitVec.extractLsb'_append_eq_right⟩
  · rw [BitVec.extractLsb'_append_eq_of_le (by decide), BitVec.extractLsb'_append_eq_of_le (by decide)]
    exact BitVec.extractLsb'_append_eq_left
  · rw [BitVec.extractLsb'_append_eq_of_le (by decide), BitVec.extractLsb'_append_eq_of_le (by decide)]
    exact BitVec.extractLsb'_append_eq_right
  · rw [BitVec.extractLsb'_append_eq_of_le (by decide)]
    exact BitVec.extractLsb'_append_eq_right

/-- The bytes of four segments (R66). -/
theorem extractLsb'_bytes_of_segments (v0 v1 v2 v3 : Seg) :
    (v0 ++ v1 ++ v2 ++ v3 : Accum).extractLsb' 16 8 = v0 ++ v1.extractLsb' 4 2 ∧
    (v0 ++ v1 ++ v2 ++ v3 : Accum).extractLsb' 8 8 = v1.extractLsb' 0 4 ++ v2.extractLsb' 2 4 ∧
    (v0 ++ v1 ++ v2 ++ v3 : Accum).extractLsb' 0 8 = v2.extractLsb' 0 2 ++ v3 := by
  refine ⟨?_, ?_, ?_⟩
  · rw [BitVec.extractLsb'_append_eq_of_le (by decide), BitVec.extractLsb'_append_eq_of_le (by decide)]
    refine (extractLsb'_append_spanning v0 v1 (a := 6) (b := 2) rfl).trans ?_
    rw [BitVec.extractLsb'_eq_self]
  · rw [BitVec.extractLsb'_append_eq_of_le (by decide)]
    refine (extractLsb'_append_spanning (v0 ++ v1) v2 (a := 4) (b := 4) rfl).trans ?_
    rw [BitVec.extractLsb'_append_eq_of_add_le (by decide)]
  · refine (extractLsb'_append_spanning (v0 ++ v1 ++ v2) v3 (a := 2) (b := 6) rfl).trans ?_
    rw [BitVec.extractLsb'_append_eq_of_add_le (by decide), BitVec.extractLsb'_eq_self]

/-- Settles O25: the accumulator holds bytes or segments side by side, and segments and bytes are its fields. -/
theorem accumulatorFields : Obligations.AccumulatorFields := by
  constructor
  · rintro b0 b1 b2 acc rfl
    rw [packBytes_eq_append]
    obtain ⟨h0, h1, h2, h3⟩ := extractLsb'_segments_of_bytes b0 b1 b2
    have hseg := accSegment_eq_extractLsb' (b0 ++ b1 ++ b2)
    exact ⟨(packBytes_eq_append b0 b1 b2).symm, fun _ _ => rfl, hseg 0, (hseg 0).trans h0, hseg 1, (hseg 1).trans h1,
      hseg 2, (hseg 2).trans h2, hseg 3, (hseg 3).trans h3⟩
  · rintro v0 v1 v2 v3 acc rfl
    rw [packSegments_eq_append]
    obtain ⟨h0, h1, h2, h3⟩ := extractLsb'_segments_of_segments v0 v1 v2 v3
    obtain ⟨k0, k1, k2⟩ := extractLsb'_bytes_of_segments v0 v1 v2 v3
    exact ⟨(packSegments_eq_append v0 v1 v2 v3).symm, h0, h1, h2, h3, rfl, k0, rfl, k1, rfl, k2⟩

end Sys2Proof.Machine
end

section
/-! The encoder (R73 to R84): its counts, the accumulator of a group, and which symbol stands at each place of the output. -/

namespace Sys2Proof

/-- A legal alphabet maps every segment value to one of its entries, which is not `PAD` (R9, R79). -/
theorem Config.symbol_mem_alphabet {c : Config} (h : c.alphabetLegal = true) (v : Seg) :
    c.symbol v ∈ c.alphabet ∧ c.symbol v ≠ padCode := by
  obtain ⟨hlen, -, hpad⟩ := Config.entries_of_alphabetLegal h
  have hmem : c.symbol v ∈ c.alphabet := Config.symbol_eq_getElem hlen v ▸ List.getElem_mem _
  exact ⟨hmem, ne_of_mem_of_not_mem hmem hpad⟩

end Sys2Proof

namespace Sys2Proof.Machine

/-! ## The counts -/

/-- The groups of ENCODE cover the input and its pad bytes (R75). -/
theorem three_mul_encodeGroupCount (n : Nat) :
    3 * encodeGroupCount n (encodePads n) = n + (encodePads n).toNat :=
  Nat.mul_div_cancel' (Nat.dvd_of_mod_eq_zero (encodePads_spec n).2)

/-- Settles O26: the pad count completes the length to a multiple of 3, and a third of that is the group count. -/
theorem encodePadAndGroupCounts : Obligations.EncodePadAndGroupCounts := fun n =>
  ⟨(encodePads_spec n).1, (encodePads_spec n).2, padsOutOfRange_encodePads n, encodeGroupCount_eq n,
    three_mul_encodeGroupCount n⟩

/-! ## One group -/

/-- The extended input at one place: a byte read below `N`, 0 from `N` on (R76). -/
theorem extended_eq_some {read : Nat → Option Byte} {n i : Nat} {x : Byte} (hread : i < n → read i = some x)
    (hzero : n ≤ i → x = 0#8) : extended read n i = some x := by
  unfold extended
  split
  case isTrue h => exact hread h
  case isFalse h => rw [hzero (Nat.le_of_not_lt h)]

/-- The accumulator of a group is packed from its three bytes of the extended input (R76, R77). -/
theorem encodeAcc_eq_packBytes {read : Nat → Option Byte} {n g : Nat} {b : Nat → Byte}
    (h : ∀ j, j < 3 → extended read n (3 * g + j) = some (b j)) :
    encodeAcc read n g = some (packBytes (b 0) (b 1) (b 2)) := by
  have h0 : extended read n (3 * g) = some (b 0) := h 0 (by decide)
  rw [encodeAcc, h0, h 1 (by decide), h 2 (by decide)]

theorem packBytes_toNat (b0 b1 b2 : Byte) :
    (packBytes b0 b1 b2).toNat = 65536 * b0.toNat + 256 * b1.toNat + b2.toNat := by
  have h1 := b1.isLt
  have h2 := b2.isLt
  rw [packBytes_eq_append, BitVec.toNat_append, BitVec.toNat_append, ← Nat.shiftLeft_add_eq_or_of_lt h2,
    ← Nat.shiftLeft_add_eq_or_of_lt h1, Nat.shiftLeft_eq, Nat.shiftLeft_eq]
  omega

/-- A segment is a digit of the accumulator's number (R66, R78). -/
theorem accSegment_eq_ofNat (acc : Accum) (k : Nat) :
    accSegment acc k = BitVec.ofNat 6 (acc.toNat / 2 ^ (18 - 6 * k)) := by
  rw [accSegment_eq_extractLsb', BitVec.extractLsb', Nat.shiftRight_eq_div_pow]

/-- The padding-appender takes the last `pads` places of the last group, the symbol-mapper all others (R79, R80). -/
theorem encodeSymbol_eq (c : Config) (acc : Accum) (last : Bool) (pads : BitVec 2) {k : Nat} (hk : k < 4) :
    encodeSymbol c acc last pads k =
      if last = true ∧ 4 - pads.toNat ≤ k then padCode else c.symbol (accSegment acc k) := by
  have hpads : 4 - pads.toNat ≤ k → pads ≠ 0#2 := by
    rintro h rfl
    exact absurd h (by simpa using hk)
  have hiff : (last && pads != 0#2 && decide (4 - pads.toNat ≤ k)) = true ↔ last = true ∧ 4 - pads.toNat ≤ k := by
    simp only [Bool.and_eq_true, bne_iff_ne, decide_eq_true_eq, and_assoc]
    exact and_congr_right fun _ => and_iff_right_of_imp hpads
  rw [encodeSymbol, if_congr hiff rfl rfl]

theorem encodeGroup_getElem? (c : Config) (acc : Accum) (last : Bool) (pads : BitVec 2) {k : Nat} (hk : k < 4) :
    (encodeGroup c acc last pads)[k]? = some (encodeSymbol c acc last pads k) := by
  obtain rfl | rfl | rfl | rfl : k = 0 ∨ k = 1 ∨ k = 2 ∨ k = 3 := by omega
  all_goals rfl

/-! ## One RUN step -/

/-- A RUN step of ENCODE whose input is written puts the group's symbols into `OUT_BUF` (R111). -/
theorem engineStep_run_encode {c : Config} {s : State} (hp : s.phase = .run) (h0 : s.opl = 0#2) {acc : Accum}
    (hacc : encodeAcc s.inRead s.nl.toNat s.gidx.toNat = some acc) :
    engineStep c s = .next (s.withGroup acc (encodeGroup c acc s.lastGroup s.padsI)) := by
  rw [engineStep_of_run c s hp, runStep, if_pos h0, runEncode_eq c h0, hacc]

@[simp] theorem State.withGroup_acc (s : State) (acc : Accum) (bs : List Byte) : (s.withGroup acc bs).acc = acc :=
  State.finishGroup_acc _

@[simp] theorem State.withGroup_inBuf (s : State) (acc : Accum) (bs : List Byte) :
    (s.withGroup acc bs).inBuf = s.inBuf :=
  State.finishGroup_inBuf _

/-- A group's bytes stand in their cells, and every other cell is as it was (R81, R97). -/
theorem State.withGroup_read_outBuf (s : State) (acc : Accum) (bs : List Byte) (a : Nat) :
    (s.withGroup acc bs).outBuf.read a =
      if outputBefore s.opl s.gidx.toNat ≤ a ∧ a < outputBefore s.opl s.gidx.toNat + bs.length
      then bs[a - outputBefore s.opl s.gidx.toNat]? else s.outBuf.read a := by
  simp only [State.withGroup, State.finishGroup_outBuf, State.outWrite_outBuf, Memory.read_writeFrom]

/-- `GIDX` moves on by one, and the command completes after its last group (R111). -/
theorem State.withGroup_cases {s : State} (hg : s.gidx.toNat < s.ng.toNat) (acc : Accum) (bs : List Byte) :
    (s.withGroup acc bs).gidx.toNat = s.gidx.toNat + 1 ∧
    (s.gidx.toNat + 1 < s.ng.toNat → s.withGroup acc bs =
      { s with acc := acc, outBuf := (s.withGroup acc bs).outBuf, gidx := (s.withGroup acc bs).gidx }) ∧
    (s.gidx.toNat + 1 = s.ng.toNat → s.withGroup acc bs = State.complete
      { s with acc := acc, outBuf := (s.withGroup acc bs).outBuf, gidx := (s.withGroup acc bs).gidx }) := by
  cases hl : s.lastGroup with
  | true =>
    have hlast := s.lastGroup_iff.mp hl
    rw [State.withGroup_of_lastGroup hl]
    exact ⟨hlast.symm, fun hlt => absurd hlast hlt.ne, fun _ => rfl⟩
  | false =>
    obtain ⟨-, hnext, hleft⟩ := State.finishGroup_of_not_lastGroup hg hl
    rw [State.withGroup_of_not_lastGroup hg hl]
    exact ⟨hnext, fun _ => rfl, fun heq => absurd heq hleft.ne⟩

/-- The completion of ENCODE: its output length is four symbols a group (R82, R112). -/
theorem State.complete_of_encode {s : State} (h0 : s.opl = 0#2) : s.complete = { s with
    outLen := BitVec.ofNat 17 (4 * s.ng.toNat), status := Status.success s.padsI, errPos := 0#17, phase := .idle } := by
  rw [State.complete, State.outputLength, if_pos h0]

/-- Settles O50: a RUN step of ENCODE writes the four symbols of its group and goes on or completes. -/
theorem encodeGroupStep : Obligations.EncodeGroupStep := by
  intro c s b hp h0 hg hb
  have hacc : encodeAcc s.inRead s.nl.toNat s.gidx.toNat = some (packBytes (b 0) (b 1) (b 2)) :=
    encodeAcc_eq_packBytes fun j hj => extended_eq_some (hb j hj).1 (hb j hj).2
  have hval := packBytes_toNat (b 0) (b 1) (b 2)
  generalize packBytes (b 0) (b 1) (b 2) = acc at hacc hval
  have hplace : outputBefore s.opl s.gidx.toNat = 4 * s.gidx.toNat := if_pos h0
  obtain ⟨hgidx, hmore, hlast⟩ := State.withGroup_cases hg acc (encodeGroup c acc s.lastGroup s.padsI)
  refine ⟨_, engineStep_run_encode hp h0 hacc, ?acc, fun k hk => ?symbols, fun a ha => ?kept, fun a => ?input, hgidx,
    fun h => ?more, fun h => ?last⟩
  case acc => rw [State.withGroup_acc, hval]
  case symbols =>
    rw [State.withGroup_read_outBuf, hplace, encodeGroup_length, if_pos (by omega), Nat.add_sub_cancel_left,
      encodeGroup_getElem? _ _ _ _ hk, encodeSymbol_eq _ _ _ _ hk, accSegment_eq_ofNat, State.withGroup_acc]
    simp only [s.lastGroup_iff]
  case kept => rw [State.withGroup_read_outBuf, hplace, encodeGroup_length, if_neg (by omega)]
  case input => rw [State.withGroup_inBuf]
  case more => rw [State.withGroup_acc]; exact hmore h
  case last => rw [State.withGroup_acc]; exact (hlast h).trans (State.complete_of_encode h0)

/-! ## The whole output -/

section
variable {f : Nat → List Byte} {m : Nat}

/-- Groups of `m` bytes each, one after the other (R81). -/
theorem length_flatMap_range {n : Nat} (h : ∀ g, g < n → (f g).length = m) :
    ((List.range n).flatMap f).length = m * n := by
  rw [List.length_flatMap, List.map_congr_left fun g hg => h g (List.mem_range.mp hg), List.map_const', List.sum_replicate,
    List.length_range, smul_eq_mul, Nat.mul_comm]

/-- Where every group before the last has `m` bytes, byte `k` of group `g` stands at place `m * g + k` (R81, R97). -/
theorem getElem?_flatMap_range (n : Nat) (h : ∀ g, g + 1 < n → (f g).length = m) {g k : Nat} (hg : g < n)
    (hk : k < (f g).length) : ((List.range n).flatMap f)[m * g + k]? = (f g)[k]? := by
  induction n with
  | zero => exact absurd hg (Nat.not_lt_zero g)
  | succ n ih =>
    have hlen : ((List.range n).flatMap f).length = m * n := length_flatMap_range fun g hg => h g (by omega)
    rw [List.range_succ, List.flatMap_append, List.flatMap_singleton]
    rcases Nat.lt_succ_iff_lt_or_eq.mp hg with hlt | rfl
    · have hend : m * (g + 1) ≤ m * n := Nat.mul_le_mul_left m hlt
      rw [h g (by omega)] at hk
      rw [Nat.mul_succ] at hend
      rw [List.getElem?_append_left (by omega)]
      exact ih (fun g hg => h g (by omega)) hlt
    · rw [List.getElem?_append_right (by omega), hlen, Nat.add_sub_cancel_left]

end

/-- The accumulator of group `g` of the input `bs`, which zero bytes extend (R76, R77). -/
def groupAcc (bs : List Byte) (g : Nat) : Accum :=
  packBytes (bs.getD (3 * g) 0#8) (bs.getD (3 * g + 1) 0#8) (bs.getD (3 * g + 2) 0#8)

theorem encodeAcc_listRead (bs : List Byte) (g : Nat) :
    encodeAcc (listRead bs) bs.length g = some (groupAcc bs g) := by
  refine encodeAcc_eq_packBytes (b := fun j => bs.getD (3 * g + j) 0#8) fun j _ => extended_eq_some ?_ ?_
  · intro h
    rw [listRead, List.getD_eq_getElem _ _ h, List.getElem?_eq_getElem h]
  · exact List.getD_eq_default _ _

theorem encodeOutput_eq_flatMap (c : Config) (bs : List Byte) (pads : BitVec 2) :
    encodeOutput c bs pads = (List.range (encodeGroupCount bs.length pads)).flatMap fun g =>
      encodeGroup c (groupAcc bs g) (g + 1 == encodeGroupCount bs.length pads) pads := by
  simp only [encodeOutput, encodeAcc_listRead]

/-- ENCODE is total (R83). -/
theorem encodeBytes_eq_ok (c : Config) (bs : List Byte) :
    encodeBytes c bs = .ok (encodeOutput c bs (encodePads bs.length), encodePads bs.length) := by
  rw [encodeBytes, padsOutOfRange_encodePads, if_neg Bool.false_ne_true]

theorem encodeOutput_length (c : Config) (bs : List Byte) (pads : BitVec 2) :
    (encodeOutput c bs pads).length = 4 * encodeGroupCount bs.length pads := by
  rw [encodeOutput_eq_flatMap]
  exact length_flatMap_range fun g _ => encodeGroup_length _ _ _ _

/-- The last `pads` places of the output hold `PAD`, each other the symbol of its segment (R79 to R81). -/
theorem encodeOutput_getElem? (c : Config) (bs : List Byte) (pads : BitVec 2) {g k : Nat}
    (hg : g < encodeGroupCount bs.length pads) (hk : k < 4) :
    (encodeOutput c bs pads)[4 * g + k]? = some
      (if (encodeOutput c bs pads).length - pads.toNat ≤ 4 * g + k then padCode
       else c.symbol (accSegment (groupAcc bs g) k)) := by
  have hpads := pads.isLt
  have hlast : (g + 1 == encodeGroupCount bs.length pads) = true ∧ 4 - pads.toNat ≤ k ↔
      4 * encodeGroupCount bs.length pads - pads.toNat ≤ 4 * g + k := by
    rw [beq_iff_eq]
    omega
  rw [encodeOutput_length, encodeOutput_eq_flatMap, getElem?_flatMap_range _ (fun g _ => encodeGroup_length _ _ _ _) hg hk,
    encodeGroup_getElem? _ _ _ _ hk, encodeSymbol_eq _ _ _ _ hk, if_congr hlast rfl rfl]

/-- Settles O27: the length law, and a pad or an alphabet symbol at each place of the output. -/
theorem encodeTransformGuarantees : Obligations.EncodeTransformGuarantees := by
  intro c bs hc
  have hpads := (encodePads_spec bs.length).1
  have hcover := three_mul_encodeGroupCount bs.length
  have hcount := encodeGroupCount_eq bs.length
  have hlen := encodeOutput_length c bs (encodePads bs.length)
  have hsymbol {i : Nat} (hi : i < (encodeOutput c bs (encodePads bs.length)).length) :=
    encodeOutput_getElem? c bs (encodePads bs.length) (g := i / 4) (k := i % 4) (by omega) (Nat.mod_lt i (by decide))
  simp only [Nat.div_add_mod] at hsymbol
  refine ⟨_, _, encodeBytes_eq_ok c bs, by rw [hlen, hcount], by omega, ?empty, hpads, by omega, fun k hle hlt => ?pad,
    fun k hlt => ?symbol⟩
  case empty =>
    rintro rfl
    rfl
  case pad => rw [hsymbol hlt, if_pos hle]
  case symbol =>
    obtain ⟨hmem, hne⟩ := Config.symbol_mem_alphabet hc (accSegment (groupAcc bs (k / 4)) (k % 4))
    exact ⟨_, (hsymbol (by omega)).trans (by rw [if_neg (by omega)]), hmem, hne⟩

/-! ## The last group -/

/-- The two segments that can be cut by the end of the input, from the bytes they reach over (R66). -/
theorem accSegment_packBytes_inner (b0 b1 b2 : Byte) :
    accSegment (packBytes b0 b1 b2) 1 = b0.extractLsb' 0 2 ++ b1.extractLsb' 4 4 ∧
    accSegment (packBytes b0 b1 b2) 2 = b1.extractLsb' 0 4 ++ b2.extractLsb' 6 2 := by
  obtain ⟨-, h1, h2, -⟩ := extractLsb'_segments_of_bytes b0 b1 b2
  rw [packBytes_eq_append, accSegment_eq_extractLsb', accSegment_eq_extractLsb']
  exact ⟨h1, h2⟩

/-- With one byte in the last group, the low bits of segment 1 come from a zero byte (R76, R84). -/
theorem accSegment_groupAcc_one_low {bs : List Byte} {g : Nat} (h : bs.length ≤ 3 * g + 1) :
    (accSegment (groupAcc bs g) 1).extractLsb' 0 4 = 0#4 := by
  rw [groupAcc, (accSegment_packBytes_inner _ _ _).1, BitVec.extractLsb'_append_eq_right, List.getD_eq_default _ _ h]
  rfl

/-- With two bytes in the last group, the low bits of segment 2 come from a zero byte (R76, R84). -/
theorem accSegment_groupAcc_two_low {bs : List Byte} {g : Nat} (h : bs.length ≤ 3 * g + 2) :
    (accSegment (groupAcc bs g) 2).extractLsb' 0 2 = 0#2 := by
  rw [groupAcc, (accSegment_packBytes_inner _ _ _).2, BitVec.extractLsb'_append_eq_right, List.getD_eq_default _ _ h]
  rfl

/-- The last alphabet symbol of a padded output is the one before its `p` pads, in the last group (R84). -/
theorem encodeOutput_last_symbol (c : Config) (bs : List Byte) {p : Nat} (hp : (encodePads bs.length).toNat = p)
    (hpos : 0 < p) : ∃ g, bs.length + p = 3 * (g + 1) ∧
      (encodeOutput c bs (encodePads bs.length))[(encodeOutput c bs (encodePads bs.length)).length - (p + 1)]? =
        some (c.symbol (accSegment (groupAcc bs g) (3 - p))) := by
  have hle := (encodePads_spec bs.length).1
  have hcover := three_mul_encodeGroupCount bs.length
  have hlen := encodeOutput_length c bs (encodePads bs.length)
  obtain ⟨g, hg⟩ : ∃ g, encodeGroupCount bs.length (encodePads bs.length) = g + 1 :=
    Nat.exists_eq_succ_of_ne_zero (by omega)
  have hplace : (encodeOutput c bs (encodePads bs.length)).length - (p + 1) = 4 * g + (3 - p) := by omega
  refine ⟨g, by omega, ?_⟩
  rw [hplace, encodeOutput_getElem? c bs _ (by omega) (by omega), if_neg (by omega)]

/-- Settles O28: the last alphabet symbol's unused bits come from the zero bytes behind the end of the input. -/
theorem encodeLastGroupIsCanonical : Obligations.EncodeLastGroupIsCanonical := by
  intro c bs out pads _ h
  rw [encodeBytes_eq_ok] at h
  cases h
  refine ⟨fun hp => ?one, fun hp => ?two⟩
  case one =>
    obtain ⟨g, hg, hsymbol⟩ := encodeOutput_last_symbol c bs (p := 1) (by rw [hp]; rfl) (by decide)
    exact ⟨_, hsymbol, accSegment_groupAcc_two_low (by omega)⟩
  case two =>
    obtain ⟨g, hg, hsymbol⟩ := encodeOutput_last_symbol c bs (p := 2) (by rw [hp]; rfl) (by decide)
    exact ⟨_, hsymbol, accSegment_groupAcc_one_low (by omega)⟩

end Sys2Proof.Machine
end

section
/-! The padding-validator (R89 to R92): which symbol passes, which form a group has that passes, and which strings pass. -/

namespace Sys2Proof.Machine

/-! ## One symbol -/

theorem faultAt_invalid (final i : Nat) (prev : Option RevEntry) :
    faultAt final i prev .invalid = some .symbolNotInAlphabet := rfl

theorem faultAt_padSym (final i : Nat) (prev : Option RevEntry) : faultAt final i prev .padSym =
    if i / 4 ≠ final then some .padOutsideFinalGroup
    else if i % 4 ≤ 1 then some .padMisplacedInFinalGroup else none := by
  simp [faultAt]

theorem faultAt_data (final i : Nat) (prev : Option RevEntry) (v : Seg) : faultAt final i prev (.data v) =
    if i / 4 = final ∧ i % 4 = 3 ∧ prev = some .padSym then some .padMisplacedInFinalGroup else none := by
  simp [faultAt]

/-- A symbol passes as a pad in the last half of the final group, or as an alphabet symbol that does not follow a pad
there (R90). -/
theorem faultAt_eq_none_iff (final i : Nat) (prev : Option RevEntry) (cur : RevEntry) :
    faultAt final i prev cur = none ↔
      (cur = .padSym ∧ i / 4 = final ∧ 2 ≤ i % 4) ∨
      ((∃ v, cur = .data v) ∧ ¬(i / 4 = final ∧ i % 4 = 3 ∧ prev = some .padSym)) := by
  cases cur with
  | data v => simp [faultAt_data]
  | padSym =>
    have hlate : 2 ≤ i % 4 ↔ ¬i % 4 ≤ 1 := Nat.not_le.symm
    rw [faultAt_padSym, hlate]
    by_cases hfinal : i / 4 = final <;> by_cases hearly : i % 4 ≤ 1 <;> simp [hfinal, hearly]
  | invalid => simp [faultAt_invalid]

/-! ## One group -/

/-- A group passes in the form of `n` alphabet symbols and then pads: any number from 2 up in the final group, all four
in any other (R90). -/
theorem group_passes_iff (final g : Nat) (e : Nat → RevEntry) (before : Option RevEntry) :
    (∀ k, k < 4 → faultAt final (4 * g + k) (if k = 0 then before else some (e (k - 1))) (e k) = none) ↔
    ∃ n, (if g = final then 2 ≤ n else n = 4) ∧ n ≤ 4 ∧
      (∀ k, k < n → ∃ v, e k = .data v) ∧ ∀ k, n ≤ k → k < 4 → e k = .padSym := by
  have hplace {k : Nat} (hk : k < 4) : (4 * g + k) / 4 = g ∧ (4 * g + k) % 4 = k := by omega
  constructor
  · intro h
    have hsym {k : Nat} (hk : k < 4) := (faultAt_eq_none_iff _ _ _ _).mp (h k hk)
    have hdata {k : Nat} (hk : k < 4) (hearly : g = final → k ≤ 1) : ∃ v, e k = .data v := by
      obtain ⟨-, hfinal, hlate⟩ | ⟨hv, -⟩ := hsym hk
      · rw [(hplace hk).1] at hfinal
        rw [(hplace hk).2] at hlate
        exact absurd (hearly hfinal) (by omega)
      · exact hv
    by_cases hg : g = final
    case neg => exact ⟨4, by rw [if_neg hg], le_rfl, fun k hk => hdata hk fun e => absurd e hg, fun k h4 hk => by omega⟩
    subst hg
    have hfirst (k : Nat) (hk : k < 2) : ∃ v, e k = .data v := hdata (by omega) fun _ => by omega
    obtain ⟨hpad3, -⟩ | ⟨hdata3, hafter⟩ := hsym (k := 3) (by decide)
    · obtain ⟨hpad2, -⟩ | ⟨hdata2, -⟩ := hsym (k := 2) (by decide)
      · refine ⟨2, by simp, by decide, hfirst, fun k h2 h4 => ?_⟩
        obtain rfl | rfl : k = 2 ∨ k = 3 := by omega
        · exact hpad2
        · exact hpad3
      · refine ⟨3, by simp, by decide, Nat.forall_lt_succ_right.mpr ⟨hfirst, hdata2⟩, fun k h3 h4 => ?_⟩
        obtain rfl : k = 3 := by omega
        exact hpad3
    · have hdata2 : ∃ v, e 2 = .data v := by
        refine ((hsym (k := 2) (by decide)).resolve_left ?_).1
        rintro ⟨hpad2, -⟩
        exact hafter ⟨(hplace (by decide)).1, (hplace (by decide)).2, congrArg some hpad2⟩
      exact ⟨4, by simp, le_rfl, Nat.forall_lt_succ_right.mpr ⟨Nat.forall_lt_succ_right.mpr ⟨hfirst, hdata2⟩, hdata3⟩,
        fun k h4 hk => by omega⟩
  · rintro ⟨n, hn, hn4, hdata, hpad⟩ k hk
    rw [faultAt_eq_none_iff, (hplace hk).1, (hplace hk).2]
    by_cases hkn : k < n
    · refine .inr ⟨hdata k hkn, ?_⟩
      rintro ⟨-, rfl, hprev⟩
      obtain ⟨v, hv⟩ := hdata 2 (by omega)
      simp [hv] at hprev
    · have hfinal : g = final := by
        by_contra hne
        rw [if_neg hne] at hn
        omega
      rw [if_pos hfinal] at hn
      exact .inl ⟨hpad k (by omega) hk, hfinal, by omega⟩

/-- Settles O29: the causes of a symbol in their order, and the forms of a group that passes. -/
theorem symbolsAreClassified : Obligations.SymbolsAreClassified := by
  refine ⟨fun final i prev cur => ⟨?invalid, ?outside, ?misplaced, ?pad, ?data⟩, group_passes_iff⟩
  case invalid => rintro rfl; rfl
  case outside => rintro rfl hne; rw [faultAt_padSym, if_pos hne]
  case misplaced => rintro rfl hfinal hearly; rw [faultAt_padSym, if_neg (not_not.mpr hfinal), if_pos hearly]
  case pad => rintro rfl hfinal hlate; exact (faultAt_eq_none_iff _ _ _ _).mpr (.inl ⟨rfl, hfinal, hlate⟩)
  case data => rintro v rfl; exact faultAt_data final i prev v

/-- Settles O30: the scan's first fault, and its pass, from the first position on. -/
theorem scanReportsTheFirstFault : Obligations.ScanReportsTheFirstFault := by
  intro c read final n
  refine ⟨fun cause pos => (scanFrom_bad_iff c read final cause pos n 0).trans ?bad,
    (scanFrom_pass_iff c read final n 0).trans ?pass⟩ <;>
    simp only [Nat.zero_le, Nat.zero_add, true_and, true_imp_iff, Sound]

end Sys2Proof.Machine
end

section
/-! Which strings DECODE accepts (R87 to R92): alphabet symbols, then at most two pads. -/

namespace Sys2Proof

/-- The codes of the alphabet, a pad apart, are those with a segment value (R22). -/
theorem Config.exists_rev_eq_data_iff (c : Config) (code : Byte) :
    (∃ v, c.rev code = .data v) ↔ code ≠ padCode ∧ code ∈ c.alphabet := by
  have hkinds : (∃ v, c.rev code = .data v) ↔ c.rev code ≠ .padSym ∧ c.rev code ≠ .invalid := by
    cases c.rev code <;> simp
  rw [hkinds, Ne, Ne, c.rev_eq_padSym_iff, c.rev_eq_invalid_iff]
  tauto

end Sys2Proof

namespace Sys2Proof.Machine

/-! ## The form of a string that passes -/

/-- A string of whole groups passes in the form of alphabet symbols and then pads, which are at most two (R90). -/
theorem string_passes_iff (final : Nat) (e : Nat → RevEntry) :
    (∀ i, i < 4 * final + 4 → faultAt final i (some (e (i - 1))) (e i) = none) ↔
    ∃ n, 4 * final + 2 ≤ n ∧ n ≤ 4 * final + 4 ∧
      (∀ k, k < n → ∃ v, e k = .data v) ∧ ∀ k, n ≤ k → k < 4 * final + 4 → e k = .padSym := by
  have hgroup (g : Nat) := group_passes_iff final g (fun k => e (4 * g + k)) (some (e (4 * g - 1)))
  have hprev (g k : Nat) :
      (if k = 0 then some (e (4 * g - 1)) else some (e (4 * g + (k - 1)))) = some (e (4 * g + k - 1)) := by
    split <;> congr 2 <;> omega
  simp only [hprev] at hgroup
  constructor
  · intro h
    have hform (g : Nat) (hg : g ≤ final) := (hgroup g).mp fun k hk => h (4 * g + k) (by omega)
    obtain ⟨n, hn2, hn4, hdata, hpad⟩ := hform final le_rfl
    rw [if_pos rfl] at hn2
    refine ⟨4 * final + n, by omega, by omega, fun k hk => ?_, fun k hnk hk => ?_⟩
    · by_cases hlt : k < 4 * final
      · obtain ⟨m, hm, -, hdata', -⟩ := hform (k / 4) (by omega)
        rw [if_neg (by omega)] at hm
        have := hdata' (k % 4) (by omega)
        rwa [Nat.div_add_mod] at this
      · have := hdata (k - 4 * final) (by omega)
        rwa [Nat.add_sub_cancel' (by omega)] at this
    · have := hpad (k - 4 * final) (by omega) (by omega)
      rwa [Nat.add_sub_cancel' (by omega)] at this
  · rintro ⟨n, hn2, hn4, hdata, hpad⟩ i hi
    have := (hgroup (i / 4)).mpr ?_ (i % 4) (by omega)
    · rwa [Nat.div_add_mod] at this
    by_cases hg : i / 4 = final
    · refine ⟨n - 4 * final, by rw [if_pos hg]; omega, by omega, fun k hk => ?_, fun k hnk hk => ?_⟩
      · exact hdata _ (by omega)
      · exact hpad _ (by omega) (by omega)
    · exact ⟨4, by rw [if_neg hg], le_rfl, fun k hk => hdata _ (by omega), fun k h4 hk => by omega⟩

/-- A string of alphabet symbols and then `p` pads. -/
def SymbolsThenPads (c : Config) (codes : List Byte) (p : Nat) : Prop :=
  ∃ symbols, codes = symbols ++ List.replicate p padCode ∧ ∀ y ∈ symbols, ∃ v, c.rev y = .data v

/-- The form, place by place. -/
theorem symbolsThenPads_iff (c : Config) (codes : List Byte) (p : Nat) :
    SymbolsThenPads c codes p ↔ ∃ n, codes.length = n + p ∧
      (∀ k, k < n → ∃ v, c.rev (codes.getD k 0#8) = .data v) ∧
      ∀ k, n ≤ k → k < codes.length → c.rev (codes.getD k 0#8) = .padSym := by
  constructor
  · rintro ⟨symbols, rfl, hdata⟩
    refine ⟨symbols.length, by simp, fun k hk => ?_, fun k hnk hk => ?_⟩
    · rw [List.getD_append _ _ _ _ hk, List.getD_eq_getElem _ _ hk]
      exact hdata _ (List.getElem_mem hk)
    · rw [List.getD_eq_getElem _ _ hk, List.getElem_append_right hnk, List.getElem_replicate]
      exact (c.rev_eq_padSym_iff _).mpr rfl
  · rintro ⟨n, hlen, hdata, hpad⟩
    refine ⟨codes.take n, ?_, fun y hy => ?_⟩
    · have hdrop : codes.drop n = List.replicate p padCode := by
        refine List.eq_replicate_iff.mpr ⟨by rw [List.length_drop]; omega, fun y hy => ?_⟩
        obtain ⟨k, hk, rfl⟩ := List.mem_drop_iff_getElem.mp hy
        rw [← c.rev_eq_padSym_iff, ← List.getD_eq_getElem _ 0#8 (by omega)]
        exact hpad (n + k) (by omega) (by omega)
      rw [← hdrop, List.take_append_drop]
    · obtain ⟨k, hk, rfl⟩ := List.mem_take_iff_getElem.mp hy
      rw [← List.getD_eq_getElem _ 0#8]
      exact hdata k (by omega)

/-! ## The scan of a string -/

theorem listRead_eq_some {codes : List Byte} {i : Nat} (h : i < codes.length) :
    listRead codes i = some (codes.getD i 0#8) := by
  rw [listRead, List.getD_eq_getElem _ _ h, List.getElem?_eq_getElem h]

theorem sound_listRead_iff (c : Config) (final : Nat) {codes : List Byte} {i : Nat} (h : i < codes.length) :
    Sound c (listRead codes) final i ↔
      faultAt final i (some (c.rev (codes.getD (i - 1) 0#8))) (c.rev (codes.getD i 0#8)) = none := by
  rw [Sound, listRead_eq_some h, listRead_eq_some (Nat.sub_lt_of_lt h)]
  simp

theorem scanFrom_listRead_pass_iff (c : Config) {codes : List Byte} (h4 : codes.length % 4 = 0) :
    scanFrom c (listRead codes) (codes.length / 4 - 1) codes.length 0 = .pass ↔
      ∃ p, p ≤ 2 ∧ SymbolsThenPads c codes p := by
  by_cases hempty : codes.length = 0
  · rw [List.length_eq_zero_iff] at hempty
    subst hempty
    exact iff_of_true rfl ⟨0, by decide, [], rfl, by simp⟩
  have hlen : 4 * (codes.length / 4 - 1) + 4 = codes.length := by omega
  have hform := string_passes_iff (codes.length / 4 - 1) fun i => c.rev (codes.getD i 0#8)
  rw [hlen] at hform
  rw [scanFrom_pass_iff, Nat.zero_add]
  constructor
  · intro h
    obtain ⟨n, hn2, hn4, hdata, hpad⟩ :=
      hform.mp fun i hi => (sound_listRead_iff c _ hi).mp (h i (Nat.zero_le i) hi)
    exact ⟨codes.length - n, by omega, (symbolsThenPads_iff c codes _).mpr ⟨n, by omega, hdata, hpad⟩⟩
  · rintro ⟨p, hp, h⟩ i - hi
    obtain ⟨n, hn, hdata, hpad⟩ := (symbolsThenPads_iff c codes p).mp h
    exact (sound_listRead_iff c _ hi).mpr (hform.mpr ⟨n, by omega, by omega, hdata, hpad⟩ i hi)

theorem scanFrom_listRead_ne_unwritten (c : Config) (codes : List Byte) (final : Nat) :
    scanFrom c (listRead codes) final codes.length 0 ≠ .unwritten := by
  rw [Ne, scanFrom_unwritten_iff]
  rintro ⟨i, -, hi, hnone, -⟩
  rw [listRead_eq_some (by omega)] at hnone
  cases hnone

theorem isPad_listRead (c : Config) (codes : List Byte) {i : Nat} (h : i < codes.length) :
    isPad c (listRead codes) i = (codes.getD i 0#8 == padCode) := by
  rw [isPad, listRead_eq_some h, Bool.eq_iff_iff, beq_iff_eq, beq_iff_eq, Option.map_some, Option.some_inj,
    c.rev_eq_padSym_iff]

/-- The symbols of the final group, read one by one. -/
theorem drop_eq_map_range {codes : List Byte} {i n : Nat} (hlen : codes.length = i + n) :
    codes.drop i = (List.range n).map fun k => codes.getD (i + k) 0#8 := by
  refine List.ext_getElem (by simp; omega) fun k hk hk' => ?_
  rw [List.length_drop] at hk
  simp [List.getElem?_eq_getElem (show i + k < codes.length by omega)]

/-- `PADS_I` is the number of pads in the final group (R92). -/
theorem decodePads_listRead (c : Config) {codes : List Byte} {final : Nat} (hlen : codes.length = 4 * final + 4) :
    decodePads c (listRead codes) final = BitVec.ofNat 2 ((codes.drop (4 * final)).count padCode) := by
  rw [decodePads, ← List.countP_eq_length_filter, drop_eq_map_range hlen, List.count_eq_countP, List.countP_map]
  congr 1
  refine List.countP_congr fun k hk => ?_
  have hk4 := List.mem_range.mp hk
  rw [isPad_listRead c codes (by omega), Function.comp_apply]

theorem SymbolsThenPads.count_drop {c : Config} {codes : List Byte} {p : Nat} (h : SymbolsThenPads c codes p) {i : Nat}
    (hi : i + p ≤ codes.length) : (codes.drop i).count padCode = p := by
  obtain ⟨symbols, rfl, hdata⟩ := h
  have hpad : padCode ∉ symbols.drop i := fun hmem =>
    ((c.exists_rev_eq_data_iff padCode).mp (hdata _ (List.mem_of_mem_drop hmem))).1 rfl
  rw [List.length_append, List.length_replicate] at hi
  rw [List.drop_append_of_le_length (by omega), List.count_append, List.count_eq_zero_of_not_mem hpad,
    List.count_replicate_self, Nat.zero_add]

theorem SymbolsThenPads.count_eq {c : Config} {codes : List Byte} {p : Nat} (h : SymbolsThenPads c codes p) :
    codes.count padCode = p := by
  obtain ⟨n, hn, -⟩ := (symbolsThenPads_iff c codes p).mp h
  exact h.count_drop (i := 0) (by omega)

/-! ## The outcome of DECODE -/

theorem decodeSymbols_of_malformed (c : Config) {codes : List Byte} (h4 : codes.length % 4 ≠ 0) :
    decodeSymbols c codes = .error (.invalidParameter .lengthNotMultipleOf4 0) := if_pos h4

theorem decodeSymbols_of_bad {c : Config} {codes : List Byte} (h4 : codes.length % 4 = 0) {cause : Cause} {pos : Nat}
    (h : scanFrom c (listRead codes) (codes.length / 4 - 1) codes.length 0 = .bad cause pos) :
    decodeSymbols c codes = .error (.invalidParameter cause pos) := by
  have hne : codes.length ≠ 0 := fun e => by
    rw [e] at h
    cases h
  simp [decodeSymbols, h4, hne, h]

theorem decodeSymbols_of_pass {c : Config} {codes : List Byte} (h4 : codes.length % 4 = 0)
    (h : scanFrom c (listRead codes) (codes.length / 4 - 1) codes.length 0 = .pass) :
    decodeSymbols c codes = .ok
      (decodeOutput c codes (decodePads c (listRead codes) (codes.length / 4 - 1)),
        decodePads c (listRead codes) (codes.length / 4 - 1)) := by
  by_cases hne : codes.length = 0
  · rw [List.length_eq_zero_iff] at hne
    subst hne
    rfl
  · simp [decodeSymbols, h4, hne, h, padsOutOfRange_of_pass c (listRead codes) codes.length h4 (by omega) h]

/-- The three outcomes of DECODE (R87, R91, R92). -/
theorem decodeSymbols_cases (c : Config) (codes : List Byte) :
    (codes.length % 4 ≠ 0 ∧ decodeSymbols c codes = .error (.invalidParameter .lengthNotMultipleOf4 0)) ∨
    (codes.length % 4 = 0 ∧ ∃ cause pos, decodeSymbols c codes = .error (.invalidParameter cause pos) ∧
      scanFrom c (listRead codes) (codes.length / 4 - 1) codes.length 0 = .bad cause pos) ∨
    (codes.length % 4 = 0 ∧ scanFrom c (listRead codes) (codes.length / 4 - 1) codes.length 0 = .pass) := by
  by_cases h4 : codes.length % 4 = 0
  · cases hscan : scanFrom c (listRead codes) (codes.length / 4 - 1) codes.length 0 with
    | pass => exact .inr (.inr ⟨h4, rfl⟩)
    | bad cause pos => exact .inr (.inl ⟨h4, cause, pos, decodeSymbols_of_bad h4 hscan, rfl⟩)
    | unwritten => exact absurd hscan (scanFrom_listRead_ne_unwritten c codes _)
  · exact .inl ⟨h4, decodeSymbols_of_malformed c h4⟩

theorem toNat_ofNat_pads {p : Nat} (hp : p ≤ 2) : (BitVec.ofNat 2 p).toNat = p := by
  rw [BitVec.toNat_ofNat]
  exact Nat.mod_eq_of_lt (by omega)

/-- The pad count DECODE reports is the number of pads at the end of the string (R92). -/
theorem decodePads_of_symbolsThenPads {c : Config} {codes : List Byte} (h4 : codes.length % 4 = 0) {p : Nat} (hp : p ≤ 2)
    (h : SymbolsThenPads c codes p) :
    decodePads c (listRead codes) (codes.length / 4 - 1) = BitVec.ofNat 2 p := by
  by_cases hempty : codes.length = 0
  · have hp0 := h.count_eq
    rw [List.length_eq_zero_iff] at hempty
    subst hempty hp0
    rfl
  · rw [decodePads_listRead c (by omega), h.count_drop (by omega)]

/-- DECODE accepts a string of whole groups exactly in the form of alphabet symbols and then at most two pads (R90). -/
theorem decodeSymbols_eq_ok_iff (c : Config) (codes out : List Byte) (pads : BitVec 2) :
    decodeSymbols c codes = .ok (out, pads) ↔ codes.length % 4 = 0 ∧ pads.toNat ≤ 2 ∧
      SymbolsThenPads c codes pads.toNat ∧ out = decodeOutput c codes pads := by
  constructor
  · intro h
    obtain ⟨-, herror⟩ | ⟨-, _, _, herror, -⟩ | ⟨h4, hpass⟩ := decodeSymbols_cases c codes
    case inl | inr.inl => cases herror.symm.trans h
    obtain ⟨p, hp, hform⟩ := (scanFrom_listRead_pass_iff c h4).mp hpass
    rw [decodeSymbols_of_pass h4 hpass, decodePads_of_symbolsThenPads h4 hp hform] at h
    cases h
    rw [toNat_ofNat_pads hp]
    exact ⟨h4, hp, hform, rfl⟩
  · rintro ⟨h4, hp, hform, rfl⟩
    rw [decodeSymbols_of_pass h4 ((scanFrom_listRead_pass_iff c h4).mpr ⟨_, hp, hform⟩),
      decodePads_of_symbolsThenPads h4 hp hform, BitVec.ofNat_toNat, BitVec.setWidth_eq]

/-- Settles O31: the alphabet of a legal configuration does not hold the pad, so its symbols are the codes with a segment
value. -/
theorem decodeAcceptsExactlyPaddedStrings : Obligations.DecodeAcceptsExactlyPaddedStrings := by
  intro c codes hc
  obtain ⟨-, -, hnopad⟩ := Config.entries_of_alphabetLegal hc
  constructor
  · rintro ⟨⟨out, pads⟩, h⟩
    obtain ⟨h4, hp, ⟨symbols, heq, hdata⟩, -⟩ := (decodeSymbols_eq_ok_iff c codes out pads).mp h
    exact ⟨h4, symbols, pads.toNat, hp, heq, fun y hy => ((c.exists_rev_eq_data_iff y).mp (hdata y hy)).2⟩
  · rintro ⟨h4, symbols, p, hp, heq, hmem⟩
    have hform : SymbolsThenPads c codes p := ⟨symbols, heq, fun y hy =>
      (c.exists_rev_eq_data_iff y).mpr ⟨ne_of_mem_of_not_mem (hmem y hy) hnopad, hmem y hy⟩⟩
    exact ⟨_, decodeSymbols_of_pass h4 ((scanFrom_listRead_pass_iff c h4).mpr ⟨p, hp, hform⟩)⟩

/-- Settles O33: the scan of a string reads every symbol, so it ends in a pass or at a position at fault. -/
theorem decodeRejectsOnlyInvalidParameters : Obligations.DecodeRejectsOnlyInvalidParameters := by
  intro c codes
  refine ⟨decodeSymbols_of_malformed c, fun e h => ?_⟩
  obtain ⟨h4, herror⟩ | ⟨-, cause, pos, herror, hbad⟩ | ⟨h4, hpass⟩ := decodeSymbols_cases c codes
  · cases herror.symm.trans h
    exact ⟨_, _, rfl, fun h0 => absurd h0 h4⟩
  · cases herror.symm.trans h
    obtain ⟨-, hpos, -⟩ := (scanFrom_bad_iff c _ _ cause pos _ 0).mp hbad
    exact ⟨cause, pos, rfl, fun _ => ⟨scanFrom_bad_hasPosition c _ _ _ _ cause pos hbad, by omega⟩⟩
  · cases (decodeSymbols_of_pass h4 hpass).symm.trans h

end Sys2Proof.Machine
end

section
/-! The symbol-unpacker and the byte-reconstructor (R93 to R98): the accumulator of a decode group, its kept bytes, and
the output of DECODE byte by byte. -/

namespace Sys2Proof.Machine

/-! ## The accumulator, segment by segment and byte by byte -/

theorem accSegment_packSegments (v : Nat → Seg) {k : Nat} (hk : k < 4) :
    accSegment (packSegments [v 0, v 1, v 2, v 3]) k = v k := by
  obtain ⟨h0, h1, h2, h3⟩ := extractLsb'_segments_of_segments (v 0) (v 1) (v 2) (v 3)
  rw [accSegment_eq_extractLsb', packSegments_eq_append]
  obtain rfl | rfl | rfl | rfl : k = 0 ∨ k = 1 ∨ k = 2 ∨ k = 3 := by omega
  exacts [h0, h1, h2, h3]

theorem accByte_packBytes (b : Nat → Byte) {j : Nat} (hj : j < 3) : accByte (packBytes (b 0) (b 1) (b 2)) j = b j := by
  rw [packBytes_eq_append, accByte]
  obtain rfl | rfl | rfl : j = 0 ∨ j = 1 ∨ j = 2 := by omega
  · rw [BitVec.extractLsb'_append_eq_of_le (by decide), BitVec.extractLsb'_append_eq_of_le (by decide)]
    exact BitVec.extractLsb'_eq_self
  · rw [BitVec.extractLsb'_append_eq_of_le (by decide)]
    exact BitVec.extractLsb'_append_eq_right
  · exact BitVec.extractLsb'_append_eq_right

/-- A field of a field is a field. -/
theorem extractLsb'_extractLsb'_add {w : Nat} (x : BitVec w) {a b m n : Nat} (h : b + n ≤ m) :
    (x.extractLsb' a m).extractLsb' b n = x.extractLsb' (a + b) n := by
  refine BitVec.eq_of_getLsbD_eq fun i hi => ?_
  simp only [BitVec.getLsbD_extractLsb', Nat.add_assoc, show b + i < m by omega, decide_true, Bool.true_and]

/-- Byte `j` lies in segments `j` and `j + 1` (R66). -/
theorem accByte_eq_extractLsb'_segments (acc : Accum) {j : Nat} (hj : j < 3) :
    accByte acc j = (accSegment acc j ++ accSegment acc (j + 1)).extractLsb' (4 - 2 * j) 8 := by
  rw [accSegment_eq_extractLsb', accSegment_eq_extractLsb',
    BitVec.extractLsb'_append_extractLsb'_eq_extractLsb' (by omega), extractLsb'_extractLsb'_add _ (by omega), accByte]
  congr 1
  omega

/-- A byte is a digit of the accumulator's number (R66, R95). -/
theorem accByte_eq_ofNat (acc : Accum) (j : Nat) : accByte acc j = BitVec.ofNat 8 (acc.toNat / 2 ^ (16 - 8 * j)) := by
  rw [accByte, BitVec.extractLsb', Nat.shiftRight_eq_div_pow]

theorem packSegments_toNat (v0 v1 v2 v3 : Seg) : (packSegments [v0, v1, v2, v3]).toNat =
    262144 * v0.toNat + 4096 * v1.toNat + 64 * v2.toNat + v3.toNat := by
  rw [packSegments_eq_append, toNat_append_eq_add, toNat_append_eq_add, toNat_append_eq_add]
  omega

/-! ## One group -/

theorem Config.revValue_of_rev_eq_data {c : Config} {code : Byte} {v : Seg} (h : c.rev code = .data v) :
    c.revValue code = v := by
  rw [Config.revValue, h]

theorem Config.revValue_of_rev_eq_padSym {c : Config} {code : Byte} (h : c.rev code = .padSym) : c.revValue code = 0#6 := by
  rw [Config.revValue, h]

/-- The accumulator of a group is packed from its four symbols' values (R93, R94). -/
theorem decodeAcc_eq_packSegments (c : Config) {read : Nat → Option Byte} {g : Nat} {y : Nat → Byte}
    (h : ∀ k, k < 4 → read (4 * g + k) = some (y k)) :
    decodeAcc c read g =
      some (packSegments [c.revValue (y 0), c.revValue (y 1), c.revValue (y 2), c.revValue (y 3)]) := by
  have h0 : read (4 * g) = some (y 0) := h 0 (by decide)
  rw [decodeAcc, h0, h 1 (by decide), h 2 (by decide), h 3 (by decide)]

theorem decodeGroup_getElem? {acc : Accum} {last : Bool} {pads : BitVec 2} {j : Nat}
    (hj : j < (decodeGroup acc last pads).length) : (decodeGroup acc last pads)[j]? = some (accByte acc j) := by
  rw [decodeGroup_length] at hj
  rw [decodeGroup, List.getElem?_take_of_lt hj]
  have : j < 3 := by split at hj <;> omega
  obtain rfl | rfl | rfl : j = 0 ∨ j = 1 ∨ j = 2 := by omega
  all_goals rfl

/-- The last group drops as many bytes as it has pads, every other keeps all three (R96). -/
theorem lt_decodeGroup_length_iff (acc : Accum) (last : Bool) (pads : BitVec 2) {j : Nat} (hj : j < 3) :
    j < (decodeGroup acc last pads).length ↔ ¬(last = true ∧ 3 - pads.toNat ≤ j) := by
  rw [decodeGroup_length]
  cases last with
  | false => simpa using hj
  | true => rw [if_pos rfl, eq_self, true_and, Nat.not_le]

/-! ## The whole output -/

/-- The accumulator of group `g` of the string `codes` (R93, R94). -/
def symbolAcc (c : Config) (codes : List Byte) (g : Nat) : Accum :=
  packSegments [c.revValue (codes.getD (4 * g) 0#8), c.revValue (codes.getD (4 * g + 1) 0#8),
    c.revValue (codes.getD (4 * g + 2) 0#8), c.revValue (codes.getD (4 * g + 3) 0#8)]

theorem accSegment_symbolAcc (c : Config) (codes : List Byte) (g : Nat) {k : Nat} (hk : k < 4) :
    accSegment (symbolAcc c codes g) k = c.revValue (codes.getD (4 * g + k) 0#8) :=
  accSegment_packSegments (fun k => c.revValue (codes.getD (4 * g + k) 0#8)) hk

theorem decodeAcc_listRead (c : Config) {codes : List Byte} {g : Nat} (hg : g < codes.length / 4) :
    decodeAcc c (listRead codes) g = some (symbolAcc c codes g) :=
  decodeAcc_eq_packSegments c (y := fun k => codes.getD (4 * g + k) 0#8) fun k _ => listRead_eq_some (by omega)

theorem decodeOutput_eq_flatMap (c : Config) (codes : List Byte) (pads : BitVec 2) :
    decodeOutput c codes pads = (List.range (codes.length / 4)).flatMap fun g =>
      decodeGroup (symbolAcc c codes g) (g + 1 == codes.length / 4) pads := by
  refine List.flatMap_congr fun g hg => ?_
  rw [decodeAcc_listRead c (List.mem_range.mp hg)]

/-- Every group before the last keeps three bytes (R96). -/
theorem decodeGroup_length_of_not_last (c : Config) (codes : List Byte) (pads : BitVec 2) {g n : Nat} (hg : g + 1 < n) :
    (decodeGroup (symbolAcc c codes g) (g + 1 == n) pads).length = 3 := by
  rw [decodeGroup_length, if_neg (by simpa using hg.ne)]

/-- The length law of DECODE (R98). -/
theorem decodeOutput_length (c : Config) (codes : List Byte) (pads : BitVec 2) :
    (decodeOutput c codes pads).length = 3 * (codes.length / 4) - pads.toNat := by
  have hpads := pads.isLt
  rw [decodeOutput_eq_flatMap]
  cases codes.length / 4 with
  | zero => simp
  | succ n =>
    rw [List.range_succ, List.flatMap_append, List.length_append, List.flatMap_singleton, decodeGroup_length, if_pos (by simp),
      length_flatMap_range fun g hg => decodeGroup_length_of_not_last c codes pads (Nat.succ_lt_succ hg)]
    omega

/-- Byte `j` of group `g`'s accumulator stands at place `3 * g + j` of the output (R95, R97). -/
theorem decodeOutput_getElem? (c : Config) (codes : List Byte) (pads : BitVec 2) {g j : Nat} (hj : j < 3)
    (h : 3 * g + j < 3 * (codes.length / 4) - pads.toNat) :
    (decodeOutput c codes pads)[3 * g + j]? = some (accByte (symbolAcc c codes g) j) := by
  have hkept : j < (decodeGroup (symbolAcc c codes g) (g + 1 == codes.length / 4) pads).length := by
    rw [lt_decodeGroup_length_iff _ _ _ hj, beq_iff_eq]
    omega
  rw [decodeOutput_eq_flatMap, getElem?_flatMap_range _
    (fun g hg => decodeGroup_length_of_not_last c codes pads hg) (by omega) hkept, decodeGroup_getElem? hkept]

/-- Settles O32: the length of the output, and the pads at the end of the string are all it has. -/
theorem decodeLengthLaw : Obligations.DecodeLengthLaw := by
  intro c codes out pads h
  obtain ⟨-, hpads, hform, rfl⟩ := (decodeSymbols_eq_ok_iff c codes out pads).mp h
  exact ⟨decodeOutput_length c codes pads, hpads, hform.count_eq.symm⟩

/-! ## Decoding an encoding -/

/-- A symbol of the encoding has the value of its segment (R22, R79). -/
theorem revValue_encodeOutput {c : Config} (hc : c.alphabetLegal = true) (bs : List Byte) (pads : BitVec 2) {g k : Nat}
    (hk : k < 4) (h : 4 * g + k < (encodeOutput c bs pads).length - pads.toNat) :
    c.revValue ((encodeOutput c bs pads).getD (4 * g + k) 0#8) = accSegment (groupAcc bs g) k := by
  have hlen := encodeOutput_length c bs pads
  rw [List.getD_eq_getElem?_getD, encodeOutput_getElem? c bs pads (by omega) hk, if_neg (by omega), Option.getD_some]
  exact Config.revValue_of_rev_eq_data (Config.rev_symbol hc _)

theorem accByte_symbolAcc_encodeOutput {c : Config} (hc : c.alphabetLegal = true) (bs : List Byte) {g j : Nat}
    (hj : j < 3) (h : 3 * g + j < bs.length) :
    accByte (symbolAcc c (encodeOutput c bs (encodePads bs.length)) g) j = bs.getD (3 * g + j) 0#8 := by
  have hcover := three_mul_encodeGroupCount bs.length
  have hlen := encodeOutput_length c bs (encodePads bs.length)
  have hpads := (encodePads_spec bs.length).1
  have hseg {k : Nat} (hk : k < 4) (hkj : k ≤ j + 1) :
      accSegment (symbolAcc c (encodeOutput c bs (encodePads bs.length)) g) k = accSegment (groupAcc bs g) k := by
    rw [accSegment_symbolAcc _ _ _ hk, revValue_encodeOutput hc bs _ hk (by omega)]
  rw [accByte_eq_extractLsb'_segments _ hj, hseg (by omega) (by omega), hseg (by omega) le_rfl,
    ← accByte_eq_extractLsb'_segments _ hj]
  exact accByte_packBytes (fun j => bs.getD (3 * g + j) 0#8) hj

theorem decodeOutput_encodeOutput {c : Config} (hc : c.alphabetLegal = true) (bs : List Byte) :
    decodeOutput c (encodeOutput c bs (encodePads bs.length)) (encodePads bs.length) = bs := by
  have hcover := three_mul_encodeGroupCount bs.length
  have hlen := encodeOutput_length c bs (encodePads bs.length)
  have hlength : (decodeOutput c (encodeOutput c bs (encodePads bs.length)) (encodePads bs.length)).length = bs.length := by
    rw [decodeOutput_length]
    omega
  refine List.ext_getElem hlength fun i _ hi => Option.some_inj.mp ?_
  have hplace : 3 * (i / 3) + i % 3 = i := Nat.div_add_mod i 3
  have hbyte := decodeOutput_getElem? c (encodeOutput c bs (encodePads bs.length)) (encodePads bs.length)
    (g := i / 3) (j := i % 3) (by omega) (by omega)
  rw [accByte_symbolAcc_encodeOutput hc bs (by omega) (by omega), hplace] at hbyte
  rw [← List.getElem?_eq_getElem, hbyte, List.getD_eq_getElem _ _ hi]

/-- Settles O35: the encoding has the form DECODE accepts, and each kept byte lies in segments that no pad replaces. -/
theorem decodeOfEncodeIsTheInput : Obligations.DecodeOfEncodeIsTheInput := by
  intro c bs out pads hc h
  obtain ⟨out', pads', h', -, hlen4, -, hpads, hle, hpad, hdata⟩ := encodeTransformGuarantees c bs hc
  cases h'.symm.trans h
  have hform : SymbolsThenPads c out pads.toNat := by
    refine (symbolsThenPads_iff c out _).mpr ⟨out.length - pads.toNat, by omega, fun k hk => ?_, fun k hnk hk => ?_⟩
    · obtain ⟨y, hy, hmem, hne⟩ := hdata k hk
      rw [List.getD_eq_getElem?_getD, hy]
      exact (c.exists_rev_eq_data_iff y).mpr ⟨hne, hmem⟩
    · rw [List.getD_eq_getElem?_getD, hpad k hnk hk]
      exact (c.rev_eq_padSym_iff padCode).mpr rfl
  rw [encodeBytes_eq_ok] at h
  cases h
  exact (decodeSymbols_eq_ok_iff c _ bs _).mpr ⟨hlen4, hpads, hform, (decodeOutput_encodeOutput hc bs).symm⟩

end Sys2Proof.Machine
end

section
/-! The bits DECODE discards (R99): the scan sees the kinds of the symbols alone, and a padded final group keeps no byte
that reaches into them. -/

namespace Sys2Proof

/-- An entry without its segment value. -/
def RevEntry.kind : RevEntry → RevEntry
  | .data _ => .data 0#6
  | .padSym => .padSym
  | .invalid => .invalid

theorem RevEntry.kind_eq_padSym_iff (e : RevEntry) : e.kind = .padSym ↔ e = .padSym := by
  cases e <;> simp [RevEntry.kind]

end Sys2Proof

namespace Sys2Proof.Machine

/-! ## The scan sees kinds alone -/

theorem faultAt_kind (final i : Nat) (prev : Option RevEntry) (cur : RevEntry) :
    faultAt final i (prev.map RevEntry.kind) cur.kind = faultAt final i prev cur := by
  have hprev : prev.map RevEntry.kind = some .padSym ↔ prev = some .padSym := by
    simp [Option.map_eq_some_iff, RevEntry.kind_eq_padSym_iff]
  cases cur with
  | data v =>
    rw [RevEntry.kind, faultAt_data, faultAt_data]
    simp only [hprev]
  | padSym => rw [RevEntry.kind, faultAt_padSym, faultAt_padSym]
  | invalid => rfl

/-- The kind of the symbol at a place (R90). -/
def kindAt (c : Config) (read : Nat → Option Byte) (i : Nat) : Option RevEntry :=
  ((read i).map c.rev).map RevEntry.kind

theorem scanFrom_congr_kind (c : Config) {read read' : Nat → Option Byte} (h : ∀ i, kindAt c read i = kindAt c read' i)
    (final : Nat) : ∀ n i, scanFrom c read final n i = scanFrom c read' final n i := by
  intro n
  induction n with
  | zero => exact fun _ => rfl
  | succ n ih =>
    intro i
    have hprev := h (i - 1)
    have hcur := h i
    unfold kindAt at hprev hcur
    simp only [scanFrom, ih]
    cases hr : read i <;> cases hr' : read' i <;> rw [hr, hr'] at hcur
    case succ.some.some y y' =>
      have hkind : (c.rev y).kind = (c.rev y').kind := Option.some_inj.mp hcur
      dsimp only
      rw [← faultAt_kind, hprev, hkind, faultAt_kind]
    all_goals cases hcur

theorem kindAt_listRead (c : Config) (codes : List Byte) (i : Nat) :
    kindAt c (listRead codes) i = (codes.map fun y => (c.rev y).kind)[i]? := by
  rw [kindAt, listRead, List.getElem?_map, Option.map_map]
  rfl

/-! ## The final group -/

section
variable (c : Config) {pre last : List Byte}

theorem symbolAcc_append_of_lt {g : Nat} (hg : g < pre.length / 4) : symbolAcc c (pre ++ last) g = symbolAcc c pre g := by
  unfold symbolAcc
  rw [List.getD_append _ _ _ _ (by omega), List.getD_append _ _ _ _ (by omega), List.getD_append _ _ _ _ (by omega),
    List.getD_append _ _ _ _ (by omega)]

variable (hpre : pre.length % 4 = 0) (hlast : last.length = 4)
include hpre hlast

theorem length_append_group : (pre ++ last).length = 4 * (pre.length / 4) + 4 := by
  rw [List.length_append]
  omega

theorem symbolAcc_append_last :
    symbolAcc c (pre ++ last) (pre.length / 4) = packSegments (last.map c.revValue) := by
  have hstart : 4 * (pre.length / 4) = pre.length := by omega
  obtain ⟨a, b, d, e, rfl⟩ := List.length_eq_four.mp hlast
  simp [symbolAcc, hstart]

/-- The final group's kept bytes stand behind those of the groups before it, which keep all of theirs (R96, R97). -/
theorem decodeOutput_append (pads : BitVec 2) : decodeOutput c (pre ++ last) pads =
    decodeOutput c pre 0#2 ++ decodeGroup (packSegments (last.map c.revValue)) true pads := by
  have hgroups : (pre ++ last).length / 4 = pre.length / 4 + 1 := by
    rw [length_append_group hpre hlast]
    omega
  have hwhole (acc : Accum) (b : Bool) : decodeGroup acc false pads = decodeGroup acc b 0#2 := by
    cases b <;> rfl
  rw [decodeOutput_eq_flatMap, decodeOutput_eq_flatMap, hgroups, List.range_succ, List.flatMap_append,
    List.flatMap_singleton, beq_self_eq_true, symbolAcc_append_last c hpre hlast]
  refine congrArg (· ++ _) (List.flatMap_congr fun g hg => ?_)
  have hlt := List.mem_range.mp hg
  rw [symbolAcc_append_of_lt c hlt, beq_eq_false_iff_ne.mpr (Nat.succ_lt_succ hlt).ne, hwhole]

theorem decodePads_append :
    decodePads c (listRead (pre ++ last)) ((pre ++ last).length / 4 - 1) = BitVec.ofNat 2 (last.count padCode) := by
  have hlen := length_append_group hpre hlast
  have hstart : 4 * ((pre ++ last).length / 4 - 1) = pre.length := by omega
  rw [decodePads_listRead c (by omega), hstart, List.drop_left]

end

/-- Two final groups with symbols of the same kinds and the same kept bytes decode alike (R99). -/
theorem decodeSymbols_append_congr (c : Config) (pre : List Byte) {last last' : List Byte} {p : Nat}
    (hlast : last.length = 4) (hlast' : last'.length = 4)
    (hkind : last.map (fun y => (c.rev y).kind) = last'.map fun y => (c.rev y).kind)
    (hpads : last.count padCode = p) (hpads' : last'.count padCode = p)
    (hkept : decodeGroup (packSegments (last.map c.revValue)) true (BitVec.ofNat 2 p) =
      decodeGroup (packSegments (last'.map c.revValue)) true (BitVec.ofNat 2 p)) :
    decodeSymbols c (pre ++ last) = decodeSymbols c (pre ++ last') := by
  have hlen : (pre ++ last').length = (pre ++ last).length := by
    rw [List.length_append, List.length_append, hlast, hlast']
  have hscan := scanFrom_congr_kind c (read := listRead (pre ++ last)) (read' := listRead (pre ++ last'))
    (fun i => by rw [kindAt_listRead, kindAt_listRead, List.map_append, List.map_append, hkind])
    ((pre ++ last).length / 4 - 1) (pre ++ last).length 0
  obtain ⟨h4, herror⟩ | ⟨h4, cause, pos, herror, hbad⟩ | ⟨h4, hpass⟩ := decodeSymbols_cases c (pre ++ last)
  · rw [herror, decodeSymbols_of_malformed c (hlen ▸ h4)]
  · rw [hscan, ← hlen] at hbad
    rw [herror, decodeSymbols_of_bad (hlen ▸ h4) hbad]
  · have hpre : pre.length % 4 = 0 := by
      rw [List.length_append] at h4
      omega
    have hpass' := hscan.symm.trans hpass
    rw [← hlen] at hpass'
    rw [decodeSymbols_of_pass h4 hpass, decodeSymbols_of_pass (hlen ▸ h4) hpass', decodePads_append c hpre hlast,
      decodePads_append c hpre hlast', decodeOutput_append c hpre hlast, decodeOutput_append c hpre hlast', hpads, hpads',
      hkept]

/-- Of a final group with two pads one byte is kept, and it reaches over two bits of segment 1 (R96). -/
theorem decodeGroup_two_pads (v0 v1 v2 v3 : Seg) :
    decodeGroup (packSegments [v0, v1, v2, v3]) true 2#2 = [v0 ++ v1.extractLsb' 4 2] := by
  obtain ⟨h0, -⟩ := extractLsb'_bytes_of_segments v0 v1 v2 v3
  rw [packSegments_eq_append]
  exact congrArg (fun b => [b]) h0

/-- Of a final group with one pad two bytes are kept, and they reach over four bits of segment 2 (R96). -/
theorem decodeGroup_one_pad (v0 v1 v2 v3 : Seg) : decodeGroup (packSegments [v0, v1, v2, v3]) true 1#2 =
    [v0 ++ v1.extractLsb' 4 2, v1.extractLsb' 0 4 ++ v2.extractLsb' 2 4] := by
  obtain ⟨h0, h1, -⟩ := extractLsb'_bytes_of_segments v0 v1 v2 v3
  rw [packSegments_eq_append]
  exact congrArg₂ (fun b b' => [b, b']) h0 h1

/-- Settles O34: the alphabet symbols are of one kind, and the kept bytes do not reach into the bits in question. -/
theorem discardedBitsDoNotMatter : Obligations.DiscardedBitsDoNotMatter := by
  intro c pre v0 v1 w1 hc
  have hrev := Config.rev_symbol hc
  have hvalue (v : Seg) : c.revValue (c.symbol v) = v := Config.revValue_of_rev_eq_data (hrev v)
  have hne (v : Seg) : c.symbol v ≠ padCode := (Config.symbol_mem_alphabet hc v).2
  refine ⟨fun h1 => decodeSymbols_append_congr c pre (p := 2) rfl rfl ?_ ?_ ?_ ?_, fun v2 w2 h2 => 
    decodeSymbols_append_congr c pre (p := 1) rfl rfl ?_ ?_ ?_ ?_⟩
  · simp [hrev, RevEntry.kind]
  · simp [hne]
  · simp [hne]
  · simp only [List.map_cons, List.map_nil, hvalue, decodeGroup_two_pads, h1]
  · simp [hrev, RevEntry.kind]
  · simp [hne]
  · simp [hne]
  · simp only [List.map_cons, List.map_nil, hvalue, decodeGroup_one_pad, h2]

end Sys2Proof.Machine
end

section
/-! DECODE in the block: one RUN step (R111), and the commands that end in the CHECK step with no symbol read (R87, R88). -/

namespace Sys2Proof.Machine

/-! ## One RUN step -/

/-- A RUN step of DECODE whose symbols are written puts the group's kept bytes into `OUT_BUF` (R111). -/
theorem engineStep_run_decode {c : Config} {s : State} (hp : s.phase = .run) (h0 : s.opl ≠ 0#2) {acc : Accum}
    (hacc : decodeAcc c s.inRead s.gidx.toNat = some acc) :
    engineStep c s = .next (s.withGroup acc (decodeGroup acc s.lastGroup s.padsI)) := by
  rw [engineStep_of_run c s hp, runStep, if_neg h0, runDecode_eq c h0, hacc]

/-- The completion of DECODE: its output length is three bytes a group, less the pads (R98, R112). -/
theorem State.complete_of_decode {s : State} (h0 : s.opl ≠ 0#2) : s.complete = { s with
    outLen := BitVec.ofNat 17 (3 * s.ng.toNat - s.padsI.toNat), status := Status.success s.padsI, errPos := 0#17
    phase := .idle } := by
  rw [State.complete, State.outputLength, if_neg h0]

/-- Settles O51: a RUN step of DECODE writes the kept bytes of its group and goes on or completes. -/
theorem decodeGroupStep : Obligations.DecodeGroupStep := by
  intro c s y v hp h0 hg hy
  have hvalue {k : Nat} (hk : k < 4) : c.revValue (y k) = v k := by
    obtain ⟨-, hdata | ⟨hpad, hzero⟩⟩ := hy k hk
    · exact Config.revValue_of_rev_eq_data hdata
    · rw [Config.revValue_of_rev_eq_padSym hpad, hzero]
  have hacc : decodeAcc c s.inRead s.gidx.toNat = some (packSegments [v 0, v 1, v 2, v 3]) := by
    refine (decodeAcc_eq_packSegments c fun k hk => (hy k hk).1).trans ?_
    rw [hvalue (by decide), hvalue (by decide), hvalue (by decide), hvalue (by decide)]
  have hval := packSegments_toNat (v 0) (v 1) (v 2) (v 3)
  generalize packSegments [v 0, v 1, v 2, v 3] = acc at hacc hval
  have hplace : outputBefore s.opl s.gidx.toNat = 3 * s.gidx.toNat := if_neg h0
  have hlength : (decodeGroup acc s.lastGroup s.padsI).length ≤ 3 :=
    (decodeGroup_length acc s.lastGroup s.padsI).trans_le (by split <;> omega)
  obtain ⟨hgidx, hmore, hlast⟩ := State.withGroup_cases hg acc (decodeGroup acc s.lastGroup s.padsI)
  refine ⟨_, engineStep_run_decode hp h0 hacc, ?acc, fun j hj => ?bytes, fun a ha => ?kept, fun a => ?input, hgidx,
    fun h => ?more, fun h => ?last⟩
  case acc => rw [State.withGroup_acc, hval]
  case bytes =>
    have hkept := lt_decodeGroup_length_iff acc s.lastGroup s.padsI hj
    rw [s.lastGroup_iff] at hkept
    rw [State.withGroup_read_outBuf, hplace, State.withGroup_acc, ← accByte_eq_ofNat]
    by_cases hdropped : s.gidx.toNat + 1 = s.ng.toNat ∧ 3 - s.padsI.toNat ≤ j
    · rw [if_pos hdropped, if_neg fun h => hkept.mp (by omega) hdropped]
    · rw [if_neg hdropped, if_pos (by have := hkept.mpr hdropped; omega), Nat.add_sub_cancel_left,
        decodeGroup_getElem? (hkept.mpr hdropped)]
  case kept => rw [State.withGroup_read_outBuf, hplace, if_neg (by omega)]
  case input => rw [State.withGroup_inBuf]
  case more => rw [State.withGroup_acc]; exact hmore h
  case last => rw [State.withGroup_acc]; exact (hlast h).trans (State.complete_of_decode h0)

/-! ## Commands that end in the CHECK step -/

/-- The first engine step of a command is its CHECK step (R105, R110). -/
theorem run_one_start {c : Config} {s : State} (hidle : s.phase = .idle) (hpending : s.pending = []) (op : BitVec 2) :
    (machineOf c).run 1 (s.start op) = checkStep c (s.start op) := by
  have hstep : stepWith c (s.start op) = checkStep c (s.start op) := by
    rw [stepWith_of_nil c _ (by simp [hpending]), engineStep_of_check c _ (by simp [hidle])]
  simp only [Host.Core.run, machineOf, hstep]
  cases checkStep c (s.start op) <;> rfl

theorem State.beginRun_zero (s : State) (pads : BitVec 2) :
    s.beginRun pads 0 = State.complete { s with padsI := pads, ng := 0#17, gidx := 0#17 } := rfl

/-- A command that raises an error changes nothing around it (R127, R128). -/
theorem State.commandFrame_raise_start (s : State) (op : BitVec 2) (e : EngineError) :
    s.CommandFrame ((s.start op).raise e) 0 := by
  simp [State.CommandFrame]

/-- The CHECK step of DECODE ends a length that is no multiple of 4 before its scan (R87). -/
theorem checkStep_decode_of_malformed {c : Config} {s : State} (h1 : s.opl = 1#2) (hfits : s.nl.toNat ≤ c.inCap)
    (h4 : s.nl.toNat % 4 ≠ 0) :
    checkStep c s = .next (s.raise (.invalidParameter .lengthNotMultipleOf4 0)) := by
  simp [checkStep, checkDecode, h1, hfits, h4]

/-- The CHECK step of ENCODE and DECODE completes a command of length 0 (R88, R106). -/
theorem checkStep_of_length_zero (c : Config) {s : State} (hop : s.opl = 0#2 ∨ s.opl = 1#2) (hnl : s.nl = 0#17) :
    checkStep c s = .next (s.beginRun 0#2 0) := by
  rcases hop with h | h
  · simp [checkStep, checkEncode, encodePads, padsOutOfRange, encodeGroupCount, h, hnl]
  · simp [checkStep, checkDecode, h, hnl]

/-- Settles O41: the CHECK step raises cause 1. -/
theorem decodeOfMalformedLengthEndsWithCause1 : Obligations.DecodeOfMalformedLengthEndsWithCause1 := by
  intro c s hidle hpending hfits h4
  have hcheck := checkStep_decode_of_malformed (c := c) (s := s.start 1#2) (by simp [hidle]) (by simpa [hidle])
    (by simpa [hidle])
  have hword : (Status.failed (.invalidParameter .lengthNotMultipleOf4 0)).word = 0x00000016#32 := by decide
  exact ⟨_, _, rfl, (run_one_start hidle hpending 1#2).trans hcheck, hword, rfl, rfl, rfl,
    s.commandFrame_raise_start 1#2 _⟩

/-- Settles O42: the CHECK step completes the command. -/
theorem emptyCommandsSucceed : Obligations.EmptyCommandsSucceed := by
  intro c s hidle hpending hlen i hi
  obtain ⟨op, hop, hexec⟩ : ∃ op, (op = 0#2 ∨ op = 1#2) ∧ exec i s = .next (s.start op) := by
    obtain rfl | rfl := List.mem_pair.mp hi
    · exact ⟨0#2, .inl rfl, rfl⟩
    · exact ⟨1#2, .inr rfl, rfl⟩
  have hcheck := checkStep_of_length_zero c (s := s.start op) (by simpa [hidle]) (by simpa [hidle])
  have hword : (Status.success 0#2).word = 0x00000002#32 := by decide
  have houtput : ((s.start op).beginRun 0#2 0).outLen = 0#17 := by
    rw [State.beginRun_zero, State.complete_outLen, State.outputLength]
    simp
  exact ⟨_, _, hexec, (run_one_start hidle hpending op).trans hcheck, hword, houtput, rfl, rfl, by
    simp [State.CommandFrame]⟩

end Sys2Proof.Machine
end

section
/-! A command from its CHECK step to its completion (R110 to R112, R116, R117): its groups, one a RUN step, add their
output to `OUT_BUF` in order.  Then the round trip through the block (R100, R149). -/

namespace Sys2Proof.Machine

/-! ## The groups of a command, in order -/

theorem Memory.writeFrom_append (bs bs' : List Byte) : ∀ (m : Memory) (i : Nat),
    m.writeFrom i (bs ++ bs') = Memory.writeFrom (m.writeFrom i bs) (i + bs.length) bs' := by
  induction bs with
  | nil => exact fun _ _ => rfl
  | cons b bs ih =>
    intro m i
    rw [List.cons_append, Memory.writeFrom_cons, Memory.writeFrom_cons, ih, List.length_cons, Nat.add_assoc,
      Nat.add_comm 1]

/-- The command begun in `s`, with `pads` and `n` groups, about to process group `g`, the output of the groups before it
being `out` (R111). -/
def State.atGroup (s : State) (pads : BitVec 2) (n g : Nat) (acc : Accum) (out : List Byte) : State :=
  { s with
    phase := .run, padsI := pads, ng := BitVec.ofNat 17 n, gidx := BitVec.ofNat 17 g, acc := acc
    outBuf := s.outBuf.writeFrom 0 out }

theorem toNat_ofNat_len {n : Nat} (hn : n < 2 ^ 17) : (BitVec.ofNat 17 n).toNat = n := by
  rw [BitVec.toNat_ofNat]
  exact Nat.mod_eq_of_lt hn

theorem State.atGroup_ng_toNat {s : State} {pads : BitVec 2} {n g : Nat} {acc : Accum} {out : List Byte}
    (hn : n < 2 ^ 17) : (s.atGroup pads n g acc out).ng.toNat = n := toNat_ofNat_len hn

section
variable {s : State} {pads : BitVec 2} {n g : Nat} {acc : Accum} {out : List Byte} (hn : n < 2 ^ 17) (hg : g < n)
include hn hg

theorem State.atGroup_gidx_toNat : (s.atGroup pads n g acc out).gidx.toNat = g := toNat_ofNat_len (hg.trans hn)

theorem State.atGroup_lastGroup : (s.atGroup pads n g acc out).lastGroup = (g + 1 == n) := by
  rw [State.lastGroup, State.atGroup_gidx_toNat hn hg, State.atGroup_ng_toNat hn]

/-- A group's output is added to that of the groups before it (R81, R97). -/
theorem State.withGroup_atGroup (hout : out.length = outputBefore s.opl g) (acc' : Accum) (bs : List Byte) :
    (s.atGroup pads n g acc out).withGroup acc' bs =
      if g + 1 = n then (s.atGroup pads n n acc' (out ++ bs)).complete
      else s.atGroup pads n (g + 1) acc' (out ++ bs) := by
  have hgidx := State.atGroup_gidx_toNat (s := s) (pads := pads) (acc := acc) (out := out) hn hg
  have hng := State.atGroup_ng_toNat (s := s) (pads := pads) (g := g) (acc := acc) (out := out) hn
  have hplace : outputBefore (s.atGroup pads n g acc out).opl (s.atGroup pads n g acc out).gidx.toNat =
      0 + out.length := by
    rw [hgidx, hout, Nat.zero_add]
    rfl
  have hlast := State.atGroup_lastGroup (s := s) (pads := pads) (acc := acc) (out := out) hn hg
  by_cases hend : g + 1 = n
  · rw [if_pos hend, State.withGroup_of_lastGroup (hlast.trans (beq_iff_eq.mpr hend)), hplace]
    simp only [State.atGroup, Memory.writeFrom_append]
  · rw [if_neg hend, State.withGroup_of_not_lastGroup (by rw [hgidx, hng]; exact hg)
      (hlast.trans (beq_eq_false_iff_ne.mpr hend)), hplace]
    simp only [State.atGroup, Memory.writeFrom_append, BitVec.ofNat_add]

/-- The RUN step of a group of ENCODE (R111). -/
theorem engineStep_atGroup_encode {c : Config} (h0 : s.opl = 0#2) {acc' : Accum}
    (hacc : encodeAcc s.inRead s.nl.toNat g = some acc') : engineStep c (s.atGroup pads n g acc out) =
      .next ((s.atGroup pads n g acc out).withGroup acc' (encodeGroup c acc' (g + 1 == n) pads)) := by
  have hstep := engineStep_run_encode (c := c) (s := s.atGroup pads n g acc out) rfl h0 (acc := acc')
    (by rw [State.atGroup_gidx_toNat hn hg]; exact hacc)
  rwa [State.atGroup_lastGroup hn hg] at hstep

/-- The RUN step of a group of DECODE (R111). -/
theorem engineStep_atGroup_decode {c : Config} (h0 : s.opl ≠ 0#2) {acc' : Accum}
    (hacc : decodeAcc c s.inRead g = some acc') : engineStep c (s.atGroup pads n g acc out) =
      .next ((s.atGroup pads n g acc out).withGroup acc' (decodeGroup acc' (g + 1 == n) pads)) := by
  have hstep := engineStep_run_decode (c := c) (s := s.atGroup pads n g acc out) rfl h0 (acc := acc')
    (by rw [State.atGroup_gidx_toNat hn hg]; exact hacc)
  rwa [State.atGroup_lastGroup hn hg] at hstep

end

/-- What the steps of a command do: CHECK begins `n` groups, and the RUN step of group `g` writes `f g` (R110, R111). -/
structure State.Processes (c : Config) (s : State) (pads : BitVec 2) (n : Nat) (f : Nat → List Byte) : Prop where
  phase : s.phase = .check
  pending : s.pending = []
  check : checkStep c s = .next (s.beginRun pads n)
  count_lt : n < 2 ^ 17
  place : ∀ g, g < n → ((List.range g).flatMap f).length = outputBefore s.opl g
  group : ∀ g, g < n → ∀ acc out, ∃ acc', engineStep c (s.atGroup pads n g acc out) =
    .next ((s.atGroup pads n g acc out).withGroup acc' (f g))

/-- The command begun in `s` after `g` of its `n` groups: complete after the last. -/
def State.afterGroups (s : State) (pads : BitVec 2) (n : Nat) (f : Nat → List Byte) (g : Nat) (acc : Accum) : State :=
  if g = n then (s.atGroup pads n g acc ((List.range g).flatMap f)).complete
  else s.atGroup pads n g acc ((List.range g).flatMap f)

section
variable {c : Config} {s : State} {pads : BitVec 2} {n : Nat} {f : Nat → List Byte} (h : s.Processes c pads n f)
include h

/-- A RUN step goes from one group to the next. -/
theorem State.Processes.stepWith_afterGroups {g : Nat} (hg : g < n) (acc : Accum) :
    ∃ acc', stepWith c (s.afterGroups pads n f g acc) = .next (s.afterGroups pads n f (g + 1) acc') := by
  obtain ⟨acc', hstep⟩ := h.group g hg acc ((List.range g).flatMap f)
  refine ⟨acc', ?_⟩
  rw [State.afterGroups, if_neg hg.ne, stepWith_of_nil c (s.atGroup pads n g acc _) h.pending, hstep,
    State.withGroup_atGroup h.count_lt hg (h.place g hg), State.afterGroups, List.range_succ, List.flatMap_append,
    List.flatMap_singleton]
  by_cases hend : g + 1 = n
  · rw [if_pos hend, if_pos hend, hend]
  · rw [if_neg hend, if_neg hend]

theorem State.Processes.run_afterGroups (k : Nat) : ∀ {g : Nat} (acc : Accum), g + k ≤ n →
    ∃ acc', (machineOf c).run k (s.afterGroups pads n f g acc) = .next (s.afterGroups pads n f (g + k) acc') := by
  induction k with
  | zero => exact fun acc _ => ⟨acc, rfl⟩
  | succ k ih =>
    intro g acc hk
    obtain ⟨acc', hstep⟩ := h.stepWith_afterGroups (by omega : g < n) acc
    rw [run_succ_of_next hstep, Nat.add_comm k, ← Nat.add_assoc]
    exact ih acc' (by omega)

theorem State.Processes.stepWith_check : stepWith c s = .next (s.afterGroups pads n f 0 s.acc) := by
  rw [stepWith_of_nil c s h.pending, engineStep_of_check c s h.phase, h.check]
  obtain ⟨rfl, hbegin⟩ | ⟨hne, hbegin⟩ := s.beginRun_cases pads n h.count_lt
  · rw [hbegin]
    rfl
  · rw [hbegin, State.afterGroups, if_neg hne.symm]
    rfl

/-- A command's CHECK step and its first `k` groups take `1 + k` engine steps (R117). -/
theorem State.Processes.run {k : Nat} (hk : k ≤ n) :
    ∃ acc, (machineOf c).run (1 + k) s = .next (s.afterGroups pads n f k acc) := by
  have hrun := h.run_afterGroups k (g := 0) s.acc (by omega)
  rwa [Nat.zero_add, ← run_succ_of_next h.stepWith_check, Nat.add_comm] at hrun

/-- A command ends with the output of all its groups (R112, R116). -/
theorem State.Processes.run_complete {out : List Byte} (hout : (List.range n).flatMap f = out)
    (hlen : out.length = if s.opl = 0#2 then 4 * n else 3 * n - pads.toNat) (hlt : out.length < 2 ^ 17) :
    ∃ u, (machineOf c).run (1 + n) s = .next u ∧ u.phase = .idle ∧ u.status = Status.success pads ∧ u.OutputIs out := by
  obtain ⟨acc, hrun⟩ := h.run le_rfl
  rw [State.afterGroups, if_pos rfl, hout] at hrun
  refine ⟨_, hrun, rfl, rfl, ?_, fun k hk => ?_⟩
  · rw [State.complete_outLen, State.outputLength, State.atGroup_ng_toNat h.count_lt]
    exact (congrArg _ (congrArg _ hlen.symm)).trans (toNat_ofNat_len hlt)
  · rw [State.complete_outBuf, State.atGroup, Memory.read_writeFrom, if_pos (by omega), Nat.sub_zero]

end

/-! ## The commands ENCODE and DECODE -/

/-- A START has taken the operands `bs` of the command `op`, and nothing is to happen but what the engine does (R105). -/
structure State.StartedWith (s : State) (op : BitVec 2) (bs : List Byte) : Prop where
  phase : s.phase = .check
  pending : s.pending = []
  opl : s.opl = op
  nl : s.nl.toNat = bs.length
  input : ∀ i, i < bs.length → s.inRead i = listRead bs i

theorem State.ReadyWith.start {s : State} {bs : List Byte} (h : s.ReadyWith bs) (op : BitVec 2) :
    (s.start op).StartedWith op bs := by
  obtain ⟨hidle, hpending, hlen, hinput⟩ := h
  rw [State.start_of_idle s op hidle]
  exact ⟨rfl, hpending, rfl, hlen, hinput⟩

/-- The CHECK step of DECODE begins the groups of a string it accepts, with its pad count (R88, R91, R92). -/
theorem State.StartedWith.checkStep_decode {c : Config} {s : State} {codes out : List Byte} {pads : BitVec 2}
    (h : s.StartedWith 1#2 codes) (hfits : codes.length ≤ c.inCap) (hok : decodeSymbols c codes = .ok (out, pads)) :
    checkStep c s = .next (s.beginRun pads (codes.length / 4)) := by
  obtain ⟨h4, hpads, hform, -⟩ := (decodeSymbols_eq_ok_iff c codes out pads).mp hok
  by_cases hempty : codes.length = 0
  · have hnl : s.nl = 0#17 := BitVec.eq_of_toNat_eq (h.nl.trans hempty)
    rw [List.length_eq_zero_iff] at hempty
    subst hempty
    cases hok
    exact checkStep_of_length_zero c (.inr h.opl) hnl
  · have hscan : scanFrom c s.inRead (codes.length / 4 - 1) codes.length 0 = .pass :=
      (scanFrom_congr c _ _ _ _ 0 fun i hi => h.input i (by omega)).trans
        ((scanFrom_listRead_pass_iff c h4).mpr ⟨_, hpads, hform⟩)
    have hcount : decodePads c s.inRead (codes.length / 4 - 1) = pads := by
      rw [decodePads_congr c fun i hi => h.input i (by omega), decodePads_of_symbolsThenPads h4 hpads hform,
        BitVec.ofNat_toNat, BitVec.setWidth_eq]
    have hrange : padsOutOfRange pads = false := by
      rw [Bool.eq_false_iff, Ne, padsOutOfRange_iff]
      omega
    have hgroups : codes.length / 4 ≠ 0 := by omega
    simp [checkStep, checkDecode, h.opl, h.nl, h4, hfits, hscan, hcount, hrange, -Nat.div_eq_zero_iff, hgroups]

section
variable {c : Config} {s : State} {bs : List Byte} (hcap : c.capacityLegal = true) (hfits : bs.length ≤ c.inCap)
include hcap hfits

/-- ENCODE processes the groups of `encodeOutput` (R73 to R81). -/
theorem State.StartedWith.processes_encode (h : s.StartedWith 0#2 bs) :
    s.Processes c (encodePads bs.length) (encodeGroupCount bs.length (encodePads bs.length)) fun g =>
      encodeGroup c (groupAcc bs g) (g + 1 == encodeGroupCount bs.length (encodePads bs.length))
        (encodePads bs.length) := by
  have hle := (c.capacityLegal_iff.mp hcap).2
  have hcount := encodeGroupCount_eq bs.length
  have hlt : encodeGroupCount bs.length (encodePads bs.length) < 2 ^ 17 := by omega
  exact {
    phase := h.phase
    pending := h.pending
    check := by simp [checkStep, checkEncode, h.opl, h.nl, hfits]
    count_lt := hlt
    place := fun g _ => by
      rw [length_flatMap_range fun g _ => encodeGroup_length _ _ _ _, outputBefore, if_pos h.opl]
    group := fun g hg acc out => ⟨groupAcc bs g, engineStep_atGroup_encode hlt hg h.opl (by
      rw [h.nl, encodeAcc_congr h.input, encodeAcc_listRead])⟩ }

/-- ENCODE ends with the output of the functional form (R116). -/
theorem State.StartedWith.run_encode (h : s.StartedWith 0#2 bs) :
    ∃ u, (machineOf c).run (1 + (bs.length + 2) / 3) s = .next u ∧ u.phase = .idle ∧
      u.status = Status.success (encodePads bs.length) ∧ u.OutputIs (encodeOutput c bs (encodePads bs.length)) := by
  have hle := (c.capacityLegal_iff.mp hcap).2
  have hcount := encodeGroupCount_eq bs.length
  have hlen := encodeOutput_length c bs (encodePads bs.length)
  rw [← hcount]
  exact (h.processes_encode hcap hfits).run_complete (encodeOutput_eq_flatMap c bs _).symm (by rw [hlen, if_pos h.opl])
    (by omega)

/-- DECODE of a string it accepts processes the groups of `decodeOutput` (R86 to R97). -/
theorem State.StartedWith.processes_decode (h : s.StartedWith 1#2 bs) {out : List Byte} {pads : BitVec 2}
    (hok : decodeSymbols c bs = .ok (out, pads)) :
    s.Processes c pads (bs.length / 4) fun g =>
      decodeGroup (symbolAcc c bs g) (g + 1 == bs.length / 4) pads := by
  have hle := (c.capacityLegal_iff.mp hcap).2
  obtain ⟨h4, hpads, hform, -⟩ := (decodeSymbols_eq_ok_iff c bs out pads).mp hok
  have h0 : s.opl ≠ 0#2 := by simp [h.opl]
  have hlt : bs.length / 4 < 2 ^ 17 := by omega
  exact {
    phase := h.phase
    pending := h.pending
    check := h.checkStep_decode hfits hok
    count_lt := hlt
    place := fun g hg => by
      rw [length_flatMap_range fun g' hg' => decodeGroup_length_of_not_last c bs pads (by omega), outputBefore, if_neg h0]
    group := fun g hg acc out => ⟨symbolAcc c bs g, engineStep_atGroup_decode hlt hg h0 (by
      rw [decodeAcc_congr c fun k hk => h.input k (by omega), decodeAcc_listRead c hg])⟩ }

/-- DECODE ends with the output of the functional form (R116). -/
theorem State.StartedWith.run_decode (h : s.StartedWith 1#2 bs) {out : List Byte} {pads : BitVec 2}
    (hok : decodeSymbols c bs = .ok (out, pads)) :
    ∃ u, (machineOf c).run (1 + bs.length / 4) s = .next u ∧ u.phase = .idle ∧
      u.status = Status.success pads ∧ u.OutputIs out := by
  have hle := (c.capacityLegal_iff.mp hcap).2
  obtain ⟨-, -, -, rfl⟩ := (decodeSymbols_eq_ok_iff c bs out pads).mp hok
  have hlen := decodeOutput_length c bs pads
  exact (h.processes_decode hcap hfits hok).run_complete (decodeOutput_eq_flatMap c bs pads).symm
    (by rw [hlen, if_neg (by simp [h.opl])]) (by omega)

end

/-! ## The round trip through the block -/

/-- `OUT_LEN` and the cells below it determine the output. -/
theorem State.OutputIs.unique {s : State} {out out' : List Byte} (h : s.OutputIs out) (h' : s.OutputIs out') :
    out = out' := by
  have hlen : out.length = out'.length := h.1.symm.trans h'.1
  refine List.ext_getElem hlen fun k hk hk' => Option.some_inj.mp ?_
  rw [← List.getElem?_eq_getElem, ← List.getElem?_eq_getElem, ← h.2 k hk, ← h'.2 k hk']

/-- Settles O43: ENCODE leaves the output of the functional form, and DECODE of that gives the input back. -/
theorem roundTripThroughTheBlock : Obligations.RoundTripThroughTheBlock := by
  intro c s t u s' bs out hcap halpha hs hfits hexec hrun hout hs'
  cases hexec
  obtain ⟨u₁, hrun₁, -, -, hout₁⟩ := (hs.start 0#2).run_encode hcap (by omega)
  cases hrun₁.symm.trans hrun
  obtain rfl := hout.unique hout₁
  have hlen := encodeOutput_length c bs (encodePads bs.length)
  have hcount := encodeGroupCount_eq bs.length
  have hok := decodeOfEncodeIsTheInput c bs _ _ halpha (encodeBytes_eq_ok c bs)
  obtain ⟨u', hrun', hidle, hstatus, hout'⟩ := (hs'.start 1#2).run_decode hcap (by omega) hok
  exact ⟨_, u', rfl, hrun', hidle, by rw [hstatus]; rfl, hout'⟩

end Sys2Proof.Machine
end

section
/-! The command words (R104 to R108, R113): what the host's write to `CTRL` does, in IDLE and in every other phase.  What
the host reads while the engine works (R114), and what a LOCKED block answers (R126, R130). -/

namespace Sys2Proof.Machine

/-! ## SETOP and START -/

/-- A command word with `START` set starts the command of its `OP` (R64, R105). -/
theorem exec_decodeCtrl_of_start_set {w : Word} (h : w.getLsbD 0 = true) (s : State) :
    exec (decodeCtrl w) s = .next (s.start (opField w)) := by
  have hstart : startField w ≠ 0#1 := fun e => by
    have hbit : w.getLsbD 0 = (0#1).getLsbD 0 := by rw [← e, startField, BitVec.getLsbD_extractLsb']; rfl
    exact absurd (h.symm.trans hbit) (by decide)
  have hop : ∀ op : BitVec 2, op = 0#2 ∨ op = 1#2 ∨ op = 2#2 ∨ op = 3#2 := by decide
  rw [decodeCtrl, if_neg hstart]
  obtain h | h | h | h := hop (opField w) <;> rw [h] <;> rfl

/-- A write to `CTRL` is one step, the meaning of the command word (R62, R48). -/
theorem stepWith_of_ctrl_write (c : Config) {s : State} {w : Word} {es : List Event}
    (hp : s.pending = .access ⟨.write, 4, 0x00000#18, w⟩ :: es) :
    stepWith c s = exec (decodeCtrl w) (s.setPending es) :=
  stepWith_of_access hp (decodeAccess_register (by decide) (by decide) w).2

/-- `CTRL` reads its one stored field `OP`, shifted to its place (R25). -/
theorem readRegister_ctrl_eq_shiftLeft (c : Config) (s : State) :
    readRegister c s Reg.ctrl.addr = s.ctrlOp.setWidth 32 <<< 1 := by
  have hword : ∀ op : BitVec 2, 0#29 ++ op ++ 0#1 = op.setWidth 32 <<< 1 := by decide
  rw [readRegister_ctrl, hword]

/-- `STATUS` after an accepted START (R105). -/
theorem Status.word_inProgress : Status.inProgress.word = 0x00000001#32 := by decide

/-- Settles O11: a command word with `START` clear is a SETOP. -/
theorem setopStoresOpOnly : Obligations.SetopStoresOpOnly := by
  intro c s w es hp hw
  have hstep : stepWith c s = .next ((s.setPending es).setOp (opField w)) := by
    rw [stepWith_of_ctrl_write c hp, decodeCtrl_of_start_clear hw]
    rfl
  constructor
  · intro hidle
    rw [State.setOp_of_idle (s.setPending es) _ hidle] at hstep
    exact ⟨_, hstep, rfl, readRegister_ctrl_eq_shiftLeft c _⟩
  · intro hidle
    rwa [State.setOp_of_not_idle (s.setPending es) _ hidle] at hstep

/-- Settles O12: a command word with `START` set is a START of its `OP`. -/
theorem startLatchesTheCommand : Obligations.StartLatchesTheCommand := by
  intro c s w es hp hw
  have hstep : stepWith c s = .next ((s.setPending es).start (opField w)) := by
    rw [stepWith_of_ctrl_write c hp, exec_decodeCtrl_of_start_set hw]
  constructor
  · intro hidle
    rw [State.start_of_idle (s.setPending es) _ hidle] at hstep
    exact ⟨_, hstep, Status.word_inProgress, rfl⟩
  · intro hidle
    rwa [State.start_of_not_idle (s.setPending es) _ hidle] at hstep

/-- Settles O13: SETOP stores its operand, and each of the others is the START of its own `OP`. -/
theorem commandsCompleteInIdle : Obligations.CommandsCompleteInIdle := by
  intro s hidle
  have hstarted (op : BitVec 2) : (s.start op).phase = .check ∧ (s.start op).opl = op ∧ (s.start op).ctrlOp = op ∧
      (s.start op).nl = s.inLen ∧ (s.start op).status.word = 0x00000001#32 ∧ (s.start op).outLen = 0#17 ∧
      (s.start op).errPos = 0#17 := by
    rw [State.start_of_idle s op hidle]
    exact ⟨rfl, rfl, rfl, rfl, Status.word_inProgress, rfl, rfl⟩
  refine ⟨fun op => congrArg _ (State.setOp_of_idle s op hidle), fun p hp => ?_⟩
  simp only [List.mem_cons, List.not_mem_nil, or_false] at hp
  obtain rfl | rfl | rfl | rfl := hp
  all_goals exact ⟨_, rfl, hstarted _⟩

/-- Settles O14: SETOP writes `CTRL.OP` alone, and a START the registers of R105 alone. -/
theorem commandWordFrame : Obligations.CommandWordFrame := by
  intro i s t h
  by_cases hi : ∃ op, i = .setop op
  · obtain ⟨op, rfl⟩ := hi
    cases h
    simp
  · have hne (op : BitVec 2) : i ≠ .setop op := fun e => hi ⟨op, e⟩
    obtain ⟨op, hexec⟩ := exec_eq_start hne
    cases (hexec s).symm.trans h
    simp [hne]

/-! ## While the engine works, and LOCKED -/

/-- While `BUSY` is set no cell of `OUT_BUF` is offered to the host (R43, R114). -/
theorem readOutBuf_of_busy {c : Config} {s : State} (hbusy : s.status.busy = true) {i : Nat} (hi : i < c.outCap) :
    readOutBuf c s i = none := by
  rw [readOutBuf, if_neg (Nat.not_le.mpr hi), if_neg fun h => by simp [hbusy] at h]

/-- Settles O24: a working block shows `STATUS`, `OUT_LEN` and `ERR_POS` as the START left them, and its latched operands
are the registers the host reads. -/
theorem readsWhileTheEngineWorks : Obligations.ReadsWhileTheEngineWorks := by
  intro c s hw hs hl
  obtain ⟨hstatus, hout, herr⟩ := hs.while_busy hw
  obtain ⟨hopl, hnl⟩ := hl hw
  refine ⟨?status, ?outLen, ?errPos, ?ctrl, ?inLen, fun i hi => readOutBuf_of_busy (hs.busy_iff.mpr hw) hi⟩
  case status => rw [readRegister_status, hstatus, Status.word_inProgress]
  case outLen => rw [readRegister_outLen, hout]; rfl
  case errPos => rw [readRegister_errPos, herr]; rfl
  case ctrl => rw [readRegister_ctrl_eq_shiftLeft, hopl]
  case inLen => rw [readRegister_inLen, hnl]

/-- Settles O57: a LOCKED block has no engine step and ignores every write, so only a reset changes it. -/
theorem lockedIsLeftOnlyByReset : Obligations.LockedIsLeftOnlyByReset := by
  intro c s t hp h hreset
  have hidle : s.phase ≠ .idle := by simp [hp]
  have hworking : ¬s.Working := by simp [State.Working, hp]
  obtain ⟨es, ⟨he, -⟩ | ⟨hes, -⟩ | ⟨-, -, he⟩⟩ := stepWith_cases c s t h
  · rw [engineStep_of_not_working c (s.setPending es) hworking] at he
    cases he
    exact s.sameBlock_setPending es
  · exact absurd hes (hreset es)
  · exact (s.sameBlock_setPending es).trans (he.sameBlock_of_not_idle hidle)

end Sys2Proof.Machine
end

section
/-! The errors of the CHECK step in their order of priority (R110, R129), and the reserved commands, which end in the
first of them (R108, R125). -/

namespace Sys2Proof.Machine

/-- The CHECK step ends a reserved command before any other check (R108, R110). -/
theorem checkStep_of_reserved (c : Config) {s : State} (h : 2 ≤ s.opl.toNat) :
    checkStep c s = .next (s.raise .notImplemented) := by
  have hop : ∀ op : BitVec 2, 2 ≤ op.toNat → op = 2#2 ∨ op = 3#2 := by decide
  rw [checkStep, if_pos (hop _ h)]

/-- The CHECK step ends a command whose input exceeds `IN_CAP` before it looks at the command (R110, R129). -/
theorem checkStep_of_too_long {c : Config} {s : State} (h : s.opl.toNat < 2) (hlen : c.inCap < s.nl.toNat) :
    checkStep c s = .next (s.raise (.invalidParameter .inputExceedsCapacity 0)) := by
  have hop : ∀ op : BitVec 2, op.toNat < 2 → ¬(op = 2#2 ∨ op = 3#2) := by decide
  rw [checkStep, if_neg (hop _ h), if_pos hlen]

/-- `STATUS` after a reserved command (R125). -/
theorem Status.word_notImplemented : (Status.failed .notImplemented).word = 0x0000000E#32 := by decide

/-- Settles O48: NOT_IMPLEMENTED, cause 5 and cause 1 are the CHECK step's first three checks, in this order. -/
theorem checkErrorsInOrderOfPriority : Obligations.CheckErrorsInOrderOfPriority := by
  intro c s hp
  rw [engineStep_of_check c s hp]
  have hcause5 : (Status.failed (.invalidParameter .inputExceedsCapacity 0)).word = 0x00000056#32 := by decide
  have hcause1 : (Status.failed (.invalidParameter .lengthNotMultipleOf4 0)).word = 0x00000016#32 := by decide
  exact ⟨fun h => ⟨_, checkStep_of_reserved c h, Status.word_notImplemented⟩,
    fun h hlen => ⟨_, checkStep_of_too_long h hlen, hcause5⟩,
    fun h1 hfits h4 => ⟨_, checkStep_decode_of_malformed h1 hfits h4, hcause1⟩⟩

/-- Settles O39: the CHECK step raises NOT_IMPLEMENTED. -/
theorem reservedCommandsEndNotImplemented : Obligations.ReservedCommandsEndNotImplemented := by
  intro c s hidle hpending p hp
  obtain ⟨hop, hexec⟩ : 2 ≤ p.2.toNat ∧ exec p.1 s = .next (s.start p.2) := by
    obtain rfl | rfl := List.mem_pair.mp hp <;> exact ⟨by decide, rfl⟩
  have hcheck := checkStep_of_reserved c (s := s.start p.2) (by simpa [hidle])
  exact ⟨_, _, hexec, (run_one_start hidle hpending p.2).trans hcheck, Status.word_notImplemented, rfl, rfl, rfl,
    by simp [hidle], s.commandFrame_raise_start p.2 _⟩

end Sys2Proof.Machine
end

section
/-! The commands ENCODE and DECODE from START to completion or error (R106, R107, R116, R117): how long they work, what
they leave in the registers and in `OUT_BUF`, and that they change nothing else (R61, R128). -/

namespace Sys2Proof.Machine

/-! ## What a command leaves unchanged -/

/-- A START is no part of what a command changes for the host (R105). -/
theorem State.CommandFrame.of_start {s u : State} {op : BitVec 2} {n : Nat} (h : (s.start op).CommandFrame u n) :
    s.CommandFrame u n := by
  simpa [State.CommandFrame] using h

/-- A command's groups write their output from cell 0 on, and nothing else of what the host sees (R61, R128). -/
theorem State.commandFrame_atGroup_complete (s : State) (pads : BitVec 2) (n g : Nat) (acc : Accum)
    (out : List Byte) : s.CommandFrame (s.atGroup pads n g acc out).complete out.length := by
  refine ⟨rfl, fun _ => rfl, fun k hk => ?_, rfl, rfl, rfl⟩
  rw [State.complete_outBuf, State.atGroup, Memory.read_writeFrom, if_neg (by omega)]

/-! ## The steps of a command -/

section
variable {c : Config} {s : State} {pads : BitVec 2} {n : Nat} {f : Nat → List Byte} (h : s.Processes c pads n f)
include h

/-- A command with `n` groups works through its CHECK step and its first `n` RUN steps (R117). -/
theorem State.Processes.working {k : Nat} (hk : k ≤ n) : ∃ v : State, (machineOf c).run k s = .next v ∧ v.Working := by
  cases k with
  | zero => exact ⟨s, rfl, .inl h.phase⟩
  | succ g =>
    obtain ⟨acc, hrun⟩ := h.run (k := g) (by omega)
    rw [Nat.add_comm, State.afterGroups, if_neg (by omega)] at hrun
    exact ⟨_, hrun, .inr rfl⟩

/-- A command that completes clears `ERR_POS`, keeps `CTRL.OP` and has the frame of its output (R112, R128). -/
theorem State.Processes.frame_of_run {u : State} {out : List Byte} (hout : (List.range n).flatMap f = out)
    (hu : (machineOf c).run (1 + n) s = .next u) :
    u.errPos = 0#17 ∧ u.ctrlOp = s.ctrlOp ∧ s.CommandFrame u out.length := by
  obtain ⟨acc, hrun⟩ := h.run le_rfl
  rw [State.afterGroups, if_pos rfl, hout] at hrun
  cases hrun.symm.trans hu
  exact ⟨rfl, rfl, s.commandFrame_atGroup_complete pads n n acc out⟩

end

/-- `STATUS` after a successful completion (R112). -/
theorem Status.word_success (pads : BitVec 2) :
    (Status.success pads).word = 0x00000002#32 ||| (pads.setWidth 32 <<< 8) := by
  revert pads; decide

/-- Settles O36: the groups of ENCODE are those of the functional form, and the frame is that of its output. -/
theorem encodeCommandRunsTheTransform : Obligations.EncodeCommandRunsTheTransform := by
  intro c s bs hcap hready hfits
  have hstart := hready.start 0#2
  have hprocesses := hstart.processes_encode hcap hfits
  obtain ⟨u, hrun, hidle, hstatus, hout⟩ := hstart.run_encode hcap hfits
  rw [← encodeGroupCount_eq] at hrun ⊢
  obtain ⟨herr, hop, hframe⟩ := hprocesses.frame_of_run (encodeOutput_eq_flatMap c bs _).symm hrun
  exact ⟨_, u, _, _, rfl, encodeBytes_eq_ok c bs, fun _ hk => hprocesses.working hk, hrun, hidle,
    by rw [hstatus, Status.word_success], herr, hout, by simpa [hready.1] using hop, hframe.of_start⟩

/-- Settles O37: the groups of DECODE are those of the functional form, and the frame is that of its output. -/
theorem decodeCommandRunsTheTransform : Obligations.DecodeCommandRunsTheTransform := by
  intro c s codes out pads hcap hready hfits hok
  have hstart := hready.start 1#2
  have hprocesses := hstart.processes_decode hcap hfits hok
  obtain ⟨u, hrun, hidle, hstatus, hout⟩ := hstart.run_decode hcap hfits hok
  obtain ⟨-, -, -, rfl⟩ := (decodeSymbols_eq_ok_iff c codes out pads).mp hok
  obtain ⟨herr, hop, hframe⟩ := hprocesses.frame_of_run (decodeOutput_eq_flatMap c codes pads).symm hrun
  exact ⟨_, u, rfl, fun _ hk => hprocesses.working hk, hrun, hidle, by rw [hstatus, Status.word_success], herr, hout,
    by simpa [hready.1] using hop, hframe.of_start⟩

/-! ## A DECODE that ends in an error -/

/-- `STATUS` after an INVALID_PARAMETER (R123, R127). -/
theorem Status.word_invalidParameter (cause : Cause) (pos : Nat) :
    (Status.failed (.invalidParameter cause pos)).word = 0x00000006#32 ||| (cause.code.setWidth 32 <<< 4) := by
  simp only [Status.failed, EngineError.errClass, EngineError.cause]
  cases cause <;> decide

/-- `ERR_POS` holds the position of an error that has one, where it is below the length (R29, R123). -/
theorem EngineError.position_invalidParameter_toNat (cause : Cause) {pos : Nat} (hpos : pos < 2 ^ 17) :
    (EngineError.invalidParameter cause pos).position.toNat = if cause.hasPosition then pos else 0 := by
  rw [EngineError.position]
  split
  · exact toNat_ofNat_len hpos
  · rfl

/-- DECODE reports a position within the string (R87, R91). -/
theorem pos_lt_of_decodeSymbols_eq_error {c : Config} {codes : List Byte} {cause : Cause} {pos : Nat}
    (h : decodeSymbols c codes = .error (.invalidParameter cause pos)) : pos < codes.length := by
  obtain ⟨h4, herror⟩ | ⟨-, cause', pos', herror, hbad⟩ | ⟨h4, hpass⟩ := decodeSymbols_cases c codes
  · cases herror.symm.trans h
    omega
  · cases herror.symm.trans h
    obtain ⟨-, hpos, -⟩ := (scanFrom_bad_iff c _ _ cause pos _ 0).mp hbad
    omega
  · cases (decodeSymbols_of_pass h4 hpass).symm.trans h

/-- The CHECK step of DECODE raises the error of a string the functional form rejects (R87, R91). -/
theorem State.StartedWith.checkStep_decode_of_error {c : Config} {s : State} {codes : List Byte} {cause : Cause}
    {pos : Nat} (h : s.StartedWith 1#2 codes) (hfits : codes.length ≤ c.inCap)
    (herror : decodeSymbols c codes = .error (.invalidParameter cause pos)) :
    checkStep c s = .next (s.raise (.invalidParameter cause pos)) := by
  obtain ⟨h4, hmalformed⟩ | ⟨h4, cause', pos', hbad, hscan⟩ | ⟨h4, hpass⟩ := decodeSymbols_cases c codes
  · cases hmalformed.symm.trans herror
    exact checkStep_decode_of_malformed h.opl (h.nl ▸ hfits) (h.nl ▸ h4)
  · cases hbad.symm.trans herror
    rw [scanFrom_congr c _ s.inRead _ _ 0 fun i hi => (h.input i (by omega)).symm] at hscan
    have hlen := pos_lt_of_decodeSymbols_eq_error herror
    have hgroups : codes.length / 4 ≠ 0 := by omega
    simp [checkStep, checkDecode, h.opl, h.nl, h4, hfits, hscan, -Nat.div_eq_zero_iff, hgroups]
  · cases (decodeSymbols_of_pass h4 hpass).symm.trans herror

/-- Settles O38: the CHECK step raises the error of the functional form. -/
theorem decodeCommandReportsTheError : Obligations.DecodeCommandReportsTheError := by
  intro c s codes cause pos hcap hready hfits herror
  obtain ⟨-, hle⟩ := c.capacityLegal_iff.mp hcap
  have hpos := pos_lt_of_decodeSymbols_eq_error herror
  have hcheck := (hready.start 1#2).checkStep_decode_of_error hfits herror
  obtain ⟨hidle, hpending, -⟩ := hready
  exact ⟨_, _, rfl, (run_one_start hidle hpending 1#2).trans hcheck, rfl, Status.word_invalidParameter cause pos,
    EngineError.position_invalidParameter_toNat cause (by omega), rfl, s.commandFrame_raise_start 1#2 _⟩

end Sys2Proof.Machine
end

section
/-! Progress (R103, R109) and the end of every command (R117): an engine step of a working block whose input is written
answers a next state, and leaves fewer steps to the command's completion. -/

namespace Sys2Proof.Machine

/-! ## A working block with its input written has a step -/

/-- With its input written a block that meets the invariant has an engine step (R115). -/
theorem State.Inv.exists_engineStep {c : Config} {s : State} (h : s.Inv c) (hin : s.InputWritten) :
    ∃ t, engineStep c s = .next t := by
  cases ht : engineStep c s with
  | next t => exact ⟨t, rfl⟩
  | fault f =>
    cases f
    obtain ⟨i, hi, hnone⟩ := h.exists_unwritten ht
    exact absurd hnone (hin i hi)
  | refused r => exact absurd ht (engineStep_ne_refused c s r)

/-- What an engine step comes to: RUN has begun, `GIDX` has moved on by one group of the command, or the command is over
(R110, R111). -/
def State.Progress (s t : State) : Prop :=
  (s.phase = .check ∧ t.phase = .run ∧ t.gidx = 0#17) ∨
  (s.phase = .run ∧ t.phase = .run ∧ t.gidx.toNat = s.gidx.toNat + 1) ∨
  (t.phase = .idle ∧ t.status.done = true)

/-- An error other than INVALID_INTERNAL_STATE ends the command (R127). -/
theorem State.Progress.raise (s : State) {e : EngineError} (he : e ≠ .invalidInternalState) :
    s.Progress (s.raise e) := by
  cases e with
  | invalidInternalState => exact absurd rfl he
  | invalidParameter | notImplemented => exact .inr (.inr ⟨rfl, rfl⟩)

/-- The end of a CHECK step begins RUN, or completes the command (R110). -/
theorem State.Progress.beginRun {s : State} (hp : s.phase = .check) (pads : BitVec 2) (n : Nat) :
    s.Progress (s.beginRun pads n) := by
  unfold State.beginRun
  dsimp only
  split
  · exact .inr (.inr ⟨rfl, rfl⟩)
  · exact .inl ⟨hp, rfl, rfl⟩

/-- The end of a RUN step goes on to the next group, or completes the command (R111). -/
theorem State.Progress.withGroup {s : State} (hp : s.phase = .run) (hg : s.gidx.toNat < s.ng.toNat) (acc : Accum)
    (bs : List Byte) : s.Progress (s.withGroup acc bs) := by
  obtain ⟨hgidx, hmore, hlast⟩ := State.withGroup_cases hg acc bs
  obtain hlt | heq : s.gidx.toNat + 1 < s.ng.toNat ∨ s.gidx.toNat + 1 = s.ng.toNat := by omega
  · exact .inr (.inl ⟨hp, (congrArg State.phase (hmore hlt)).trans hp, hgidx⟩)
  · rw [hlast heq]
    exact .inr (.inr ⟨rfl, rfl⟩)

/-- An engine step of a working block makes progress (R103, R109). -/
theorem State.Inv.progress {c : Config} {s t : State} (h : s.Inv c) (hw : s.Working) (hs : engineStep c s = .next t) :
    s.Progress t := by
  rcases hw with hp | hp
  · rw [engineStep_of_check c s hp] at hs
    obtain ⟨e, -, hne, rfl⟩ | ⟨pads, n, rfl⟩ := checkStep_raise_or_beginRun hs
    · exact .raise s hne
    · exact .beginRun hp pads n
  · rw [engineStep_of_run c s hp] at hs
    obtain ⟨acc, bs, -, rfl⟩ := runStep_withGroup hs
    exact .withGroup hp (h.run_ready hp).group_left acc bs

/-- Settles O45: the engine's step can only fault, and that on an unwritten cell of the input, or make progress. -/
theorem engineIsNeverStuck : Obligations.EngineIsNeverStuck := by
  intro c s _
  refine ⟨fun hinv hin hw => ?working, fun hp => ?rest⟩
  case working =>
    obtain ⟨t, ht⟩ := hinv.exists_engineStep hin
    exact ⟨t, ht, hinv.progress hw ht⟩
  case rest =>
    refine engineStep_of_not_working c s ?_
    rcases hp with h | h <;> simp [State.Working, h]

/-! ## Every command ends -/

/-- An engine step keeps the command's length and its input, and in RUN the number of its groups (R32, R111). -/
theorem engineStep_operands {c : Config} {s t : State} (h : engineStep c s = .next t) :
    t.nl = s.nl ∧ t.inBuf = s.inBuf ∧ (s.phase = .run → t.ng = s.ng) := by
  by_cases hw : s.Working
  · rcases hw with hp | hp
    · rw [engineStep_of_check c s hp] at h
      obtain ⟨e, -, -, rfl⟩ | ⟨pads, n, rfl⟩ := checkStep_raise_or_beginRun h <;> simp [hp]
    · rw [engineStep_of_run c s hp] at h
      obtain ⟨acc, bs, -, rfl⟩ := runStep_withGroup h
      simp [State.withGroup]
  · rw [engineStep_of_not_working c s hw] at h
    cases h
    exact ⟨rfl, rfl, fun _ => rfl⟩

/-- How many engine steps a command can still take: the CHECK step and one for each group its length allows, or one for
each group left (R117). -/
def State.stepsLeft (c : Config) (s : State) : Nat :=
  match s.phase with
  | .idle | .locked => 0
  | .check => 1 + (c.inCap + 2) / 3
  | .run => s.ng.toNat - s.gidx.toNat

/-- A command has no more groups than an ENCODE of `IN_CAP` bytes (R75, R89). -/
theorem State.RunReady.ng_le {c : Config} {s : State} (h : s.RunReady c) : s.ng.toNat ≤ (c.inCap + 2) / 3 := by
  have hfits := h.fits
  rcases h.direction with h0 | h1
  · obtain ⟨hpads, hng⟩ := h.encode_counts h0
    rw [hpads, encodeGroupCount_eq] at hng
    omega
  · obtain ⟨-, hng, -, -⟩ := h.decode_checks h1
    omega

theorem State.Inv.stepsLeft_le {c : Config} {s : State} (h : s.Inv c) : s.stepsLeft c ≤ 1 + (c.inCap + 2) / 3 := by
  cases hp : s.phase with
  | idle | locked | check => simp [State.stepsLeft, hp]
  | run =>
    have hng := (h.run_ready hp).ng_le
    simp only [State.stepsLeft, hp]
    omega

/-- Each engine step of a command leaves fewer. -/
theorem State.Inv.stepsLeft_lt {c : Config} {s t : State} (h : s.Inv c) (ht : t.Inv c) (hw : s.Working)
    (hs : engineStep c s = .next t) : t.stepsLeft c < s.stepsLeft c := by
  obtain ⟨hp, hp', hgidx⟩ | ⟨hp, hp', hgidx⟩ | ⟨hp', -⟩ := h.progress hw hs
  · have hng := (ht.run_ready hp').ng_le
    simp only [State.stepsLeft, hp, hp']
    omega
  · have hleft := (h.run_ready hp).group_left
    have hng := (engineStep_operands hs).2.2 hp
    simp only [State.stepsLeft, hp, hp', hng]
    omega
  · rcases hw with hp | hp
    · simp only [State.stepsLeft, hp, hp']
      omega
    · have hleft := (h.run_ready hp).group_left
      simp only [State.stepsLeft, hp, hp']
      omega

/-- A block whose engine does not work, with nothing to come, is at the end of its run (R155). -/
theorem State.ended_of_not_working {s : State} (hpending : s.pending = []) (hw : ¬s.Working) : s.ended = true := by
  cases hp : s.phase with
  | idle | locked => simp [State.ended, hpending, hp]
  | check => exact absurd (.inl hp) hw
  | run => exact absurd (.inr hp) hw

/-- A command whose input is written ends within the steps it has left. -/
theorem State.Inv.run_ended {c : Config} (m : Nat) : ∀ {s : State}, s.Inv c → s.InputWritten → s.pending = [] →
    s.stepsLeft c < m → ∃ (n : Nat) (t : State), n < m ∧ (machineOf c).run n s = .next t ∧ t.ended = true := by
  induction m with
  | zero => exact fun _ _ _ hm => absurd hm (Nat.not_lt_zero _)
  | succ m ih =>
    intro s h hin hpending hm
    by_cases hw : s.Working
    · obtain ⟨u, hu⟩ := h.exists_engineStep hin
      have hstep : stepWith c s = .next u := (stepWith_of_nil c s hpending).trans hu
      have hinv := stepWith_inv h hstep
      have hless := h.stepsLeft_lt hinv hw hu
      obtain ⟨hnl, hbuf, -⟩ := engineStep_operands hu
      obtain ⟨n, t, hn, hrun, hended⟩ := ih hinv (by rwa [State.InputWritten, hnl, hbuf])
        ((engineStep_surroundings hu).1.trans hpending) (by omega)
      exact ⟨n + 1, t, by omega, (run_succ_of_next hstep n).trans hrun, hended⟩
    · exact ⟨0, s, Nat.succ_pos m, rfl, State.ended_of_not_working hpending hw⟩

/-- Settles O46: each step leaves fewer steps, and the capacity bounds how many there are. -/
theorem everyCommandEnds : Obligations.EveryCommandEnds := by
  intro c s hcap hinv hin hpending
  obtain ⟨-, hle⟩ := c.capacityLegal_iff.mp hcap
  have hsteps := hinv.stepsLeft_le
  obtain ⟨n, t, hn, hrun, hended⟩ := hinv.run_ended 21848 hin hpending (by omega)
  exact ⟨n, t, Nat.le_of_lt_succ hn, hrun, hended⟩

end Sys2Proof.Machine
end

section
/-! The exceptions (R124 to R130): an input longer than `IN_CAP` (cause 5), what a CHECK step that ends in an error
leaves unchanged, and that no step raises INVALID_INTERNAL_STATE. -/

namespace Sys2Proof.Machine

/-! ## Cause 5 -/

/-- Settles O40: the CHECK step raises cause 5 for either command. -/
theorem tooLongCommandsEndWithCause5 : Obligations.TooLongCommandsEndWithCause5 := by
  intro c s hidle hpending hlen i hi
  obtain ⟨op, hop, hexec⟩ : ∃ op : BitVec 2, op.toNat < 2 ∧ exec i s = .next (s.start op) := by
    obtain rfl | rfl := List.mem_pair.mp hi
    · exact ⟨0#2, by decide, rfl⟩
    · exact ⟨1#2, by decide, rfl⟩
  have hcheck := checkStep_of_too_long (c := c) (s := s.start op) (by simpa [hidle] using hop)
    (by simpa [hidle])
  have hword : (Status.failed (.invalidParameter .inputExceedsCapacity 0)).word = 0x00000056#32 := by decide
  exact ⟨_, _, hexec, (run_one_start hidle hpending op).trans hcheck, hword, rfl, rfl, rfl,
    s.commandFrame_raise_start op _⟩

/-! ## Errors are precise -/

/-- An error other than INVALID_INTERNAL_STATE leaves the engine idle (R127). -/
theorem EngineError.phaseAfter_eq_idle {e : EngineError} (h : e ≠ .invalidInternalState) : e.phaseAfter = .idle := by
  cases e with
  | invalidInternalState => exact absurd rfl h
  | invalidParameter | notImplemented => rfl

/-- Only INVALID_INTERNAL_STATE is reported as such (R122). -/
theorem EngineError.errClass_ne_invalidInternalState {e : EngineError} (h : e ≠ .invalidInternalState) :
    e.errClass ≠ .invalidInternalState := by
  cases e with
  | invalidInternalState => exact absurd rfl h
  | invalidParameter | notImplemented => exact nofun

/-- The end of a CHECK step that raised nothing completes the command, or begins RUN with `STATUS` as it was (R110). -/
theorem State.beginRun_complete_or_run (s : State) (pads : BitVec 2) (n : Nat) :
    (∃ u : State, s.beginRun pads n = u.complete) ∨
    ((s.beginRun pads n).phase = .run ∧ (s.beginRun pads n).status = s.status) := by
  unfold State.beginRun
  dsimp only
  split
  · exact .inl ⟨_, rfl⟩
  · exact .inr ⟨rfl, rfl⟩

/-- The end of a RUN step completes the command, or leaves `PHASE` and `STATUS` as they were (R111). -/
theorem State.finishGroup_complete_or_same (s : State) :
    (∃ u : State, s.finishGroup = u.complete) ∨
    (s.finishGroup.phase = s.phase ∧ s.finishGroup.status = s.status) := by
  unfold State.finishGroup
  dsimp only
  split
  · exact .inl ⟨_, rfl⟩
  · exact .inr ⟨rfl, rfl⟩

/-- A CHECK step that raises nothing shows no error where none was shown before (R110, R112). -/
theorem State.beginRun_err {s : State} (h : s.status.err = .none) (pads : BitVec 2) (n : Nat) :
    (s.beginRun pads n).status.err = .none := by
  obtain ⟨u, hu⟩ | ⟨-, hst⟩ := s.beginRun_complete_or_run pads n
  · rw [hu]; rfl
  · rw [hst, h]

/-- Settles O49: a CHECK step raises an error, which sets the registers of R127 alone, or goes on and shows none, since
`STATUS` is 1 before it. -/
theorem errorsArePrecise : Obligations.ErrorsArePrecise := by
  intro c s t hs hp h
  rw [engineStep_of_check c s hp] at h
  obtain ⟨hin, hout⟩ := checkStep_buffers h
  refine ⟨fun k => by rw [hout], fun k => by rw [hin], fun herr => ?_⟩
  have hlocked := (checkStep_statusConsistent hs hp h).locked_iff.symm
  obtain ⟨e, -, hne, rfl⟩ | ⟨pads, n, rfl⟩ := checkStep_raise_or_beginRun h
  · exact ⟨rfl, rfl, rfl, rfl, hlocked, fun _ => EngineError.phaseAfter_eq_idle hne⟩
  · have hnone : s.status.err = .none := by rw [(hs.while_busy (.inl hp)).1]; rfl
    exact absurd (State.beginRun_err hnone pads n) herr

/-! ## INVALID_INTERNAL_STATE is unreachable -/

/-- `t` is LOCKED, or reports INVALID_INTERNAL_STATE, only where `s` did (R126). -/
def State.RaisesNoInternalError (s t : State) : Prop :=
  (s.phase ≠ .locked → t.phase ≠ .locked) ∧
  (s.status.err ≠ .invalidInternalState → t.status.err ≠ .invalidInternalState)

theorem State.RaisesNoInternalError.trans {s t u : State} (h : s.RaisesNoInternalError t)
    (k : t.RaisesNoInternalError u) : s.RaisesNoInternalError u := by
  obtain ⟨hphase, herr⟩ := h
  obtain ⟨kphase, kerr⟩ := k
  exact ⟨kphase ∘ hphase, kerr ∘ herr⟩

theorem State.RaisesNoInternalError.of_ne {s t : State} (hp : t.phase ≠ .locked)
    (he : t.status.err ≠ .invalidInternalState) : s.RaisesNoInternalError t :=
  ⟨fun _ => hp, fun _ => he⟩

theorem State.RaisesNoInternalError.of_eq {s t : State} (hp : t.phase = s.phase) (hst : t.status = s.status) :
    s.RaisesNoInternalError t :=
  ⟨fun h => hp ▸ h, fun h => hst ▸ h⟩

theorem State.RaisesNoInternalError.complete (s u : State) : s.RaisesNoInternalError u.complete :=
  .of_ne nofun nofun

theorem HostEffect.raisesNoInternalError {c : Config} {s t : State} (h : HostEffect c s t) :
    s.RaisesNoInternalError t := by
  cases h with
  | start op =>
    by_cases hp : s.phase = .idle
    · rw [State.start_of_idle s op hp]
      exact .of_ne nofun nofun
    · rw [State.start_of_not_idle s op hp]
      exact .of_eq rfl rfl
  | observe | observeByte | setOp | writeInLen | writeInBuf | nothing => exact .of_eq (by simp) (by simp)

theorem checkStep_raisesNoInternalError {c : Config} {s t : State} (h : checkStep c s = .next t) :
    s.RaisesNoInternalError t := by
  obtain ⟨e, -, hne, rfl⟩ | ⟨pads, n, rfl⟩ := checkStep_raise_or_beginRun h
  · refine .of_ne ?_ (EngineError.errClass_ne_invalidInternalState hne)
    rw [State.raise_phase, EngineError.phaseAfter_eq_idle hne]
    exact nofun
  · obtain ⟨u, hu⟩ | ⟨hp, hst⟩ := s.beginRun_complete_or_run pads n
    · exact hu ▸ .complete s u
    · exact ⟨fun _ => by rw [hp]; exact nofun, fun he => hst ▸ he⟩

theorem runStep_raisesNoInternalError {c : Config} {s t : State} (h : runStep c s = .next t) :
    s.RaisesNoInternalError t := by
  obtain ⟨acc, bs, -, rfl⟩ := runStep_withGroup h
  rw [State.withGroup]
  obtain ⟨u, hu⟩ | ⟨hp, hst⟩ := State.finishGroup_complete_or_same
    (({ s with acc := acc } : State).outWrite (outputBefore s.opl s.gidx.toNat) bs)
  · exact hu ▸ .complete s u
  · exact .of_eq hp hst

/-- Settles O56: the CHECK step's two branches into INVALID_INTERNAL_STATE never fire, and nothing else raises it. -/
theorem internalStateErrorIsNeverRaised : Obligations.InternalStateErrorIsNeverRaised := by
  intro c s t h
  exact stepWith_preserves (P := s.RaisesNoInternalError)
    (hpending := fun _ _ hs => hs)
    (hreset := fun _ _ => .of_ne nofun nofun)
    (hhost := fun _ _ hs he => hs.trans he.raisesNoInternalError)
    (hcheck := fun _ _ hs _ h => hs.trans (checkStep_raisesNoInternalError h))
    (hrun := fun _ _ hs _ h => hs.trans (runStep_raisesNoInternalError h))
    (.of_eq rfl rfl) h

end Sys2Proof.Machine
end

section
/-! The reset event (R139, R141): from any state the next one is the reset block, and the execution around it goes on. -/

namespace Sys2Proof.Machine

theorem State.reset_sameBlock_resetBlock (s : State) : State.reset.SameBlock s.resetBlock := rfl

theorem stepWith_of_reset (c : Config) {s : State} {es : List Event} (h : s.pending = .reset :: es) :
    stepWith c s = .next (s.setPending es).resetBlock := by
  rw [stepWith_of_cons c s .reset es h, performEvent]

/-- Settles O4: the step answers the reset block whatever the phase is, and that block takes only the coming events, the
values read and the draws from the state before. -/
theorem resetEventRestoresResetState : Obligations.ResetEventRestoresResetState := by
  intro c s es hp
  exact ⟨(s.setPending es).resetBlock, stepWith_of_reset c hp, State.reset_sameBlock_resetBlock _, rfl, rfl, rfl⟩

end Sys2Proof.Machine
end
